-- ==== Sys2Proof/Word.lean ====
section
/-! DEFINITION. Word sizes of the block (spec/00_scope.md R7, R13): everything is unsigned. -/

namespace Sys2Proof

/-- A data byte: 8 bits, unsigned (R7). -/
abbrev Byte := BitVec 8

/-- A 16-bit response value or operand field (R111, R116). -/
abbrev Half := BitVec 16

/-- A 32-bit command word `CW` or response word `RW` (R110). -/
abbrev Word := BitVec 32

end Sys2Proof
end

