-- ==== Sys2Proof/Syntax.lean ====
section
/-! DEFINITION. The instruction set: the sixteen host commands (spec/30_encoding.md R115) and the four
phase micro-operations (R119), one constructor per row of spec/opcode_table.json. -/

namespace Sys2Proof

/-- A command or a phase. A `BYTE` operand is a byte; an `INDEX` operand is a number, 0 to 65535 in a
well-formed command (R112, R114). -/
inductive Instr where
  /-- TX_CLEAR (R187). -/
  | txClear
  /-- TX_ADD b (R188). -/
  | txAdd (b : Byte)
  /-- TX_START (R189). -/
  | txStart
  /-- TX_STOP (R190). -/
  | txStop
  /-- TX_STOP_ON_IDLE (R191). -/
  | txStopOnIdle
  /-- TX_REMAINING (R192). -/
  | txRemaining
  /-- TX_STATE (R193). -/
  | txState
  /-- RX_START (R240). -/
  | rxStart
  /-- RX_STOP (R241). -/
  | rxStop
  /-- RX_GET_SAVED (R242). -/
  | rxGetSaved
  /-- RX_FRAME_COMPLETE (R243). -/
  | rxFrameComplete
  /-- RX_FRAME_LEN (R244). -/
  | rxFrameLen
  /-- RX_FRAME_BYTE i (R245). -/
  | rxFrameByte (i : Nat)
  /-- RX_STATE (R246). -/
  | rxState
  /-- SNAP_LEN (R160). -/
  | snapLen
  /-- SNAP_BYTE i (R161). -/
  | snapByte (i : Nat)
  /-- PH0_SEND_BIT (R281). -/
  | ph0SendBit
  /-- PH1_CLK_RISE (R282). -/
  | ph1ClkRise
  /-- PH2_RX_SAMPLE (R283). -/
  | ph2RxSample
  /-- PH3_CLK_FALL (R284). -/
  | ph3ClkFall
  deriving DecidableEq, Repr

/-- An encoded instruction (R110): a command word the host presents, or the 2-bit value of PHASE that
selects a tick's micro-operation. -/
inductive Code where
  | command (cw : Word)
  | phase (p : BitVec 2)
  deriving DecidableEq, Repr

/-- The mnemonic of R115 or R119. -/
def Instr.mnemonic : Instr → String
  | .txClear => "TX_CLEAR"
  | .txAdd _ => "TX_ADD"
  | .txStart => "TX_START"
  | .txStop => "TX_STOP"
  | .txStopOnIdle => "TX_STOP_ON_IDLE"
  | .txRemaining => "TX_REMAINING"
  | .txState => "TX_STATE"
  | .rxStart => "RX_START"
  | .rxStop => "RX_STOP"
  | .rxGetSaved => "RX_GET_SAVED"
  | .rxFrameComplete => "RX_FRAME_COMPLETE"
  | .rxFrameLen => "RX_FRAME_LEN"
  | .rxFrameByte _ => "RX_FRAME_BYTE"
  | .rxState => "RX_STATE"
  | .snapLen => "SNAP_LEN"
  | .snapByte _ => "SNAP_BYTE"
  | .ph0SendBit => "PH0_SEND_BIT"
  | .ph1ClkRise => "PH1_CLK_RISE"
  | .ph2RxSample => "PH2_RX_SAMPLE"
  | .ph3ClkFall => "PH3_CLK_FALL"

/-- The host's commands, as opposed to the sequencer's phases (R9, R312). -/
def Instr.isCommand : Instr → Bool
  | .ph0SendBit | .ph1ClkRise | .ph2RxSample | .ph3ClkFall => false
  | .txClear | .txAdd _ | .txStart | .txStop | .txStopOnIdle | .txRemaining | .txState
  | .rxStart | .rxStop | .rxGetSaved | .rxFrameComplete | .rxFrameLen | .rxFrameByte _ | .rxState
  | .snapLen | .snapByte _ => true

end Sys2Proof
end

