-- ==== Sys2Proof/WellFormed.lean ====
section
/-! DEFINITION. Which instructions have an encoding (spec/30_encoding.md R112, R114): an `INDEX`
operand is what 16 bits hold. Every other operand is bounded by its type. -/

namespace Sys2Proof

/-- The operand fits its field of the command word: an index is 0 to 65535 (R112). -/
def Instr.wellFormed : Instr → Bool
  | .rxFrameByte i => decide (i < 65536)
  | .snapByte i => decide (i < 65536)
  | .txClear | .txAdd _ | .txStart | .txStop | .txStopOnIdle | .txRemaining | .txState
  | .rxStart | .rxStop | .rxGetSaved | .rxFrameComplete | .rxFrameLen | .rxState
  | .snapLen | .ph0SendBit | .ph1ClkRise | .ph2RxSample | .ph3ClkFall => true

end Sys2Proof
end

