-- ==== Sys2Proof/Decode.lean ====
section
/-! DEFINITION. Decoding and encoding (spec/30_encoding.md R111 to R119, R126, R127). A command word is
handed over whole, so no byte order applies (R84, log 8). -/

namespace Sys2Proof

/-- Why a command word is ILLEGAL (R112, R126), in the order the checks are made. -/
inductive Illegal where
  /-- `OP` is not an opcode of R115. -/
  | reservedOpcode
  /-- `RSV` is not 0. -/
  | reservedField
  /-- Operand bits the opcode's class does not use are not 0. -/
  | strayOperand
  deriving DecidableEq, Repr

/-- An opcode's operand class with the command it makes (R112, R115). -/
inductive OpShape where
  /-- Class `NONE`. -/
  | plain (i : Instr)
  /-- Class `BYTE`. -/
  | byte (mk : Byte → Instr)
  /-- Class `INDEX`. -/
  | index (mk : Nat → Instr)

/-- `OP = CW[31:24]` (R111). -/
def opField (cw : Word) : Byte := cw.extractLsb' 24 8
/-- `RSV = CW[23:16]` (R111). -/
def rsvField (cw : Word) : Byte := cw.extractLsb' 16 8
/-- `ARG = CW[15:0]` (R111). -/
def argField (cw : Word) : Half := cw.extractLsb' 0 16
/-- `CW[15:8]`, which class `BYTE` does not use (R112). -/
def argHighField (cw : Word) : Byte := cw.extractLsb' 8 8
/-- A `BYTE` operand, `CW[7:0]` (R114). -/
def byteOperand (cw : Word) : Byte := cw.extractLsb' 0 8
/-- An `INDEX` operand, `CW[15:0]` zero-extended (R114). -/
def indexOperand (cw : Word) : Nat := (argField cw).toNat

/-- The opcode map (R115); every other value is reserved (R126). -/
def opShape (op : Byte) : Option OpShape :=
  match op.toNat with
  | 0x01 => some (.plain .txClear)
  | 0x02 => some (.byte .txAdd)
  | 0x03 => some (.plain .txStart)
  | 0x04 => some (.plain .txStop)
  | 0x05 => some (.plain .txStopOnIdle)
  | 0x06 => some (.plain .txRemaining)
  | 0x07 => some (.plain .txState)
  | 0x10 => some (.plain .rxStart)
  | 0x11 => some (.plain .rxStop)
  | 0x12 => some (.plain .rxGetSaved)
  | 0x13 => some (.plain .rxFrameComplete)
  | 0x14 => some (.plain .rxFrameLen)
  | 0x15 => some (.index .rxFrameByte)
  | 0x16 => some (.plain .rxState)
  | 0x20 => some (.plain .snapLen)
  | 0x21 => some (.index .snapByte)
  | _ => none

/-- The decoder of R112: the opcode, then `RSV`, then the operand bits of the class. -/
def decodeCommand (cw : Word) : Except Illegal Instr :=
  match opShape (opField cw) with
  | none => .error .reservedOpcode
  | some shape =>
    if rsvField cw ≠ 0#8 then .error .reservedField
    else match shape with
      | .plain i => if argField cw = 0#16 then .ok i else .error .strayOperand
      | .byte mk => if argHighField cw = 0#8 then .ok (mk (byteOperand cw)) else .error .strayOperand
      | .index mk => .ok (mk (indexOperand cw))

/-- The phase encoding (R119): all four values are used. -/
def decodePhase (p : BitVec 2) : Instr :=
  match p.toNat with
  | 0 => .ph0SendBit
  | 1 => .ph1ClkRise
  | 2 => .ph2RxSample
  | _ => .ph3ClkFall

/-- Decoding of any encoded instruction (R110). -/
def decode : Code → Except Illegal Instr
  | .command cw => decodeCommand cw
  | .phase p => .ok (decodePhase p)

/-- The encoding `{OP, 8'h00, ARG}` of a command (R111, R128). -/
def commandWord (op : Byte) (arg : Half) : Word := op ++ 0#8 ++ arg

/-- The encoding of an instruction: its command word (R115, R128) or its phase (R119). -/
def encode : Instr → Code
  | .txClear => .command (commandWord 0x01#8 0#16)
  | .txAdd b => .command (commandWord 0x02#8 (b.setWidth 16))
  | .txStart => .command (commandWord 0x03#8 0#16)
  | .txStop => .command (commandWord 0x04#8 0#16)
  | .txStopOnIdle => .command (commandWord 0x05#8 0#16)
  | .txRemaining => .command (commandWord 0x06#8 0#16)
  | .txState => .command (commandWord 0x07#8 0#16)
  | .rxStart => .command (commandWord 0x10#8 0#16)
  | .rxStop => .command (commandWord 0x11#8 0#16)
  | .rxGetSaved => .command (commandWord 0x12#8 0#16)
  | .rxFrameComplete => .command (commandWord 0x13#8 0#16)
  | .rxFrameLen => .command (commandWord 0x14#8 0#16)
  | .rxFrameByte i => .command (commandWord 0x15#8 (BitVec.ofNat 16 i))
  | .rxState => .command (commandWord 0x16#8 0#16)
  | .snapLen => .command (commandWord 0x20#8 0#16)
  | .snapByte i => .command (commandWord 0x21#8 (BitVec.ofNat 16 i))
  | .ph0SendBit => .phase 0#2
  | .ph1ClkRise => .phase 1#2
  | .ph2RxSample => .phase 2#2
  | .ph3ClkFall => .phase 3#2

/-- The code that `nbits` bits of value `w` stand for: up to 8 bits a value of PHASE (2 bits, R119),
otherwise a 32-bit command word (R127). A value its register cannot hold stands for none (log 8). -/
def tableCode (nbits w : Nat) : Option Code :=
  if nbits ≤ 8 then
    if w < 4 then some (.phase (BitVec.ofNat 2 w)) else none
  else
    if w < 4294967296 then some (.command (BitVec.ofNat 32 w)) else none

/-- The instruction the decoder reads from a word numbered as spec/opcode_table.json numbers it. -/
def decodeTableWord (nbits w : Nat) : Option Instr :=
  match tableCode nbits w with
  | none => none
  | some c =>
    match decode c with
    | .ok i => some i
    | .error _ => none

end Sys2Proof
end

