-- ==== Sys2Proof/Config.lean ====
section
/-! DEFINITION. What an implementation fixes, the wire code, and the free values
(spec/00_scope.md R6, spec/30_encoding.md R120 and R121, log 1, 3, 4, 7, 12). -/

namespace Sys2Proof

/-- One move of the agents outside the block (R9): the host presents a command word, or the platform
delivers a tick while the line holds RXD at a level. -/
inductive Move where
  /-- The host presents this command word (R118). -/
  | command (cw : Word)
  /-- A tick arrives (R280); the line holds RXD at this level in that step (R283). -/
  | tick (rxd : Bool)
  deriving DecidableEq, Repr, Inhabited

/-- The receive state after DLE ENQ in TRANSPARENT_DATA: the two values the OPEN parameter
`P_TTD_NEXT` may take (R6, R232, decision D16). -/
inductive TtdNext where
  | idle
  | transparentData
  deriving DecidableEq, Repr

/-- The parameters of the block that a model takes as arguments (R6). -/
structure Params where
  /-- `N`, the capacity of every byte buffer, 2 to 65536. -/
  cap : Nat
  /-- `P_TTD_NEXT`. -/
  ttdNext : TtdNext
  deriving DecidableEq, Repr

/-- The range R6 gives for `N`; both values of `P_TTD_NEXT` are legal. -/
def Params.wf (p : Params) : Bool :=
  decide (2 ≤ p.cap) && decide (p.cap ≤ 65536)

namespace Config

/-- The reference values of R6: `N = 300`, `P_TTD_NEXT = IDLE` (log 3, DESIGN CHOICE for a run from reset). -/
def reference : Params := { cap := 300, ttdNext := .idle }

/-- `MARK_LEVEL`, the idle level of TXD (R6, decision D10, PRESUMED by the spec itself; log 7). -/
def markLevel : Bool := true

/-- `TICK_RATE = 4 * BIT_RATE` (R6); `BIT_RATE` is OPEN and no rule depends on it (log 12). -/
def tickRate (bitRate : Nat) : Nat := 4 * bitRate

/-- What a byte store reads as at an index nothing has written (log 4, DESIGN CHOICE, unobservable
by R52). -/
def unlistedByte : Byte := 0x00#8

/-- The next move of the agents when State lists none: any command word or tick, with any level of
RXD (R9, R90; 93 IMP4 and IMP5; log 1). No proof can see which. -/
opaque freeMove : Nat → Move

/-! The control bytes (R120) and the second bytes of the DLE-prefixed codes (R121). -/

/-- SYN: sync and idle fill. -/
def syn : Byte := 0x32#8
/-- SOH: start of header. -/
def soh : Byte := 0x01#8
/-- STX: start of text. -/
def stx : Byte := 0x02#8
/-- ETX: end of text. -/
def etx : Byte := 0x03#8
/-- ETB: end of transmission block. -/
def etb : Byte := 0x26#8
/-- ENQ. -/
def enq : Byte := 0x2D#8
/-- DLE: data-link escape. -/
def dle : Byte := 0x10#8
/-- NAK. -/
def nak : Byte := 0x3D#8
/-- ITB. -/
def itb : Byte := 0x1F#8
/-- EOT. -/
def eot : Byte := 0x37#8
/-- PAD. -/
def pad : Byte := 0xFF#8
/-- ACK0, sent after DLE. -/
def ack0 : Byte := 0x70#8
/-- ACK1, sent after DLE. -/
def ack1 : Byte := 0x61#8
/-- WACK, sent after DLE; no receive rule names it (R255). -/
def wack : Byte := 0x6B#8
/-- RVI, sent after DLE; no receive rule names it (R255). -/
def rvi : Byte := 0x7C#8

/-- All fifteen wire codes of R120 and R121. -/
def wireCodes : List Byte :=
  [syn, soh, stx, etx, etb, enq, dle, nak, itb, eot, pad, ack0, ack1, wack, rvi]

end Config
end Sys2Proof
end

