-- ==== Sys2Proof/Machine/State.lean ====
section
/-! DEFINITION. The architectural state (spec/10_state.md), the state after reset (R54, R330) and the
reasons a step can stop. INVENTORY.md, State, lists every field with its rule. -/

namespace Sys2Proof.Machine

/-- Why the machine stops. The spec has no trap (R300, R309); this is the one stop of the model. -/
inductive Fault where
  /-- A read of a byte store at index `i`, which does not exist: the store has indices 0 to `N - 1`
  (R33, R80, R88). Raised by `memRead` and `snapTake`; safe (log 6). No state that keeps the
  invariant of Safety.lean reaches it. -/
  | noSuchIndex (i : Nat)
  deriving DecidableEq, Repr

/-- Why the model has no meaning for an instruction. Never answered: every instruction has one. -/
inductive Refusal where
  /-- `exec` would answer it for an instruction without a meaning; no arm does. Safe. -/
  | notModelled (mnemonic : String)
  deriving DecidableEq, Repr

/-- The reason codes of the sentinels (R117, R301). -/
inductive ReasonCode where
  | full
  | empty
  | outOfRange
  | noFrame
  | timeout
  | illegal
  deriving DecidableEq, Repr

/-- The result of an internal operation (R151 to R159): a value, a sentinel, or a read at an index that
does not exist (log 6). -/
inductive Result (α : Type) where
  | ok (a : α)
  | sentinel (c : ReasonCode)
  | fault (f : Fault)
  deriving DecidableEq, Repr

/-- A byte store: (index, byte) cells, indices strictly rising, no cell equal to
`Config.unlistedByte` (`memWf` in Ops.lean). -/
abbrev Memory := List Host.Cell

/-- A byte buffer (R33). -/
structure Buffer where
  /-- `B.data`, the byte store. -/
  data : Memory
  /-- `B.len`, 0 to `N - 1`. -/
  len : Nat
  /-- `B.pos`, 0 to `len`. -/
  pos : Nat
  /-- `B.cflag`. -/
  cflag : Bool
  deriving DecidableEq, Repr

/-- A cleared buffer whose store nothing has written (R38, R44). -/
def Buffer.fresh : Buffer := { data := [], len := 0, pos := 0, cflag := false }

/-- The frame snapshot store `SNAP` (R47). -/
structure Snapshot where
  /-- `SNAP.data`. -/
  data : Memory
  /-- `SNAP.len`, 0 to `N - 1`. -/
  len : Nat
  deriving DecidableEq, Repr

/-- `TX.state` (R34). -/
inductive TxState where
  | off
  | idle
  | xmit
  deriving DecidableEq, Repr

/-- `RX.state` (R39). -/
inductive RxState where
  | outOfSync
  | idle
  | data
  | transparentData
  | bcc1
  | bcc2
  | pad
  deriving DecidableEq, Repr

/-- The send engine (R34 to R38). -/
structure TxEngine where
  state : TxState
  /-- `TX.sr`, the shift register. -/
  sr : Byte
  /-- `TX.cnt`, the remaining-bit count. -/
  cnt : BitVec 4
  /-- `TX.stop_on_idle`. -/
  stopOnIdle : Bool
  /-- `TX.q`, the send queue. -/
  q : Buffer
  deriving DecidableEq, Repr

/-- The receive engine (R39 to R46). -/
structure RxEngine where
  state : RxState
  /-- `RX.sr`, the shift register. -/
  sr : Byte
  /-- `RX.cnt`, the bit counter. -/
  cnt : BitVec 8
  /-- `RX.sync`. -/
  sync : Bool
  /-- `RX.dle`, previous-was-DLE. -/
  dle : Bool
  /-- `RX.slot[0]`. -/
  slot0 : Buffer
  /-- `RX.slot[1]`. -/
  slot1 : Buffer
  /-- `RX.act`, the index of the active slot. -/
  act : Bool
  /-- `RX.fc`, frame complete. -/
  fc : Bool
  deriving DecidableEq, Repr

/-- Everything the machine holds. -/
structure State where
  /-- The parameters `N` and `P_TTD_NEXT` (R6, log 3); no step writes them. -/
  params : Params
  /-- `PHASE`, the micro-operation the next tick performs (R31). -/
  phase : BitVec 2
  /-- Pin TXD (R32). -/
  txd : Bool
  /-- Pin RXD, an input; each tick brings the level the line holds then (R32, R283, log 2). -/
  rxd : Bool
  /-- Pin CLK_TX (R32). -/
  clkTx : Bool
  /-- Pin CLK_RX (R32). -/
  clkRx : Bool
  /-- Pin CTS (R32). -/
  cts : Bool
  /-- The send engine. -/
  tx : TxEngine
  /-- The receive engine. -/
  rx : RxEngine
  /-- The snapshot store. -/
  snap : Snapshot
  /-- `RW`, the response to the last command (R116, log 5). -/
  rw : Word
  /-- The model's own: the agents' listed moves, the next one first (R9, log 1). -/
  moves : List Move
  /-- The model's own: how many free moves have been drawn (log 1). -/
  drawn : Nat
  deriving DecidableEq, Repr

/-- The state after reset with the given parameters (R54, R330). RXD, RW, the stale bytes and the
model's own fields have the values of log 2, 5, 4 and 1. -/
def State.resetWith (p : Params) : State :=
  { params := p
    phase := 0
    txd := Config.markLevel
    rxd := Config.markLevel
    clkTx := false
    clkRx := false
    cts := false
    tx := { state := .off, sr := 0x00, cnt := 0, stopOnIdle := false, q := Buffer.fresh }
    rx :=
      { state := .outOfSync, sr := 0xFF, cnt := 0, sync := false, dle := false
        slot0 := Buffer.fresh, slot1 := Buffer.fresh, act := false, fc := false }
    snap := { data := [], len := 0 }
    rw := 0
    moves := []
    drawn := 0 }

/-- The state after reset with the reference parameters (R6, log 3). -/
def State.reset : State := State.resetWith Config.reference

end Sys2Proof.Machine
end

