-- ==== Sys2Proof/Machine/Operands.lean ====
section
/-! DEFINITION. What a command's operand or result refers to: the slot a receive command addresses
(spec/10_state.md R44, R45) and the widening of a result to the 16-bit `VALUE` of a response
(spec/00_scope.md R7). The operands themselves are assembled from `CW` in Decode.lean (R114). -/

namespace Sys2Proof.Machine

/-- `RX.slot[RX.act]`, the active slot (R44). -/
def activeSlot (rx : RxEngine) : Buffer :=
  match rx.act with
  | false => rx.slot0
  | true => rx.slot1

/-- `RX.slot[1 - RX.act]`, the saved slot (R45). -/
def savedSlot (rx : RxEngine) : Buffer :=
  match rx.act with
  | false => rx.slot1
  | true => rx.slot0

/-- The engine with its active slot replaced. -/
def setActiveSlot (rx : RxEngine) (b : Buffer) : RxEngine :=
  match rx.act with
  | false => { rx with slot0 := b }
  | true => { rx with slot1 := b }

/-- `zext_16` of a flag. -/
def zextFlag (f : Bool) : Half := (BitVec.ofBool f).setWidth 16

/-- `zext_16` of a byte. -/
def zextByte (v : Byte) : Half := v.setWidth 16

/-- `zext_16` of a length or count, which is at most `N - 1 <= 65535` in every state that keeps the
invariant (R33, log 14). -/
def zextCount (n : Nat) : Half := BitVec.ofNat 16 n

end Sys2Proof.Machine
end

