-- ==== Sys2Proof/Machine/Ops.lean ====
section
/-! DEFINITION. The named operations over the byte stores (spec/20_memory.md R80 to R88), the buffer
primitives (spec/40_buffer.md R151 to R159), the response (spec/30_encoding.md R116, R117) and the
small register writes every family shares. The block has no trap entry and no return from one (R309,
R310): `respondFail` is how every failure is reported. -/

namespace Sys2Proof.Machine

/-! ### Byte stores -/

/-- The byte at index `i`. -/
def memByte : Memory → Nat → Byte
  | [], _ => Config.unlistedByte
  | (a, v) :: m, i => if a = i then v else memByte m i

/-- `MemWrite(B, i, 1, v)` (R8): the cell at `i` holds `v`; the canonical form is kept. -/
def memWrite : Memory → Nat → Byte → Memory
  | [], i, v => if v = Config.unlistedByte then [] else [(i, v)]
  | (a, w) :: m, i, v =>
    if a < i then (a, w) :: memWrite m i v
    else
      let rest := if a = i then m else (a, w) :: m
      if v = Config.unlistedByte then rest else (i, v) :: rest

/-- `MemRead(B, i, 1)` (R8) on a store of `cap` bytes: index `cap` and above does not exist (R80). -/
def memRead (cap : Nat) (m : Memory) (i : Nat) : Result Byte :=
  if i < cap then .ok (memByte m i) else .fault (.noSuchIndex i)

/-- The canonical form from index `lo` on: indices strictly rise and no cell holds the unlisted byte. -/
def memWfFrom : Nat → Memory → Bool
  | _, [] => true
  | lo, (a, v) :: m => decide (lo ≤ a) && decide (v ≠ Config.unlistedByte) && memWfFrom (a + 1) m

/-- The canonical form of a byte store. -/
def Memory.wf (m : Memory) : Bool := memWfFrom 0 m

/-- Every listed index exists in a store of `cap` bytes. -/
def memWithin (cap : Nat) (m : Memory) : Bool := m.all fun c => decide (c.1 < cap)

/-- The first `n` bytes of `src` copied over `dst`, in rising order. -/
def memCopy (src : Memory) : Nat → Memory → Memory
  | 0, dst => dst
  | n + 1, dst => memWrite (memCopy src n dst) n (memByte src n)

/-! ### Buffer primitives -/

/-- `BufClear(B)` (R151): the store is not changed. -/
def bufClear (b : Buffer) : Buffer := { b with len := 0, pos := 0, cflag := false }

/-- `BufWrite(B, v)` (R152); the length it returns is that of the new buffer. -/
def bufWrite (cap : Nat) (b : Buffer) (v : Byte) : Result Buffer :=
  if cap - 1 ≤ b.len then .sentinel .full
  else .ok { b with data := memWrite b.data b.len v, len := b.len + 1 }

/-- `BufRead(B)` (R153): the byte and the buffer with its cursor moved; the position it returns is that
of the new buffer. -/
def bufRead (cap : Nat) (b : Buffer) : Result (Byte × Buffer) :=
  if b.len ≤ b.pos then .sentinel .empty
  else
    match memRead cap b.data b.pos with
    | .ok v => .ok (v, { b with pos := b.pos + 1 })
    | .sentinel c => .sentinel c
    | .fault f => .fault f

/-- `BufGet(B, i)` (R154). -/
def bufGet (cap : Nat) (b : Buffer) (i : Nat) : Result Byte :=
  if b.len ≤ i then .sentinel .outOfRange else memRead cap b.data i

/-- `BufReadLast(B)` (R155); no rule of the block uses it (R162). -/
def bufReadLast (cap : Nat) (b : Buffer) : Result Byte :=
  if b.len = 0 then .sentinel .empty else memRead cap b.data (b.len - 1)

/-- `BufLen(B)` (R156). -/
def bufLen (b : Buffer) : Nat := b.len

/-- `BufPos(B)` (R156); no rule of the block uses it (R162). -/
def bufPos (b : Buffer) : Nat := b.pos

/-- `BufSetComplete(B)` (R157): a no-op on an empty buffer. -/
def bufSetComplete (b : Buffer) : Buffer := if 0 < b.len then { b with cflag := true } else b

/-- `BufIsComplete(B)` (R158); no rule of the block uses it (R162). -/
def bufIsComplete (b : Buffer) : Bool := b.cflag

/-- `SnapTake(B)` (R159) over the old snapshot: bytes from `B.len` on keep what they held. A length past
the store would read the index `cap` first. -/
def snapTake (cap : Nat) (b : Buffer) (old : Snapshot) : Result Snapshot :=
  if b.len ≤ cap then .ok { data := memCopy b.data b.len old.data, len := b.len }
  else .fault (.noSuchIndex cap)

/-- The byte of the snapshot at index `i` (R161). -/
def snapGet (cap : Nat) (sn : Snapshot) (i : Nat) : Result Byte :=
  if sn.len ≤ i then .sentinel .outOfRange else memRead cap sn.data i

/-! ### Responses -/

/-- The 7-bit reason codes (R117). -/
def reasonBits : ReasonCode → BitVec 7
  | .full => 0x01#7
  | .empty => 0x02#7
  | .outOfRange => 0x03#7
  | .noFrame => 0x04#7
  | .timeout => 0x05#7
  | .illegal => 0x7F#7

/-- The word of `respond OK(v)` (R116). -/
def okWord (v : Half) : Word := 0#1 ++ 0#7 ++ 0#8 ++ v

/-- The word of `respond FAIL(c)` (R116). -/
def failWord (c : ReasonCode) : Word := 1#1 ++ reasonBits c ++ 0#8 ++ 0#16

/-- `respond OK(v)`. -/
def respondOk (v : Half) (s : State) : State := { s with rw := okWord v }

/-- `respond FAIL(c)`: nothing but RW changes (R300). -/
def respondFail (c : ReasonCode) (s : State) : State := { s with rw := failWord c }

/-- The answer of a command that reads one byte by index: the byte, or the sentinel (R161, R245). -/
def respondByte (r : Result Byte) (s : State) : Host.Outcome State Fault Refusal :=
  match r with
  | .ok v => .next (respondOk (zextByte v) s)
  | .sentinel c => .next (respondFail c s)
  | .fault f => .fault f

/-- The answer to an ill-formed command word (R113). -/
def answerIllegal (s : State) : State := respondFail .illegal s

/-! ### Pins and phase -/

/-- TXD driven to a level (R32). -/
def driveTxd (level : Bool) (s : State) : State := { s with txd := level }

/-- CTS driven to a level (R32). -/
def driveCts (level : Bool) (s : State) : State := { s with cts := level }

/-- Both clock pins driven together (R32). -/
def driveClocks (level : Bool) (s : State) : State := { s with clkTx := level, clkRx := level }

/-- `PHASE <- (PHASE + 1) mod 4`, the end of every tick (R31, R280). -/
def advancePhase (s : State) : State := { s with phase := s.phase + 1#2 }

/-! ### The agents' next move (R9, log 1) -/

/-- The move that comes next and the state with it taken: the first listed move, or a free one. -/
def takeMove (s : State) : Move × State :=
  match s.moves with
  | m :: rest => (m, { s with moves := rest })
  | [] => (Config.freeMove s.drawn, { s with drawn := s.drawn + 1 })

/-- The state with a move placed before all others. -/
def offerMove (m : Move) (s : State) : State := { s with moves := m :: s.moves }

/-- The level the line puts on RXD in this step (R32, R283). -/
def lineSets (level : Bool) (s : State) : State := { s with rxd := level }

end Sys2Proof.Machine
end

