-- ==== Sys2Proof/Machine/Flags.lean ====
section
/-! DEFINITION. The flags' host-visible form: the state codes (spec/30_encoding.md R124, R125) and the
two status words (spec/10_state.md R48, R49). The flags themselves are written by the operations
R51 lists, in SendEngine.lean and ReceiveEngine.lean. -/

namespace Sys2Proof.Machine

/-- `TXS` (R124); 3 is never reported. -/
def txCode : TxState → BitVec 2
  | .off => 0#2
  | .idle => 1#2
  | .xmit => 2#2

/-- `RXS` (R125); 7 is never reported. -/
def rxCode : RxState → BitVec 3
  | .outOfSync => 0#3
  | .idle => 1#3
  | .data => 2#3
  | .transparentData => 3#3
  | .bcc1 => 4#3
  | .bcc2 => 5#3
  | .pad => 6#3

/-- `TXSTAT` (R48): bits 15 to 8 are 0, then TX_CNT, TXD, STOP_PEND, TXS. -/
def txStat (s : State) : Half :=
  0#8 ++ s.tx.cnt ++ BitVec.ofBool s.txd ++ BitVec.ofBool s.tx.stopOnIdle ++ txCode s.tx.state

/-- `RXSTAT` (R49): bits 15 to 8 are 0, then ACT, CTS, FC, DLE, SYNC, RXS. -/
def rxStat (s : State) : Half :=
  0#8 ++ BitVec.ofBool s.rx.act ++ BitVec.ofBool s.cts ++ BitVec.ofBool s.rx.fc
    ++ BitVec.ofBool s.rx.dle ++ BitVec.ofBool s.rx.sync ++ rxCode s.rx.state

end Sys2Proof.Machine
end

