-- ==== Sys2Proof/Machine/ReceiveEngine.lean ====
section
/-! DEFINITION. The receive engine (spec/42_receive_engine.md): `getBit`, `processBit`, the byte
evaluation, and the seven RX commands. -/

namespace Sys2Proof.Machine

/-- `getBit(bit)` (R221): the newest bit enters bit 7. -/
def getBit (bit : Bool) (rx : RxEngine) : RxEngine :=
  { rx with sr := BitVec.cons bit (rx.sr.extractLsb' 1 7), cnt := rx.cnt + 1#8 }

/-- `RxAppend(v)` (R225): a byte for a full slot is dropped. -/
def rxAppend (cap : Nat) (v : Byte) (rx : RxEngine) : RxEngine :=
  match bufWrite cap (activeSlot rx) v with
  | .ok b => setActiveSlot rx b
  | .sentinel _ | .fault _ => rx

/-- `MarkFrameComplete()` (R226): the active slot becomes the saved one, the other is emptied. -/
def markFrameComplete (rx : RxEngine) : RxEngine :=
  let saved := setActiveSlot rx (bufSetComplete (activeSlot rx))
  let swapped := { saved with act := !saved.act }
  { setActiveSlot swapped (bufClear (activeSlot swapped)) with fc := true }

/-- `RX.state <- st`. -/
def rxGoto (st : RxState) (rx : RxEngine) : RxEngine := { rx with state := st }

/-- `RX.dle <- f`. -/
def rxSetDle (f : Bool) (rx : RxEngine) : RxEngine := { rx with dle := f }

/-- The state `P_TTD_NEXT` names (R6). -/
def ttdState : TtdNext → RxState
  | .idle => .idle
  | .transparentData => .transparentData

/-- The evaluation of a byte in `PAD` (R227). -/
def evalPad (p : Params) (b : Byte) (rx : RxEngine) : RxEngine :=
  rxGoto .idle (markFrameComplete (rxAppend p.cap b rx))

/-- The evaluation of a byte in `BCC1` (R228). -/
def evalBcc1 (p : Params) (b : Byte) (rx : RxEngine) : RxEngine :=
  rxGoto .bcc2 (rxAppend p.cap b rx)

/-- The evaluation of a byte in `BCC2` (R229). -/
def evalBcc2 (p : Params) (b : Byte) (rx : RxEngine) : RxEngine :=
  rxGoto .pad (rxAppend p.cap b rx)

/-- The evaluation of a byte in `IDLE` (R230); the first condition that holds is taken. -/
def evalIdle (p : Params) (b : Byte) (rx : RxEngine) : RxEngine :=
  if b = Config.syn then
    rxSetDle false (if bufLen (activeSlot rx) = 0 then rxAppend p.cap Config.syn rx else rx)
  else if b = Config.dle then rxSetDle true rx
  else if rx.dle = true ∧ b = Config.stx then
    rxSetDle false (rxGoto .transparentData
      (rxAppend p.cap Config.stx (rxAppend p.cap Config.dle rx)))
  else if rx.dle = true ∧ (b = Config.ack0 ∨ b = Config.ack1) then
    rxSetDle false (markFrameComplete (rxAppend p.cap b (rxAppend p.cap Config.dle rx)))
  else if b = Config.stx ∨ b = Config.soh then
    rxSetDle false (rxGoto .data (rxAppend p.cap b rx))
  else if b = Config.eot ∨ b = Config.nak then
    rxSetDle false (markFrameComplete (rxAppend p.cap b rx))
  else rxSetDle false rx

/-- The evaluation of a byte in `DATA` (R231); the first condition that holds is taken. -/
def evalData (p : Params) (b : Byte) (rx : RxEngine) : RxEngine :=
  if b = Config.syn then rxSetDle false rx
  else if b = Config.dle then rxSetDle true rx
  else if rx.dle = true ∧ b = Config.stx then
    rxSetDle false (rxGoto .transparentData
      (rxAppend p.cap Config.stx (rxAppend p.cap Config.dle rx)))
  else if b = Config.stx ∨ b = Config.soh then rxSetDle false (rxAppend p.cap b rx)
  else if b = Config.etb ∨ b = Config.etx then
    rxSetDle false (rxGoto .bcc1 (rxAppend p.cap b rx))
  else rxSetDle false (rxAppend p.cap b rx)

/-- The evaluation of a byte in `TRANSPARENT_DATA` (R232); the first condition that holds is taken. -/
def evalTransparent (p : Params) (b : Byte) (rx : RxEngine) : RxEngine :=
  if rx.dle = false then
    if b = Config.dle then rxSetDle true rx else rxAppend p.cap b rx
  else if b = Config.dle then rxSetDle false (rxAppend p.cap Config.dle rx)
  else if b = Config.enq then
    rxSetDle false (rxGoto (ttdState p.ttdNext)
      (markFrameComplete (rxAppend p.cap Config.enq (rxAppend p.cap Config.dle rx))))
  else if b = Config.itb ∨ b = Config.etx ∨ b = Config.etb then
    rxSetDle false (rxGoto .bcc1 (rxAppend p.cap b (rxAppend p.cap Config.dle rx)))
  else rxSetDle false (rxAppend p.cap b rx)

/-- `ProcessByte(b)` (R224): by the state's rule. No byte is evaluated in `OUT_OF_SYNC` (R261). -/
def processByte (p : Params) (b : Byte) (rx : RxEngine) : RxEngine :=
  match rx.state with
  | .outOfSync => rx
  | .idle => evalIdle p b rx
  | .data => evalData p b rx
  | .transparentData => evalTransparent p b rx
  | .bcc1 => evalBcc1 p b rx
  | .bcc2 => evalBcc2 p b rx
  | .pad => evalPad p b rx

/-- The sync hunt after a bit (R222, R223). -/
def huntSync (p : Params) (rx : RxEngine) : RxEngine :=
  if rx.sr = Config.syn then
    { rxAppend p.cap Config.syn rx with cnt := 0#8, sync := true, state := .idle }
  else rx

/-- `processBit()` (R222): the sync hunt, or a byte at every eighth bit. -/
def processBit (p : Params) (rx : RxEngine) : RxEngine :=
  match rx.state with
  | .outOfSync => huntSync p rx
  | .idle | .data | .transparentData | .bcc1 | .bcc2 | .pad =>
    if rx.cnt = 8#8 then processByte p rx.sr { rx with cnt := 0#8 } else rx

/-- Phase 2 on the receive engine: one sampled bit taken and processed (R283). -/
def rxSample (p : Params) (bit : Bool) (rx : RxEngine) : RxEngine :=
  processBit p (getBit bit rx)

/-- RX_START (R240). -/
def execRxStart (s : State) : Host.Outcome State Fault Refusal :=
  .next (respondOk 0 { driveCts true s with rx := { s.rx with sync := false, state := .outOfSync } })

/-- RX_STOP (R241). -/
def execRxStop (s : State) : Host.Outcome State Fault Refusal :=
  .next (respondOk 0 (driveCts false s))

/-- RX_GET_SAVED (R242): consume-once, one atomic step (R95). -/
def execRxGetSaved (s : State) : Host.Outcome State Fault Refusal :=
  if s.rx.fc = false then .next (respondFail .noFrame s)
  else
    match snapTake s.params.cap (savedSlot s.rx) s.snap with
    | .ok sn =>
      .next (respondOk (zextCount sn.len) { s with snap := sn, rx := { s.rx with fc := false } })
    | .sentinel c => .next (respondFail c s)
    | .fault f => .fault f

/-- RX_FRAME_COMPLETE (R243). -/
def execRxFrameComplete (s : State) : Host.Outcome State Fault Refusal :=
  .next (respondOk (zextFlag s.rx.fc) s)

/-- RX_FRAME_LEN (R244): the length of the active slot. -/
def execRxFrameLen (s : State) : Host.Outcome State Fault Refusal :=
  .next (respondOk (zextCount (bufLen (activeSlot s.rx))) s)

/-- RX_FRAME_BYTE i (R245): a byte of the active slot. -/
def execRxFrameByte (i : Nat) (s : State) : Host.Outcome State Fault Refusal :=
  respondByte (bufGet s.params.cap (activeSlot s.rx) i) s

/-- RX_STATE (R246). -/
def execRxState (s : State) : Host.Outcome State Fault Refusal :=
  .next (respondOk (rxStat s) s)

end Sys2Proof.Machine
end

