-- ==== Sys2Proof/Machine/SendEngine.lean ====
section
/-! DEFINITION. The send engine (spec/41_send_engine.md): `sendBit` and the seven TX commands. -/

namespace Sys2Proof.Machine

/-- A byte loaded for sending: eight bits remain (R181, step 2). -/
def txLoad (v : Byte) (st : TxState) (s : State) : State :=
  { s with tx := { s.tx with sr := v, cnt := 8#4, state := st } }

/-- One bit driven and shifted out (R181, steps 3 and 4). -/
def txShiftOut (s : State) : State :=
  { s with
    txd := s.tx.sr.getLsbD 0
    tx := { s.tx with sr := s.tx.sr >>> 1, cnt := s.tx.cnt - 1#4 } }

/-- The fetch when no bit remains, with the bit driven after it (R181, step 2): a queued byte, the SYN
idle fill (R183), or the deferred stop, which shifts no bit (R184). -/
def txFetch (s : State) : Result State :=
  match bufRead s.params.cap s.tx.q with
  | .ok (v, q) => .ok (txShiftOut (txLoad v .xmit { s with tx := { s.tx with q := q } }))
  | .sentinel _ =>
    if s.tx.stopOnIdle then .ok (driveTxd Config.markLevel (txLoad Config.syn .off s))
    else .ok (txShiftOut (txLoad Config.syn .idle s))
  | .fault f => .fault f

/-- `sendBit()` (R181). -/
def sendBit (s : State) : Result State :=
  match s.tx.state with
  | .off => .ok s
  | .idle | .xmit => if s.tx.cnt = 0#4 then txFetch s else .ok (txShiftOut s)

/-- TX_CLEAR (R187). -/
def execTxClear (s : State) : Host.Outcome State Fault Refusal :=
  .next (respondOk 0 (driveTxd Config.markLevel
    { s with tx := { s.tx with q := bufClear s.tx.q, cnt := 0#4, state := .off, stopOnIdle := false } }))

/-- TX_ADD b (R188). -/
def execTxAdd (b : Byte) (s : State) : Host.Outcome State Fault Refusal :=
  match bufWrite s.params.cap s.tx.q b with
  | .ok q => .next (respondOk (zextCount q.len) { s with tx := { s.tx with q := q } })
  | .sentinel c => .next (respondFail c s)
  | .fault f => .fault f

/-- TX_START (R189). -/
def execTxStart (s : State) : Host.Outcome State Fault Refusal :=
  .next (respondOk 0 { s with tx := { s.tx with state := .xmit, stopOnIdle := false } })

/-- TX_STOP (R190). -/
def execTxStop (s : State) : Host.Outcome State Fault Refusal :=
  .next (respondOk 0 (driveTxd Config.markLevel { s with tx := { s.tx with state := .off } }))

/-- TX_STOP_ON_IDLE (R191). -/
def execTxStopOnIdle (s : State) : Host.Outcome State Fault Refusal :=
  .next (respondOk 0 { s with tx := { s.tx with stopOnIdle := true } })

/-- TX_REMAINING (R192): the queued bytes not yet fetched. -/
def execTxRemaining (s : State) : Host.Outcome State Fault Refusal :=
  .next (respondOk (zextCount (s.tx.q.len - s.tx.q.pos)) s)

/-- TX_STATE (R193). -/
def execTxState (s : State) : Host.Outcome State Fault Refusal :=
  .next (respondOk (txStat s) s)

end Sys2Proof.Machine
end

