-- ==== Sys2Proof/Machine/Sequencer.lean ====
section
/-! DEFINITION. The clock sequencer (spec/43_sequencer.md): each meaning is one whole tick, the
micro-operation and then the advance of PHASE (R280, log 9). -/

namespace Sys2Proof.Machine

/-- PH0_SEND_BIT (R281). -/
def execPh0SendBit (s : State) : Host.Outcome State Fault Refusal :=
  match sendBit s with
  | .ok t => .next (advancePhase t)
  | .sentinel _ => .next (advancePhase s)
  | .fault f => .fault f

/-- PH1_CLK_RISE (R282). -/
def execPh1ClkRise (s : State) : Host.Outcome State Fault Refusal :=
  .next (advancePhase (driveClocks true s))

/-- PH2_RX_SAMPLE (R283): the level of RXD at this step is taken and processed. -/
def execPh2RxSample (s : State) : Host.Outcome State Fault Refusal :=
  .next (advancePhase { s with rx := rxSample s.params s.rxd s.rx })

/-- PH3_CLK_FALL (R284). -/
def execPh3ClkFall (s : State) : Host.Outcome State Fault Refusal :=
  .next (advancePhase (driveClocks false s))

end Sys2Proof.Machine
end

