-- ==== Sys2Proof/Machine/SnapshotReads.lean ====
section
/-! DEFINITION. The two snapshot commands (spec/40_buffer.md R160, R161). -/

namespace Sys2Proof.Machine

/-- SNAP_LEN (R160). -/
def execSnapLen (s : State) : Host.Outcome State Fault Refusal :=
  .next (respondOk (zextCount s.snap.len) s)

/-- SNAP_BYTE i (R161). -/
def execSnapByte (i : Nat) (s : State) : Host.Outcome State Fault Refusal :=
  respondByte (snapGet s.params.cap s.snap i) s

end Sys2Proof.Machine
end

