-- ==== Sys2Proof/Machine/Dispatch.lean ====
section
/-! DEFINITION. Which meaning each instruction has: one arm per row of spec/opcode_table.json. -/

namespace Sys2Proof.Machine

def exec (i : Instr) (s : State) : Host.Outcome State Fault Refusal :=
  match i with
  | .txClear => Sys2Proof.Machine.execTxClear s
  | .txAdd b => Sys2Proof.Machine.execTxAdd b s
  | .txStart => Sys2Proof.Machine.execTxStart s
  | .txStop => Sys2Proof.Machine.execTxStop s
  | .txStopOnIdle => Sys2Proof.Machine.execTxStopOnIdle s
  | .txRemaining => Sys2Proof.Machine.execTxRemaining s
  | .txState => Sys2Proof.Machine.execTxState s
  | .rxStart => Sys2Proof.Machine.execRxStart s
  | .rxStop => Sys2Proof.Machine.execRxStop s
  | .rxGetSaved => Sys2Proof.Machine.execRxGetSaved s
  | .rxFrameComplete => Sys2Proof.Machine.execRxFrameComplete s
  | .rxFrameLen => Sys2Proof.Machine.execRxFrameLen s
  | .rxFrameByte idx => Sys2Proof.Machine.execRxFrameByte idx s
  | .rxState => Sys2Proof.Machine.execRxState s
  | .snapLen => Sys2Proof.Machine.execSnapLen s
  | .snapByte idx => Sys2Proof.Machine.execSnapByte idx s
  | .ph0SendBit => Sys2Proof.Machine.execPh0SendBit s
  | .ph1ClkRise => Sys2Proof.Machine.execPh1ClkRise s
  | .ph2RxSample => Sys2Proof.Machine.execPh2RxSample s
  | .ph3ClkFall => Sys2Proof.Machine.execPh3ClkFall s

end Sys2Proof.Machine
end

