-- ==== Sys2Proof/Machine/Step.lean ====
section
/-! DEFINITION. One step: the next move of the agents, a command or a tick (spec/00_scope.md R9). -/

namespace Sys2Proof.Machine

/-- One step of the block. A command word is decoded and performed, or answered ILLEGAL (R112, R113,
R118); a tick performs the micro-operation PHASE selects (R280). -/
def step (s : State) : Host.Outcome State Fault Refusal :=
  match takeMove s with
  | (.command cw, t) =>
    match decode (.command cw) with
    | .ok i => exec i t
    | .error _ => .next (answerIllegal t)
  | (.tick level, t) => exec (decodePhase t.phase) (lineSets level t)

/-- The state whose next step runs the instruction whose bits are `w`: up to 8 bits, PHASE is set and a
tick is placed with RXD as it is; otherwise the command word is placed (log 8). -/
def State.withFetchWord (s : State) (nbits w : Nat) : State :=
  if nbits ≤ 8 then offerMove (.tick s.rxd) { s with phase := BitVec.ofNat 2 w }
  else offerMove (.command (BitVec.ofNat 32 w)) s

end Sys2Proof.Machine
end

