-- ==== Sys2Proof/Machine/Run.lean ====
section
/-! DEFINITION. Runs of the block under a list of the agents' moves (spec/00_scope.md R9, R11). -/

namespace Sys2Proof.Machine

/-- The run that performs the given moves in order, one step each, and then stops (R11, R358). -/
def runMoves : List Move → State → Host.Outcome State Fault Refusal
  | [], s => .next s
  | m :: ms, s =>
    match step (offerMove m s) with
    | .next t => runMoves ms t
    | .fault f => .fault f
    | .refused r => .refused r

/-- `n` phase-0 micro-operations in a row with no host command between them, what the send engine sees
of `n` cycles (R182). -/
def sendBits : Nat → State → Result State
  | 0, s => .ok s
  | n + 1, s =>
    match sendBit s with
    | .ok t => sendBits n t
    | .sentinel c => .sentinel c
    | .fault f => .fault f

/-- The levels TXD shows after each of `n` phase-0 micro-operations (R194). -/
def txdTrace : Nat → State → List Bool
  | 0, _ => []
  | n + 1, s =>
    match sendBit s with
    | .ok t => t.txd :: txdTrace n t
    | .sentinel _ | .fault _ => []

/-- The receive engine after the sampled bits, first one first: one phase 2 each (R250, R251). -/
def rxSamples (p : Params) : List Bool → RxEngine → RxEngine
  | [], rx => rx
  | b :: bs, rx => rxSamples p bs (rxSample p b rx)

/-- The receive engine after the evaluation of whole bytes, first one first (R224). -/
def rxBytes (p : Params) : List Byte → RxEngine → RxEngine
  | [], rx => rx
  | b :: bs, rx => rxBytes p bs (processByte p b rx)

/-- The bits of a byte in wire order, bit 0 first (R82, R83). -/
def wireBits (v : Byte) : List Bool :=
  [v.getLsbD 0, v.getLsbD 1, v.getLsbD 2, v.getLsbD 3,
   v.getLsbD 4, v.getLsbD 5, v.getLsbD 6, v.getLsbD 7]

/-- The contents of a buffer, `B.data[0 .. len-1]` (R33). -/
def bufContents (b : Buffer) : List Byte := (List.range b.len).map (memByte b.data)

/-- The queued bytes not yet fetched, `TX.q.data[pos .. len-1]` (R192). -/
def bufPending (b : Buffer) : List Byte := (bufContents b).drop b.pos

end Sys2Proof.Machine
end

