-- ==== Sys2Proof/Machine/Pseudo.lean ====
section
/-! DEFINITION. The host side: assembly text (spec/30_encoding.md R128) and the pseudo-operations (R129;
spec/41_send_engine.md R196; spec/42_receive_engine.md R262). They are sequences of ordinary commands
over `step`; the block sees only the commands (R313, log 13). Two points are marked where they are settled: what follows a failed response within a
macro (log 15), and a poll of WAIT_FRAME at exactly `t` (log 16). -/

namespace Sys2Proof.Machine

/-- A hexadecimal digit. -/
def hexDigit (n : Nat) : String := ((String.toList "0123456789ABCDEF").getD n '0').toString

/-- The assembly text of a command (R128): `MNEMONIC`, `MNEMONIC 0xHH` or `MNEMONIC i`. -/
def asmText (i : Instr) : String :=
  match i with
  | .txAdd b => i.mnemonic ++ " 0x" ++ hexDigit (b.toNat / 16) ++ hexDigit (b.toNat % 16)
  | .rxFrameByte n => i.mnemonic ++ " " ++ toString n
  | .snapByte n => i.mnemonic ++ " " ++ toString n
  | .txClear | .txStart | .txStop | .txStopOnIdle | .txRemaining | .txState
  | .rxStart | .rxStop | .rxGetSaved | .rxFrameComplete | .rxFrameLen | .rxState
  | .snapLen | .ph0SendBit | .ph1ClkRise | .ph2RxSample | .ph3ClkFall => i.mnemonic

/-- The moves by which the host issues a list of commands, one after another (R118). A phase is no
command and the host cannot issue it (R312). -/
def hostMoves : List Instr → List Move
  | [] => []
  | i :: is =>
    match encode i with
    | .command cw => .command cw :: hostMoves is
    | .phase _ => hostMoves is

/-- `TICKS n` (R128): ticks with the levels RXD has at them, one per tick. -/
def tickMoves (levels : List Bool) : List Move := levels.map .tick

/-- The commands of `SEND_FRAME b0, ..., bk` before its `WAIT_SEND_IDLE` (R129), as they are issued when
no `TX_ADD` answers FULL. `runSendFrame` is the whole of it, with its responses read. -/
def sendFrame (bytes : List Byte) : List Instr :=
  .txClear :: bytes.map .txAdd ++ [.txStart, .txStopOnIdle]

/-- `SNAP_BYTE 0` to `SNAP_BYTE n-1` (R129). -/
def snapReads (n : Nat) : List Instr := (List.range n).map .snapByte

/-- The commands of `READ_FRAME` when `RX_GET_SAVED` answers length `n` (R129). `runReadFrame` takes `n`
from that answer. -/
def readFrame (n : Nat) : List Instr := .rxGetSaved :: snapReads n

/-- How a polling loop stands after the polls that were made. -/
inductive Waited (α : Type) where
  /-- The loop returned this result; the block is in this state. -/
  | returned (result : α) (s : State)
  /-- The loop is still polling; the block is in this state. -/
  | polling (s : State)
  deriving Repr

/-- The same standing of a loop, with another result. -/
def Waited.withResult {α β : Type} (result : β) : Waited α → Waited β
  | .returned _ s => .returned result s
  | .polling s => .polling s

/-- What follows a next state; a fault or a refusal stays. -/
def outcomeThen {α β : Type} (o : Host.Outcome α Fault Refusal)
    (f : α → Host.Outcome β Fault Refusal) : Host.Outcome β Fault Refusal :=
  match o with
  | .next a => f a
  | .fault r => .fault r
  | .refused r => .refused r

/-- The moves that happen before it, then one command, whose response is in RW. -/
def issueAfter (gap : List Move) (i : Instr) (s : State) : Host.Outcome State Fault Refusal :=
  runMoves (gap ++ hostMoves [i]) s

/-- `VALUE` of a response (R116). -/
def valueField (rw : Word) : Half := rw.extractLsb' 0 16

/-- `FAIL` of a response (R116). -/
def failField (rw : Word) : Bool := rw.getLsbD 31

/-- The test of `WAIT_SEND_IDLE`: `VALUE[1:0]` is OFF or IDLE (R196). -/
def sendIdleSeen (rw : Word) : Bool :=
  decide (rw.extractLsb' 0 2 = txCode .off) || decide (rw.extractLsb' 0 2 = txCode .idle)

/-- The test of `WAIT_FRAME`: `VALUE = 1` (R262). -/
def frameSeen (rw : Word) : Bool := decide (valueField rw = 1)

/-- `WAIT_SEND_IDLE` (R196), with the moves (ticks) that happen before each of its polls. It has no
timeout: with no further poll it is still waiting. -/
def waitSendIdle : List (List Move) → State → Host.Outcome (Waited Unit) Fault Refusal
  | [], s => .next (.polling s)
  | gap :: gaps, s =>
    match issueAfter gap .txState s with
    | .next t => if sendIdleSeen t.rw then .next (.returned () t) else waitSendIdle gaps t
    | .fault f => .fault f
    | .refused r => .refused r

/-- `WAIT_FRAME t` (R262). Each poll comes with the moves before it and the elapsed milliseconds the
host's clock shows at it, which are the host's to draw (93 IMP6). The result is the elapsed time, or
the host-side TIMEOUT.

DEDUCED (log 16): a poll at exactly `t` without a frame is a TIMEOUT. R262's pseudocode ends the wait at
`e >= t`, R129's table where the elapsed time "exceeds `t`"; the model takes R262, to which that
table's row refers for the semantics. -/
def waitFrame (t : Nat) : List (List Move × Nat) → State →
    Host.Outcome (Waited (Except ReasonCode Nat)) Fault Refusal
  | [], s => .next (.polling s)
  | (gap, elapsed) :: polls, s =>
    match issueAfter gap .rxFrameComplete s with
    | .next u =>
      if frameSeen u.rw then .next (.returned (.ok elapsed) u)
      else if t ≤ elapsed then .next (.returned (.error .timeout) u)
      else waitFrame t polls u
    | .fault f => .fault f
    | .refused r => .refused r

/-- What a list of issued commands gave. -/
structure Issued where
  /-- The `VALUE`s of the responses without FAIL, in order. -/
  values : List Half
  /-- The response with FAIL that ended the list, if one did. -/
  failure : Option Word
  /-- The block after the last command that was issued. -/
  state : State
  deriving DecidableEq, Repr

/-- The host issues commands one after another and reads each response, and issues none after a response
with FAIL ("stop adding", R188, R334). Before the `k`-th command of its program there are ticks, with the
levels `ticks k`: the host chooses none of them (R9). -/
def issue (ticks : Nat → List Bool) : Nat → List Instr → State → Host.Outcome Issued Fault Refusal
  | _, [], s => .next { values := [], failure := none, state := s }
  | k, i :: is, s =>
    outcomeThen (issueAfter (tickMoves (ticks k)) i s) fun t =>
      if failField t.rw then .next { values := [], failure := some t.rw, state := t }
      else outcomeThen (issue ticks (k + 1) is t) fun r =>
        .next { r with values := valueField t.rw :: r.values }

/-- What the host does with a frame it stopped adding at FULL. DESIGN CHOICE (log 15): no rule says, so
both are there and `runSendFrame` takes which as an argument. -/
inductive AfterFull where
  /-- It ends SEND_FRAME there: no TX_START, no further command. -/
  | giveUp
  /-- It goes on to TX_START, which sends the bytes that were queued. -/
  | start
  deriving DecidableEq, Repr

/-- `SEND_FRAME b0, ..., bk` (R129, R334): TX_CLEAR and one TX_ADD per byte, up to the first that answers
FULL; TX_START and TX_STOP_ON_IDLE; then WAIT_SEND_IDLE, with the ticks before each of its polls. The
result is that FULL, if there was one. What follows a FULL is open (log 15). -/
def runSendFrame (afterFull : AfterFull) (ticks : Nat → List Bool) (polls : List (List Bool))
    (bytes : List Byte) (s : State) : Host.Outcome (Waited (Option Word)) Fault Refusal :=
  outcomeThen (issue ticks 0 (.txClear :: bytes.map .txAdd) s) fun queued =>
    if queued.failure ≠ none ∧ afterFull = .giveUp then
      .next (.returned queued.failure queued.state)
    else
      outcomeThen (issue ticks (bytes.length + 1) [.txStart, .txStopOnIdle] queued.state) fun started =>
        outcomeThen (waitSendIdle (polls.map tickMoves) started.state) fun w =>
          .next (w.withResult queued.failure)

/-- `READ_FRAME` (R129, R335): RX_GET_SAVED gives `n`, the `VALUE` of its response, and then SNAP_BYTE 0
to SNAP_BYTE n-1 give the bytes. After NO_FRAME there is no `n`: no SNAP_BYTE is issued, and the result is
that failure (DEDUCED, log 15). -/
def runReadFrame (ticks : Nat → List Bool) (s : State) : Host.Outcome Issued Fault Refusal :=
  outcomeThen (issue ticks 0 [.rxGetSaved] s) fun taken =>
    match taken.values with
    | n :: _ => issue ticks 1 (snapReads n.toNat) taken.state
    | [] => .next taken

end Sys2Proof.Machine
end

