-- ==== Sys2Proof/Safety.lean ====
section
/-! DEFINITION. What a good state is: the invariants of spec/10_state.md R33 and R53, with the ranges the
state file gives, and what a safe run is (spec/00_scope.md R11). -/

namespace Sys2Proof.Machine

/-- A buffer of capacity `cap` (R33): `0 <= pos <= len <= N - 1`, and a store in canonical form whose
indices exist. -/
def Buffer.wf (cap : Nat) (b : Buffer) : Bool :=
  decide (b.pos ≤ b.len) && decide (b.len ≤ cap - 1) && b.data.wf && memWithin cap b.data

/-- The snapshot store (R47). -/
def Snapshot.wf (cap : Nat) (sn : Snapshot) : Bool :=
  decide (sn.len ≤ cap - 1) && sn.data.wf && memWithin cap sn.data

/-- The send engine and TXD: R53 invariants 1 and 6, and a sound queue. -/
def txInv (cap : Nat) (tx : TxEngine) (txd : Bool) : Bool :=
  (decide (tx.state ≠ .off) || decide (txd = Config.markLevel))
    && decide (tx.cnt.toNat ≤ 8) && tx.q.wf cap

/-- R53 invariant 5: in DATA the active slot is not empty, and in TRANSPARENT_DATA too unless a DLE ENQ
may leave the engine there. -/
def activeNotEmpty (p : Params) (rx : RxEngine) : Bool :=
  match rx.state with
  | .data => decide (0 < (activeSlot rx).len)
  | .transparentData => decide (p.ttdNext = .transparentData) || decide (0 < (activeSlot rx).len)
  | .outOfSync | .idle | .bcc1 | .bcc2 | .pad => true

/-- The receive engine: R53 invariants 2, 3 and 5, the bit counter below 8 between steps in the
synchronised states (R41), sound slots, and a completed frame in the saved slot whenever `RX.fc` is
set (R226: the completed slot is not empty and its flag is set). -/
def rxInv (p : Params) (rx : RxEngine) : Bool :=
  (rx.sync == decide (rx.state ≠ .outOfSync))
    && (decide (rx.state ≠ .bcc1 ∧ rx.state ≠ .bcc2 ∧ rx.state ≠ .pad) || !rx.dle)
    && activeNotEmpty p rx
    && (decide (rx.state = .outOfSync) || decide (rx.cnt.toNat < 8))
    && rx.slot0.wf p.cap && rx.slot1.wf p.cap
    && (!rx.fc || (decide (0 < (savedSlot rx).len) && (savedSlot rx).cflag))

/-- R53 invariants 4 and 7: both clocks at one level, high exactly in phases 2 and 3. -/
def clockInv (s : State) : Bool :=
  (s.clkTx == s.clkRx) && (s.clkTx == (decide (s.phase = 2#2) || decide (s.phase = 3#2)))

/-- The invariant of every reachable state, with legal parameters (R6). -/
def State.inv (s : State) : Bool :=
  s.params.wf && txInv s.params.cap s.tx s.txd && rxInv s.params s.rx
    && s.snap.wf s.params.cap && clockInv s

/-- A safe step: neither a fault nor a refusal (R11, R300). -/
def Goes (o : Host.Outcome State Fault Refusal) : Prop := ∃ t, o = .next t

/-- The states a run from reset with parameters `p` reaches, under some listed moves and every free one
(R9, R11). -/
inductive Reachable (p : Params) : State → Prop where
  | reset (ms : List Move) : Reachable p { State.resetWith p with moves := ms }
  | step (s t : State) : Reachable p s → Sys2Proof.Machine.step s = .next t → Reachable p t

end Sys2Proof.Machine
end

