-- ==== Sys2Proof/Certificates/Slice0/Obligations.lean ====
section
/-! DEFINITION. The statements for the provers, and the few definitions they are written with. -/

open Sys2Proof Sys2Proof.Machine

namespace Sys2Proof.Claims

/-- The reserved opcode values R126 lists: 0x00, 0x08 to 0x0F, 0x17 to 0x1F, 0x22 to 0xFF. -/
def reservedOp (op : Nat) : Prop :=
  op = 0x00 ∨ (0x08 ≤ op ∧ op ≤ 0x0F) ∨ (0x17 ≤ op ∧ op ≤ 0x1F) ∨ 0x22 ≤ op

/-- Operand bits that the class of a legal opcode does not use are not 0 (R112, R115): all sixteen bits
in class `NONE`, `CW[15:8]` in class `BYTE` (0x02), none in class `INDEX` (0x15, 0x21). -/
def strayBits (op arg : Nat) : Prop :=
  if op = 0x02 then arg / 256 ≠ 0 else if op = 0x15 ∨ op = 0x21 then False else arg ≠ 0

/-- A bit shifted into bit 7, the others moved one place toward bit 0 (R40, R221). -/
def shiftedIn (bit : Bool) (sr : Byte) : Byte :=
  BitVec.ofNat 8 (sr.toNat / 2 + if bit then 128 else 0)

/-- One row of the byte-evaluation table of R234. -/
structure EvalRow where
  /-- Column "state". -/
  state : RxState
  /-- Column "dle"; `none` is "any". -/
  dle : Option Bool
  /-- Column "byte"; `none` is "other" or "any byte". -/
  bytes : Option (List Byte)
  /-- Column "appended", in order. -/
  appended : List Byte
  /-- Column "done". -/
  done : Bool
  /-- Column "next state". -/
  next : RxState
  /-- Column "next dle". -/
  nextDle : Bool

/-- The table of R234, for a byte `b` and the active slot's length `len`, rows in its order. -/
def evalTable (p : Params) (len : Nat) (b : Byte) : List EvalRow :=
  [ ⟨.idle, none, some [0x32], if len = 0 then [0x32] else [], false, .idle, false⟩,
    ⟨.idle, none, some [0x10], [], false, .idle, true⟩,
    ⟨.idle, some true, some [0x02], [0x10, 0x02], false, .transparentData, false⟩,
    ⟨.idle, some true, some [0x70, 0x61], [0x10, b], true, .idle, false⟩,
    ⟨.idle, none, some [0x02, 0x01], [b], false, .data, false⟩,
    ⟨.idle, none, some [0x37, 0x3D], [b], true, .idle, false⟩,
    ⟨.idle, none, none, [], false, .idle, false⟩,
    ⟨.data, none, some [0x32], [], false, .data, false⟩,
    ⟨.data, none, some [0x10], [], false, .data, true⟩,
    ⟨.data, some true, some [0x02], [0x10, 0x02], false, .transparentData, false⟩,
    ⟨.data, none, some [0x02, 0x01], [b], false, .data, false⟩,
    ⟨.data, none, some [0x26, 0x03], [b], false, .bcc1, false⟩,
    ⟨.data, none, none, [b], false, .data, false⟩,
    ⟨.transparentData, some false, some [0x10], [], false, .transparentData, true⟩,
    ⟨.transparentData, some false, none, [b], false, .transparentData, false⟩,
    ⟨.transparentData, some true, some [0x10], [0x10], false, .transparentData, false⟩,
    ⟨.transparentData, some true, some [0x2D], [0x10, 0x2D], true,
      match p.ttdNext with | .idle => .idle | .transparentData => .transparentData, false⟩,
    ⟨.transparentData, some true, some [0x1F, 0x03, 0x26], [0x10, b], false, .bcc1, false⟩,
    ⟨.transparentData, some true, none, [b], false, .transparentData, false⟩,
    ⟨.bcc1, some false, none, [b], false, .bcc2, false⟩,
    ⟨.bcc2, some false, none, [b], false, .pad, false⟩,
    ⟨.pad, some false, none, [b], true, .idle, false⟩ ]

/-- The row covers this state, flag and byte. -/
def EvalRow.covers (r : EvalRow) (st : RxState) (dle : Bool) (b : Byte) : Bool :=
  decide (r.state = st) && (r.dle.all fun d => d == dle) && (r.bytes.all fun l => l.contains b)

/-- What a row does: its appends in order through `RxAppend`, then `MarkFrameComplete` if "done". -/
def EvalRow.apply (r : EvalRow) (p : Params) (rx : RxEngine) : RxEngine :=
  let appended := r.appended.foldl (fun e v => rxAppend p.cap v e) rx
  let finished := if r.done then markFrameComplete appended else appended
  { finished with state := r.next, dle := r.nextDle }

/-- `n` sequential reads: the bytes they returned and the buffer after them. -/
def reads (cap : Nat) : Nat → Buffer → List Byte × Buffer
  | 0, b => ([], b)
  | n + 1, b =>
    match bufRead cap b with
    | .ok (v, b') => (v :: (reads cap n b').1, (reads cap n b').2)
    | .sentinel _ | .fault _ => ([], b)

/-- Sequential writes: the lengths they returned and the buffer after them, up to the first that fails. -/
def writes (cap : Nat) : List Byte → Buffer → List Nat × Buffer
  | [], b => ([], b)
  | v :: vs, b =>
    match bufWrite cap b v with
    | .ok b' => (b'.len :: (writes cap vs b').1, (writes cap vs b').2)
    | .sentinel _ | .fault _ => ([], b)

/-- DLE stuffing, what a sender of transparent text does: every DLE of the text is doubled. -/
def stuff (ds : List Byte) : List Byte :=
  ds.flatMap fun d => if d = 0x10 then [0x10, 0x10] else [d]

/-- Two buffers that differ at most in stale bytes and in the completion flag (R52). -/
def sameBuffer (a b : Buffer) : Prop :=
  a.len = b.len ∧ a.pos = b.pos ∧ ∀ j, j < a.len → memByte a.data j = memByte b.data j

/-- Two states that differ at most in what R52 says is observable by nothing: stale bytes, completion
flags, `RX.cnt` while `OUT_OF_SYNC`, and the bits of `TX.sr` from `TX.cnt` on. -/
def alike (s t : State) : Prop :=
  s.params = t.params ∧ s.phase = t.phase ∧ s.txd = t.txd ∧ s.rxd = t.rxd ∧ s.clkTx = t.clkTx ∧
  s.clkRx = t.clkRx ∧ s.cts = t.cts ∧ s.rw = t.rw ∧ s.moves = t.moves ∧ s.drawn = t.drawn ∧
  s.tx.state = t.tx.state ∧ s.tx.cnt = t.tx.cnt ∧ s.tx.stopOnIdle = t.tx.stopOnIdle ∧
  (∀ k, k < s.tx.cnt.toNat → s.tx.sr.getLsbD k = t.tx.sr.getLsbD k) ∧ sameBuffer s.tx.q t.tx.q ∧
  s.rx.state = t.rx.state ∧ s.rx.sr = t.rx.sr ∧
  (s.rx.state ≠ .outOfSync → s.rx.cnt = t.rx.cnt) ∧ s.rx.sync = t.rx.sync ∧
  s.rx.dle = t.rx.dle ∧ s.rx.act = t.rx.act ∧ s.rx.fc = t.rx.fc ∧
  sameBuffer s.rx.slot0 t.rx.slot0 ∧ sameBuffer s.rx.slot1 t.rx.slot1 ∧
  s.snap.len = t.snap.len ∧ ∀ j, j < s.snap.len → memByte s.snap.data j = memByte t.snap.data j

/-- The instruction a move performs in a state, if it performs one. -/
def performs (m : Move) (s : State) : Option Instr :=
  match m with
  | .command cw =>
    match decode (.command cw) with
    | .ok i => some i
    | .error _ => none
  | .tick _ => some (decodePhase s.phase)

/-- How many TX_ADD commands of a run are answered without FAIL. -/
def acceptedAdds : List Move → State → Nat
  | [], _ => 0
  | m :: ms, s =>
    match step (offerMove m s) with
    | .next t =>
      (match performs m s with
        | some (.txAdd _) => if t.rw.getLsbD 31 then 0 else 1
        | _ => 0) + acceptedAdds ms t
    | .fault _ | .refused _ => 0

end Sys2Proof.Claims

open Sys2Proof.Claims

/-! ### Encoding -/

/-- Decoding the encoding of a well-formed instruction gives it back, for every command with every
operand and every phase (R111, R112, R114, R115, R119). -/
def Obligations.DecodeOfEncodeIsIdentity : Prop :=
  ∀ i : Instr, i.wellFormed = true → decode (encode i) = .ok i

/-- A code that decodes has exactly one meaning: it is the encoding of the instruction it decodes to,
and that instruction is well formed (R111, R112, R119). -/
def Obligations.DecodedCodeIsTheEncoding : Prop :=
  ∀ (c : Code) (i : Instr), decode c = .ok i → encode i = c ∧ i.wellFormed = true

/-- R112: the three checks in their order, over the fields of the command word, each with the name of
the check that fails first; a word that passes all decodes to the well-formed instruction whose encoding
it is, so that its operand is the one of R114. -/
def Obligations.DecoderChecksInOrder : Prop :=
  ∀ cw : Word,
    let op := cw.toNat / 16777216
    let rsv := cw.toNat / 65536 % 256
    let arg := cw.toNat % 65536
    (reservedOp op → decodeCommand cw = .error .reservedOpcode) ∧
    (¬ reservedOp op → rsv ≠ 0 → decodeCommand cw = .error .reservedField) ∧
    (¬ reservedOp op → rsv = 0 → strayBits op arg → decodeCommand cw = .error .strayOperand) ∧
    (¬ reservedOp op → rsv = 0 → ¬ strayBits op arg →
      ∃ i, decodeCommand cw = .ok i ∧ i.wellFormed = true ∧ encode i = .command cw)

/-- A few words written out from R111, R115 and R119 decode to the instructions they stand for. -/
def Obligations.SampleWordsDecode : Prop :=
  decodeTableWord 32 0x01000000 = some .txClear ∧
  decodeTableWord 32 0x02000041 = some (.txAdd 0x41) ∧
  decodeTableWord 32 0x15000001 = some (.rxFrameByte 1) ∧
  decodeTableWord 32 0x2100FFFF = some (.snapByte 65535) ∧
  decodeTableWord 8 0x02 = some .ph2RxSample ∧
  decodeTableWord 32 0x02000100 = none

/-- R120: the fifteen wire codes of R120 and R121 have the listed values, and all are distinct. -/
def Obligations.WireCodesAreDistinct : Prop :=
  Config.wireCodes = [0x32, 0x01, 0x02, 0x03, 0x26, 0x2D, 0x10, 0x3D, 0x1F, 0x37, 0xFF,
    0x70, 0x61, 0x6B, 0x7C] ∧ Config.wireCodes.Nodup

/-! ### Steps, ticks, reset -/

/-- A step runs the decoded instruction: a command word that decodes to `i` runs `i`; a tick runs the
micro-operation PHASE selects, with RXD at the level the line holds; with no listed move, the step is
that of a free move (the model's form of R9, log 1). -/
def Obligations.StepRunsTheDecodedInstruction : Prop :=
  (∀ (s : State) (cw : Word) (i : Instr), decode (.command cw) = .ok i →
    step (offerMove (.command cw) s) = exec i s) ∧
  (∀ (s : State) (level : Bool),
    step (offerMove (.tick level) s) = exec (decodePhase s.phase) { s with rxd := level }) ∧
  (∀ s : State, s.moves = [] →
    step s = step (offerMove (Config.freeMove s.drawn) { s with drawn := s.drawn + 1 }))

/-- R113: an ILLEGAL word changes no state and is answered FAIL(ILLEGAL); the next command is decoded
and performed normally. -/
def Obligations.IllegalWordIsAnswered : Prop :=
  ∀ (s : State) (cw : Word) (r : Illegal), decode (.command cw) = .error r →
    step (offerMove (.command cw) s) = .next { s with rw := 0xFF000000 } ∧
    ∀ (next : Word) (i : Instr), decode (.command next) = .ok i →
      ∃ t, step (offerMove (.command cw) (offerMove (.command next) s)) = .next t ∧
        step t = exec i { s with rw := 0xFF000000 }

/-- R280: a tick performs the micro-operation PHASE selects, cannot fail, and leaves PHASE one further,
modulo 4; no command reads or writes PHASE. -/
def Obligations.TickPerformsPhaseAndAdvances : Prop :=
  (∀ (s : State) (level : Bool), s.inv = true →
    ∃ t, step (offerMove (.tick level) s) = .next t ∧
      t.phase.toNat = (s.phase.toNat + 1) % 4 ∧
      (s.phase = 0#2 → exec .ph0SendBit { s with rxd := level } = .next t) ∧
      (s.phase = 1#2 → exec .ph1ClkRise { s with rxd := level } = .next t) ∧
      (s.phase = 2#2 → exec .ph2RxSample { s with rxd := level } = .next t) ∧
      (s.phase = 3#2 → exec .ph3ClkFall { s with rxd := level } = .next t)) ∧
  (∀ (i : Instr) (s t : State) (p : BitVec 2), i.isCommand = true → exec i s = .next t →
    t.phase = s.phase ∧ exec i { s with phase := p } = .next { t with phase := p })

/-- R54: every element of state after reset, for all parameters. (What RXD, RW, the stale bytes and the
model's own fields hold is the model's choice, log 1, 2, 4 and 5, and is not stated.) -/
def Obligations.ResetValues : Prop :=
  ∀ p : Params,
    let s := State.resetWith p
    s.phase = 0#2 ∧ s.txd = true ∧ s.clkTx = false ∧ s.clkRx = false ∧ s.cts = false ∧
    s.tx.state = .off ∧ s.tx.sr = 0x00 ∧ s.tx.cnt = 0#4 ∧ s.tx.stopOnIdle = false ∧
    s.tx.q.len = 0 ∧ s.tx.q.pos = 0 ∧ s.tx.q.cflag = false ∧
    s.rx.state = .outOfSync ∧ s.rx.sr = 0xFF ∧ s.rx.cnt = 0#8 ∧ s.rx.sync = false ∧
    s.rx.dle = false ∧ s.rx.act = false ∧ s.rx.fc = false ∧
    s.rx.slot0.len = 0 ∧ s.rx.slot0.pos = 0 ∧ s.rx.slot0.cflag = false ∧
    s.rx.slot1.len = 0 ∧ s.rx.slot1.pos = 0 ∧ s.rx.slot1.cflag = false ∧ s.snap.len = 0

/-- The reset values as host-visible words (R330): what each read command answers right after reset. -/
def Obligations.ResetResponses : Prop :=
  ∀ p : Params,
    let s := State.resetWith p
    exec .txState s = .next { s with rw := 0x00000008 } ∧
    exec .rxState s = .next { s with rw := 0x00000000 } ∧
    exec .txRemaining s = .next { s with rw := 0x00000000 } ∧
    exec .rxFrameLen s = .next { s with rw := 0x00000000 } ∧
    exec .rxFrameComplete s = .next { s with rw := 0x00000000 } ∧
    exec .snapLen s = .next { s with rw := 0x00000000 } ∧
    exec .rxGetSaved s = .next { s with rw := 0x84000000 }

/-- The state after reset keeps the invariant, for every legal parameter and any listed moves. -/
def Obligations.ResetKeepsTheInvariant : Prop :=
  ∀ (p : Params) (ms : List Move), p.wf = true →
    State.inv { State.resetWith p with moves := ms } = true

/-- Every step keeps the invariant: R33 for every buffer, the memory's canonical form, and R53 (with
invariant 6 as the range of TX.cnt). -/
def Obligations.StepKeepsTheInvariant : Prop :=
  ∀ s t : State, s.inv = true → step s = .next t → t.inv = true

/-- R300: in a state that keeps the invariant no command, tick or line input stops the block; a failed
command changes no state and answers FAIL(code). (FAIL is bit 31 of the response.) -/
def Obligations.NothingStopsTheBlock : Prop :=
  (∀ s : State, s.inv = true → Goes (step s)) ∧
  (∀ (i : Instr) (s : State), s.inv = true → Goes (exec i s)) ∧
  (∀ (i : Instr) (s t : State), i.isCommand = true → exec i s = .next t →
    t.rw.getLsbD 31 = true → t = { s with rw := t.rw } ∧
      ∃ c : ReasonCode, t.rw = failWord c)

/-- Every state that a run from reset reaches, with any legal parameters and under any moves, keeps the
invariant and has a next state (R11). -/
def Obligations.EveryRunGoesOn : Prop :=
  ∀ (p : Params) (s : State), p.wf = true → Reachable p s →
    s.inv = true ∧ s.params = p ∧ Goes (step s)

/-- Which instruction writes which state. Each field that R50 names is unchanged by every instruction but
those R50 lists with it; a failed command, and an illegal word, writes nothing (but the response RW).
The fields R50 does not name are the model's own, and what the statement says of them is the model's
choice: a tick leaves the response RW (log 5), no instruction writes the parameters (log 3), and none
writes the listed moves or the counter of free moves (log 1). RXD is the line's. -/
def Obligations.AccessMatrix : Prop :=
  (∀ (i : Instr) (s t : State), exec i s = .next t →
    t.params = s.params ∧ t.rxd = s.rxd ∧ t.moves = s.moves ∧ t.drawn = s.drawn ∧
    (i ≠ .txClear → i ≠ .txStop → i ≠ .ph0SendBit → t.txd = s.txd) ∧
    (i ≠ .ph1ClkRise → i ≠ .ph3ClkFall → t.clkTx = s.clkTx ∧ t.clkRx = s.clkRx) ∧
    (i ≠ .rxStart → i ≠ .rxStop → t.cts = s.cts) ∧
    (i ≠ .txClear → i ≠ .txStart → i ≠ .txStop → i ≠ .ph0SendBit → t.tx.state = s.tx.state) ∧
    (i ≠ .ph0SendBit → t.tx.sr = s.tx.sr) ∧
    (i ≠ .txClear → i ≠ .ph0SendBit → t.tx.cnt = s.tx.cnt ∧ t.tx.q.pos = s.tx.q.pos) ∧
    (i ≠ .txClear → i ≠ .txStart → i ≠ .txStopOnIdle → t.tx.stopOnIdle = s.tx.stopOnIdle) ∧
    (i ≠ .txClear → (∀ b, i ≠ .txAdd b) →
      t.tx.q.len = s.tx.q.len ∧ t.tx.q.data = s.tx.q.data ∧ t.tx.q.cflag = s.tx.q.cflag) ∧
    (i ≠ .rxStart → i ≠ .ph2RxSample → t.rx.state = s.rx.state ∧ t.rx.sync = s.rx.sync) ∧
    (i ≠ .ph2RxSample → t.rx.sr = s.rx.sr ∧ t.rx.cnt = s.rx.cnt ∧ t.rx.dle = s.rx.dle ∧
      t.rx.slot0 = s.rx.slot0 ∧ t.rx.slot1 = s.rx.slot1 ∧ t.rx.act = s.rx.act) ∧
    (i ≠ .rxGetSaved → i ≠ .ph2RxSample → t.rx.fc = s.rx.fc) ∧
    (i ≠ .rxGetSaved → t.snap = s.snap) ∧
    (i.isCommand = true → t.phase = s.phase) ∧
    (i.isCommand = false → t.rw = s.rw) ∧
    (i.isCommand = true → t.rw.getLsbD 31 = true → t = { s with rw := t.rw })) ∧
  (∀ (s : State) (cw : Word) (r : Illegal), decode (.command cw) = .error r →
    ∃ w, step (offerMove (.command cw) s) = .next { s with rw := w })

/-- The form of every response (R116, R117): success has code 0 and bits 23 to 16 zero; a failure has
value 0, and its code is FULL from TX_ADD, OUT_OF_RANGE from the two byte reads, or NO_FRAME from
RX_GET_SAVED, and no other command fails. -/
def Obligations.ResponseForms : Prop :=
  ∀ (i : Instr) (s t : State), i.isCommand = true → exec i s = .next t →
    (t.rw.toNat < 65536) ∨
    (t.rw = 0x81000000 ∧ ∃ b, i = .txAdd b) ∨
    (t.rw = 0x83000000 ∧ ((∃ n, i = .rxFrameByte n) ∨ ∃ n, i = .snapByte n)) ∨
    (t.rw = 0x84000000 ∧ i = .rxGetSaved)

/-! ### Buffers and the snapshot -/

/-- R151, R154, R155, R157: BufClear empties a buffer and leaves its store in place; a random read below
the length returns the byte there and otherwise OUT_OF_RANGE; the last byte is read without moving the
cursor; the completion flag is set only on a buffer that is not empty. -/
def Obligations.BufferPrimitiveResults : Prop :=
  ∀ (cap : Nat) (b : Buffer), b.wf cap = true →
    bufClear b = { b with len := 0, pos := 0, cflag := false } ∧
    (∀ i, b.len ≤ i → bufGet cap b i = .sentinel .outOfRange) ∧
    (∀ i, i < b.len → bufGet cap b i = .ok (memByte b.data i)) ∧
    (b.len = 0 → bufReadLast cap b = .sentinel .empty ∧ bufSetComplete b = b) ∧
    (0 < b.len → bufReadLast cap b = .ok (memByte b.data (b.len - 1)) ∧
      bufSetComplete b = { b with cflag := true })

/-- One append (R152): refused at `N - 1` bytes; otherwise the byte stands at the old length, every
other byte of the store reads as before, and the length grows by one. -/
def Obligations.BufWriteAppends : Prop :=
  ∀ (cap : Nat) (b : Buffer) (v : Byte), b.data.wf = true →
    (cap - 1 ≤ b.len → bufWrite cap b v = .sentinel .full) ∧
    (b.len < cap - 1 → ∃ b', bufWrite cap b v = .ok b' ∧ b'.len = b.len + 1 ∧ b'.pos = b.pos ∧
      b'.cflag = b.cflag ∧ b'.data.wf = true ∧ memByte b'.data b.len = v ∧
      ∀ j, j ≠ b.len → memByte b'.data j = memByte b.data j)

/-- R152's test: writing `capacity - 1` bytes to a cleared buffer returns 1, 2, ..., capacity - 1, the
contents are those bytes, and the next write returns the Full sentinel. -/
def Obligations.WritesFillToCapacityMinusOne : Prop :=
  ∀ (cap : Nat) (b : Buffer) (vs : List Byte) (v : Byte), b.wf cap = true → vs.length = cap - 1 →
    (writes cap vs (bufClear b)).1 = (List.range (cap - 1)).map (· + 1) ∧
    bufContents (writes cap vs (bufClear b)).2 = vs ∧
    bufWrite cap (writes cap vs (bufClear b)).2 v = .sentinel .full

/-- Sequential reads (R153): the bytes from the cursor on are returned in order, each once, then EMPTY,
and nothing but the cursor moves. -/
def Obligations.ReadsReturnPendingBytesInOrder : Prop :=
  ∀ (cap : Nat) (b : Buffer), b.wf cap = true →
    reads cap (b.len - b.pos) b = (bufPending b, { b with pos := b.len }) ∧
    bufRead cap { b with pos := b.len } = .sentinel .empty

/-- R242: without a complete frame RX_GET_SAVED answers NO_FRAME and changes nothing; with one it copies
the saved slot into SNAP, clears RX.fc and answers the length, and nothing else changes. Bytes of SNAP
from the new length on keep what they held, and an immediate second call answers NO_FRAME. -/
def Obligations.GetSavedTakesTheFrameOnce : Prop :=
  decode (.command 0x12000000) = .ok .rxGetSaved ∧
  ∀ s : State, s.inv = true →
    (s.rx.fc = false → exec .rxGetSaved s = .next { s with rw := 0x84000000 }) ∧
    (s.rx.fc = true → ∃ sn : Snapshot,
      exec .rxGetSaved s = .next { s with
        snap := sn, rx := { s.rx with fc := false }, rw := BitVec.ofNat 32 (savedSlot s.rx).len } ∧
      sn.len = (savedSlot s.rx).len ∧
      (∀ j, j < sn.len → memByte sn.data j = memByte (savedSlot s.rx).data j) ∧
      (∀ j, sn.len ≤ j → memByte sn.data j = memByte s.snap.data j) ∧
      ∀ t, exec .rxGetSaved s = .next t → exec .rxGetSaved t = .next { t with rw := 0x84000000 })

/-- R160, R161: SNAP_LEN answers the snapshot's length; SNAP_BYTE i answers the byte below the length,
otherwise OUT_OF_RANGE; each changes nothing. The snapshot they read is changed by no instruction, a
phase 2 that completes a frame among them, but a successful RX_GET_SAVED. -/
def Obligations.SnapReadsAnswer : Prop :=
  decode (.command 0x20000000) = .ok .snapLen ∧
  (∀ i, i < 65536 → decode (.command (BitVec.ofNat 32 (0x21000000 + i))) = .ok (.snapByte i)) ∧
  (∀ (i : Instr) (s t : State), exec i s = .next t → i ≠ .rxGetSaved ∨ s.rx.fc = false →
    t.snap = s.snap) ∧
  ∀ s : State, s.inv = true →
    exec .snapLen s = .next { s with rw := BitVec.ofNat 32 s.snap.len } ∧
    (∀ i, s.snap.len ≤ i → exec (.snapByte i) s = .next { s with rw := 0x83000000 }) ∧
    (∀ i, i < s.snap.len →
      exec (.snapByte i) s = .next { s with rw := (memByte s.snap.data i).setWidth 32 })

/-! ### Send commands. Each statement opens with the rule's own encoding of the command. -/

/-- R187: TX_CLEAR empties the queue, sets the count to 0, the state to OFF, cancels a pending stop and
drives TXD to mark; nothing else changes. -/
def Obligations.TxClearResult : Prop :=
  decode (.command 0x01000000) = .ok .txClear ∧
  ∀ s : State, exec .txClear s = .next { s with
    tx := { s.tx with
      q := { s.tx.q with len := 0, pos := 0, cflag := false }
      cnt := 0, state := .off, stopOnIdle := false }
    txd := true
    rw := 0 }

/-- R188: TX_ADD appends the byte and answers the new length, or answers FULL at `N - 1` bytes and
changes nothing. Every other byte of the queue, and everything else, is unchanged. -/
def Obligations.TxAddResult : Prop :=
  (∀ b : Byte, decode (.command (BitVec.ofNat 32 (0x02000000 + b.toNat))) = .ok (.txAdd b)) ∧
  ∀ (s : State) (b : Byte), s.inv = true →
    (s.tx.q.len = s.params.cap - 1 → exec (.txAdd b) s = .next { s with rw := 0x81000000 }) ∧
    (s.tx.q.len < s.params.cap - 1 → ∃ d : Memory,
      exec (.txAdd b) s = .next { s with
        tx := { s.tx with q := { s.tx.q with data := d, len := s.tx.q.len + 1 } }
        rw := BitVec.ofNat 32 (s.tx.q.len + 1) } ∧
      memByte d s.tx.q.len = b ∧
      ∀ j, j ≠ s.tx.q.len → memByte d j = memByte s.tx.q.data j)

/-- R189: TX_START sets XMIT, cancels a pending stop, and changes nothing else. -/
def Obligations.TxStartResult : Prop :=
  decode (.command 0x03000000) = .ok .txStart ∧
  ∀ s : State, exec .txStart s = .next { s with
    tx := { s.tx with state := .xmit, stopOnIdle := false }, rw := 0 }

/-- R190, R191: TX_STOP sets OFF and drives TXD to mark, and TX.cnt, TX.sr, the queue and the pending stop
keep their values; TX_STOP_ON_IDLE sets the pending stop; each changes nothing else. -/
def Obligations.TxStopResults : Prop :=
  decode (.command 0x04000000) = .ok .txStop ∧ decode (.command 0x05000000) = .ok .txStopOnIdle ∧
  ∀ s : State,
    exec .txStop s = .next { s with tx := { s.tx with state := .off }, txd := true, rw := 0 } ∧
    exec .txStopOnIdle s = .next { s with tx := { s.tx with stopOnIdle := true }, rw := 0 }

/-- R192: TX_REMAINING answers the queued bytes not yet fetched and changes nothing. -/
def Obligations.TxRemainingAnswersPending : Prop :=
  decode (.command 0x06000000) = .ok .txRemaining ∧
  ∀ s : State, s.inv = true →
    exec .txRemaining s = .next { s with rw := BitVec.ofNat 32 (s.tx.q.len - s.tx.q.pos) } ∧
    s.tx.q.len - s.tx.q.pos = (bufPending s.tx.q).length

/-- R193 with the layout of R48: TX_STATE answers TXS, STOP_PEND, TXD and TX_CNT in their places, the
reserved bits 0, and changes nothing. -/
def Obligations.TxStateAnswersStatus : Prop :=
  decode (.command 0x07000000) = .ok .txState ∧
  ∀ s : State, exec .txState s = .next { s with
    rw := BitVec.ofNat 32
      ((match s.tx.state with | .off => 0 | .idle => 1 | .xmit => 2)
        + (if s.tx.stopOnIdle then 4 else 0) + (if s.txd then 8 else 0) + 16 * s.tx.cnt.toNat) }

/-! ### The send engine over its phase 0, PHASE 0b00 (R119) -/

/-- R181 as one tick of phase 0, every case: OFF; a bit shifted; a byte fetched; the SYN idle fill; the
deferred stop. Nothing else changes but PHASE. -/
def Obligations.PhaseZeroSendsOneBit : Prop :=
  decode (.phase 0#2) = .ok .ph0SendBit ∧
  ∀ s : State, s.inv = true →
    (s.tx.state = .off →
      exec .ph0SendBit s = .next { s with phase := s.phase + 1#2 }) ∧
    (s.tx.state ≠ .off → s.tx.cnt ≠ 0#4 →
      exec .ph0SendBit s = .next { s with
        txd := s.tx.sr.getLsbD 0
        tx := { s.tx with sr := BitVec.ofNat 8 (s.tx.sr.toNat / 2), cnt := s.tx.cnt - 1#4 }
        phase := s.phase + 1#2 }) ∧
    (s.tx.state ≠ .off → s.tx.cnt = 0#4 → s.tx.q.pos < s.tx.q.len →
      exec .ph0SendBit s = .next { s with
        txd := (memByte s.tx.q.data s.tx.q.pos).getLsbD 0
        tx := { s.tx with
          sr := BitVec.ofNat 8 ((memByte s.tx.q.data s.tx.q.pos).toNat / 2)
          cnt := 7, state := .xmit, q := { s.tx.q with pos := s.tx.q.pos + 1 } }
        phase := s.phase + 1#2 }) ∧
    (s.tx.state ≠ .off → s.tx.cnt = 0#4 → s.tx.q.pos = s.tx.q.len → s.tx.stopOnIdle = false →
      exec .ph0SendBit s = .next { s with
        txd := false
        tx := { s.tx with sr := 0x19, cnt := 7, state := .idle }
        phase := s.phase + 1#2 }) ∧
    (s.tx.state ≠ .off → s.tx.cnt = 0#4 → s.tx.q.pos = s.tx.q.len → s.tx.stopOnIdle = true →
      exec .ph0SendBit s = .next { s with
        txd := true
        tx := { s.tx with sr := 0x32, cnt := 8, state := .off }
        phase := s.phase + 1#2 })

/-- The bits of a fetched byte (R182): bit `k` stands on TXD after the `(k+1)`-th phase 0 counting the
fetch as the first, and after the eighth the register is exhausted. -/
def Obligations.FetchedByteHoldsEightCycles : Prop :=
  ∀ (s : State) (k : Nat), s.inv = true → s.tx.state ≠ .off → s.tx.cnt = 0#4 →
    s.tx.q.pos < s.tx.q.len → k < 8 →
    ∃ t, sendBits (k + 1) s = .ok t ∧
      t.txd = (memByte s.tx.q.data s.tx.q.pos).getLsbD k ∧ t.tx.cnt.toNat = 7 - k ∧
      t.tx.state = .xmit ∧ t.tx.q = { s.tx.q with pos := s.tx.q.pos + 1 }

/-- Wire order (R194, R183): from an exhausted register, TXD shows the pending bytes in order, bit 0
first, and then, with no stop pending, whole SYN bytes for as long as the queue stays empty. -/
def Obligations.WireOrderOfQueuedBytes : Prop :=
  ∀ (s : State) (n : Nat), s.inv = true → s.tx.state ≠ .off → s.tx.cnt = 0#4 →
    txdTrace (8 * (s.tx.q.len - s.tx.q.pos)) s = (bufPending s.tx.q).flatMap wireBits ∧
    (s.tx.stopOnIdle = false →
      txdTrace (8 * (s.tx.q.len - s.tx.q.pos) + 8 * n) s =
        (bufPending s.tx.q).flatMap wireBits ++ (List.replicate n 0x32).flatMap wireBits)

/-- R195: in XMIT with `TX.cnt = c` and `r` bytes pending, the state becomes IDLE or OFF at the
`(c + 8r + 1)`-th following phase 0, and not before. -/
def Obligations.XmitBound : Prop :=
  ∀ s : State, s.inv = true → s.tx.state = .xmit →
    let n := s.tx.cnt.toNat + 8 * (s.tx.q.len - s.tx.q.pos)
    (∀ k, k ≤ n → ∃ t, sendBits k s = .ok t ∧ t.tx.state = .xmit) ∧
    ∃ t, sendBits (n + 1) s = .ok t ∧ (t.tx.state = .idle ∨ t.tx.state = .off)

/-- Deferred stop (R184, R198): with a stop pending and the queue empty, the bits in progress are
shifted out first, and the next phase 0 drives mark, sets OFF and leaves SYN held with count 8. -/
def Obligations.DeferredStopAfterLastBit : Prop :=
  ∀ s : State, s.inv = true → s.tx.state ≠ .off → s.tx.stopOnIdle = true →
    s.tx.q.pos = s.tx.q.len →
    txdTrace s.tx.cnt.toNat s = (wireBits s.tx.sr).take s.tx.cnt.toNat ∧
    (∃ t, sendBits s.tx.cnt.toNat s = .ok t ∧ t.tx.state = s.tx.state) ∧
    ∃ t, sendBits (s.tx.cnt.toNat + 1) s = .ok t ∧ t.tx.state = .off ∧ t.txd = true ∧
      t.tx.sr = 0x32 ∧ t.tx.cnt = 8 ∧ t.tx.stopOnIdle = true

/-- Resuming a stopped byte (R197): after TX_STOP and a later TX_START the bits not yet driven are
driven first. -/
def Obligations.StoppedByteIsFinishedLater : Prop :=
  ∀ s t u : State, s.inv = true → exec .txStop s = .next t → exec .txStart t = .next u →
    t.txd = true ∧ u.txd = true ∧ u.tx = { s.tx with state := .xmit, stopOnIdle := false } ∧
    txdTrace s.tx.cnt.toNat u = (wireBits s.tx.sr).take s.tx.cnt.toNat

/-- R199: in a run without TX_CLEAR, the bytes already queued and the TX_ADDs that succeed are together
at most `N - 1`, however many of the bytes have been sent. -/
def Obligations.QueueIsNotCircular : Prop :=
  ∀ (ms : List Move) (s : State), s.inv = true →
    (∀ cw, Move.command cw ∈ ms → decode (.command cw) ≠ .ok .txClear) →
    s.tx.q.len + acceptedAdds ms s ≤ s.params.cap - 1

/-! ### Receive commands. Each statement opens with the rule's own encoding of the command. -/

/-- R240, R241: RX_START asserts CTS, clears RX.sync and forces OUT_OF_SYNC; RX_STOP de-asserts CTS; each
changes nothing else. -/
def Obligations.RxStartAndStopResults : Prop :=
  decode (.command 0x10000000) = .ok .rxStart ∧ decode (.command 0x11000000) = .ok .rxStop ∧
  ∀ s : State,
    exec .rxStart s = .next { s with
      cts := true, rx := { s.rx with sync := false, state := .outOfSync }, rw := 0 } ∧
    exec .rxStop s = .next { s with cts := false, rw := 0 }

/-- R243, R244: RX_FRAME_COMPLETE answers RX.fc and RX_FRAME_LEN the length of the active slot; each
changes nothing. -/
def Obligations.RxFrameReadsAnswer : Prop :=
  decode (.command 0x13000000) = .ok .rxFrameComplete ∧
  decode (.command 0x14000000) = .ok .rxFrameLen ∧
  ∀ s : State, s.inv = true →
    exec .rxFrameComplete s = .next { s with rw := if s.rx.fc then 1 else 0 } ∧
    exec .rxFrameLen s = .next { s with
      rw := BitVec.ofNat 32 (if s.rx.act then s.rx.slot1.len else s.rx.slot0.len) }

/-- R245: RX_FRAME_BYTE i answers the byte of the active slot below its length, otherwise OUT_OF_RANGE;
nothing changes. -/
def Obligations.RxFrameByteAnswersByte : Prop :=
  (∀ i, i < 65536 →
    decode (.command (BitVec.ofNat 32 (0x15000000 + i))) = .ok (.rxFrameByte i)) ∧
  ∀ (s : State) (i : Nat), s.inv = true →
    let slot := if s.rx.act then s.rx.slot1 else s.rx.slot0
    (slot.len ≤ i → exec (.rxFrameByte i) s = .next { s with rw := 0x83000000 }) ∧
    (i < slot.len →
      exec (.rxFrameByte i) s = .next { s with rw := (memByte slot.data i).setWidth 32 })

/-- R246 with the layout of R49: RX_STATE answers RXS, SYNC, DLE, FC, CTS and ACT in their places, the
reserved bits 0, and changes nothing. -/
def Obligations.RxStateAnswersStatus : Prop :=
  decode (.command 0x16000000) = .ok .rxState ∧
  ∀ s : State, exec .rxState s = .next { s with
    rw := BitVec.ofNat 32
      ((match s.rx.state with
          | .outOfSync => 0 | .idle => 1 | .data => 2 | .transparentData => 3
          | .bcc1 => 4 | .bcc2 => 5 | .pad => 6)
        + (if s.rx.sync then 8 else 0) + (if s.rx.dle then 16 else 0)
        + (if s.rx.fc then 32 else 0) + (if s.cts then 64 else 0)
        + (if s.rx.act then 128 else 0)) }

/-! ### The receive engine over its phase 2, PHASE 0b10 (R119) -/

/-- R221 and R222 as one tick of phase 2 (R283), every case: the bit enters bit 7; out of sync every bit
is tested for SYN; in sync a byte is evaluated at the eighth bit. Nothing else changes but PHASE. -/
def Obligations.PhaseTwoSamplesOneBit : Prop :=
  decode (.phase 2#2) = .ok .ph2RxSample ∧
  ∀ s : State,
    let sr := shiftedIn s.rxd s.rx.sr
    let taken : RxEngine := { s.rx with sr := sr, cnt := s.rx.cnt + 1#8 }
    (s.rx.state = .outOfSync → sr = 0x32 →
      exec .ph2RxSample s = .next { s with
        rx := { rxAppend s.params.cap 0x32 taken with cnt := 0#8, sync := true, state := .idle }
        phase := s.phase + 1#2 }) ∧
    (s.rx.state = .outOfSync → sr ≠ 0x32 →
      exec .ph2RxSample s = .next { s with rx := taken, phase := s.phase + 1#2 }) ∧
    (s.rx.state ≠ .outOfSync → s.rx.cnt ≠ 7#8 →
      exec .ph2RxSample s = .next { s with rx := taken, phase := s.phase + 1#2 }) ∧
    (s.rx.state ≠ .outOfSync → s.rx.cnt = 7#8 →
      exec .ph2RxSample s = .next { s with
        rx := processByte s.params sr { taken with cnt := 0#8 }
        phase := s.phase + 1#2 })

/-- R225: an append goes to the end of the active slot; into a full slot it is dropped and nothing else
changes. -/
def Obligations.RxAppendGoesToActiveSlot : Prop :=
  ∀ (p : Params) (v : Byte) (rx : RxEngine), (activeSlot rx).wf p.cap = true →
    ((activeSlot rx).len = p.cap - 1 → rxAppend p.cap v rx = rx) ∧
    ((activeSlot rx).len < p.cap - 1 → ∃ b : Buffer,
      rxAppend p.cap v rx =
        (if rx.act then { rx with slot1 := b } else { rx with slot0 := b }) ∧
      bufContents b = bufContents (activeSlot rx) ++ [v] ∧
      b.pos = (activeSlot rx).pos ∧ b.cflag = (activeSlot rx).cflag ∧
      ∀ j, j ≠ (activeSlot rx).len → memByte b.data j = memByte (activeSlot rx).data j)

/-- R226: mark frame complete sets the flag of the active slot (if it is not empty), makes the other
slot active and empties it, and sets RX.fc. -/
def Obligations.MarkFrameCompleteSwapsSlots : Prop :=
  ∀ rx : RxEngine,
    (rx.act = false → markFrameComplete rx = { rx with
      slot0 := if 0 < rx.slot0.len then { rx.slot0 with cflag := true } else rx.slot0
      slot1 := { rx.slot1 with len := 0, pos := 0, cflag := false }
      act := true, fc := true }) ∧
    (rx.act = true → markFrameComplete rx = { rx with
      slot1 := if 0 < rx.slot1.len then { rx.slot1 with cflag := true } else rx.slot1
      slot0 := { rx.slot0 with len := 0, pos := 0, cflag := false }
      act := false, fc := true })

/-- R234: the byte evaluation is the table: for every synchronised state, flag and byte the first row
that covers them says what happens. (R53 invariant 3: the flag is 0 in BCC1, BCC2 and PAD.) -/
def Obligations.ByteEvaluationIsTheTable : Prop :=
  ∀ (p : Params) (b : Byte) (rx : RxEngine), rx.state ≠ .outOfSync →
    (rx.state = .bcc1 ∨ rx.state = .bcc2 ∨ rx.state = .pad → rx.dle = false) →
    ∃ r, (evalTable p (activeSlot rx).len b).find? (fun r => r.covers rx.state rx.dle b) = some r ∧
      processByte p b rx = r.apply p rx

/-- R258, first sentence: a byte completes a frame exactly in one of the ways R258 lists. -/
def Obligations.FrameCompletionWays : Prop :=
  ∀ (p : Params) (b : Byte) (rx : RxEngine),
    (processByte p b rx).act ≠ rx.act ↔
      (rx.state = .pad ∨
       (rx.state = .idle ∧ (b = 0x37 ∨ b = 0x3D)) ∨
       (rx.state = .idle ∧ rx.dle = true ∧ (b = 0x70 ∨ b = 0x61)) ∨
       (rx.state = .transparentData ∧ rx.dle = true ∧ b = 0x2D))

/-- One received byte (R83, R224, R251): from a byte boundary in sync, eight samples of a byte's bits,
bit 0 first, evaluate exactly that byte once. -/
def Obligations.EightSamplesEvaluateOneByte : Prop :=
  ∀ (p : Params) (v : Byte) (rx : RxEngine), rx.state ≠ .outOfSync → rx.cnt = 0#8 →
    rxSamples p (wireBits v) rx = processByte p v { rx with sr := v, cnt := 0#8 }

/-- R250: out of sync, whatever came before, the engine reaches IDLE with character sync exactly when
the last eight bits sampled are SYN; fewer than eight samples after reset never give sync. The eight
bits may include bits sampled earlier, held in RX.sr: one more bit gives sync exactly when it and the
seven newest held bits are SYN. -/
def Obligations.SyncOnSynAfterAnyGarbage : Prop :=
  (∀ (p : Params) (bits : List Bool) (rx : RxEngine), rx.state = .outOfSync → 8 ≤ bits.length →
    (∀ k, k < bits.length → (rxSamples p (bits.take k) rx).state = .outOfSync) →
    (((rxSamples p bits rx).state = .idle ∧ (rxSamples p bits rx).sync = true) ↔
      bits.drop (bits.length - 8) = wireBits 0x32)) ∧
  (∀ (p : Params) (bits : List Bool), bits.length < 8 →
    (rxSamples p bits (State.resetWith p).rx).state = .outOfSync) ∧
  (∀ (p : Params) (bit : Bool) (rx : RxEngine), rx.state = .outOfSync →
    (((rxSample p bit rx).state = .idle ∧ (rxSample p bit rx).sync = true) ↔
      (wireBits rx.sr).drop 1 ++ [bit] = wireBits 0x32))

/-- A whole text frame (R230, R231, R228, R229, R227, and R259 for its truncation): the saved slot holds
what the active slot held, then STX or SOH, the text, ETX or ETB, the two check bytes and the pad, cut
to `N - 1` bytes; the new active slot is empty and the engine is in IDLE. -/
def Obligations.TextFrameIsSaved : Prop :=
  ∀ (p : Params) (rx : RxEngine) (start term c1 c2 pad : Byte) (text : List Byte),
    p.wf = true → rx.state = .idle → rx.dle = false →
    rx.slot0.wf p.cap = true → rx.slot1.wf p.cap = true →
    (start = 0x02 ∨ start = 0x01) → (term = 0x03 ∨ term = 0x26) →
    (∀ d, d ∈ text → d ≠ 0x32 ∧ d ≠ 0x10 ∧ d ≠ 0x03 ∧ d ≠ 0x26) →
    let t := rxBytes p (start :: text ++ [term, c1, c2, pad]) rx
    t.state = .idle ∧ t.fc = true ∧ t.dle = false ∧ t.act = !rx.act ∧
    bufContents (savedSlot t) =
      (bufContents (activeSlot rx) ++ (start :: text ++ [term, c1, c2, pad])).take (p.cap - 1) ∧
    (savedSlot t).cflag = true ∧ bufContents (activeSlot t) = []

/-- A whole transparent frame (R230, R232, R228, R229, R227, R259): any text at all, sent with every DLE
doubled between DLE STX and DLE ETX (or ETB or ITB), is saved with each DLE once. -/
def Obligations.TransparentFrameIsDestuffed : Prop :=
  ∀ (p : Params) (rx : RxEngine) (term c1 c2 pad : Byte) (text : List Byte),
    p.wf = true → rx.state = .idle → rx.dle = false →
    rx.slot0.wf p.cap = true → rx.slot1.wf p.cap = true →
    (term = 0x03 ∨ term = 0x26 ∨ term = 0x1F) →
    let t := rxBytes p ([0x10, 0x02] ++ stuff text ++ [0x10, term, c1, c2, pad]) rx
    t.state = .idle ∧ t.fc = true ∧ t.dle = false ∧ t.act = !rx.act ∧
    bufContents (savedSlot t) =
      (bufContents (activeSlot rx) ++ ([0x10, 0x02] ++ text ++ [0x10, term, c1, c2, pad])).take
        (p.cap - 1) ∧
    bufContents (activeSlot t) = []

/-- Double-buffer safety and overwrite (R93, R253): a step that completes no frame leaves the saved slot
as it is; a step that completes one empties the slot that was saved, taken or not, makes it the active
one, and sets RX.fc. -/
def Obligations.SavedSlotIsSafeUntilNextCompletion : Prop :=
  ∀ s t : State, step s = .next t →
    (t.rx.act = s.rx.act → savedSlot t.rx = savedSlot s.rx) ∧
    (t.rx.act ≠ s.rx.act → (activeSlot t.rx).len = 0 ∧
      (activeSlot t.rx).data = (savedSlot s.rx).data ∧ t.rx.fc = true)

/-- What phase 2 stores (R80, R81, R225): at most the two bytes at the end of the active slot. The slot
that is not active keeps every byte, and so does the active one everywhere else; the queue and the
snapshot are untouched. -/
def Obligations.PhaseTwoStoresAtSlotEnd : Prop :=
  ∀ s t : State, exec .ph2RxSample s = .next t →
    t.tx = s.tx ∧ t.snap = s.snap ∧
    (∀ j, j ≠ (activeSlot s.rx).len → j ≠ (activeSlot s.rx).len + 1 →
      memByte t.rx.slot0.data j = memByte s.rx.slot0.data j ∧
      memByte t.rx.slot1.data j = memByte s.rx.slot1.data j) ∧
    (s.rx.act = false → t.rx.slot1.data = s.rx.slot1.data) ∧
    (s.rx.act = true → t.rx.slot0.data = s.rx.slot0.data)

/-! ### The sequencer and the pins -/

/-- R282, R284: phase 1 raises both clocks and phase 3 lowers them; nothing else changes but PHASE, which
wraps to 0 from 3. -/
def Obligations.ClockPhasesDriveBothClocks : Prop :=
  decode (.phase 1#2) = .ok .ph1ClkRise ∧ decode (.phase 3#2) = .ok .ph3ClkFall ∧
  ∀ s : State,
    exec .ph1ClkRise s = .next { s with clkTx := true, clkRx := true, phase := s.phase + 1#2 } ∧
    exec .ph3ClkFall s = .next { s with clkTx := false, clkRx := false, phase := s.phase + 1#2 } ∧
    (s.phase = 3#2 → s.phase + 1#2 = 0#2)

/-- One cycle (R285, R286): four ticks from PHASE 0 with no command between them drive one bit, raise
the clocks, sample the level RXD has at the third tick, and lower the clocks; TXD holds its level from
the first tick on. -/
def Obligations.CycleDrivesAndSamplesOneBit : Prop :=
  ∀ (s : State) (l0 l1 l2 l3 : Bool), s.inv = true → s.phase = 0#2 →
    ∃ u, sendBit s = .ok u ∧
      runMoves [.tick l0] s = .next { u with phase := 1, rxd := l0 } ∧
      runMoves [.tick l0, .tick l1] s =
        .next { u with phase := 2, rxd := l1, clkTx := true, clkRx := true } ∧
      runMoves [.tick l0, .tick l1, .tick l2] s =
        .next { u with phase := 3, rxd := l2, clkTx := true, clkRx := true
                       rx := rxSample s.params l2 s.rx } ∧
      runMoves [.tick l0, .tick l1, .tick l2, .tick l3] s =
        .next { u with phase := 0, rxd := l3, clkTx := false, clkRx := false
                       rx := rxSample s.params l2 s.rx }

/-! ### What cannot be learnt, and what does not interfere -/

/-- The engines do not interfere (R3, R180, R220, R254): what an instruction does to the send engine and
TXD depends on nothing of the receive side, and what it does to the receive engine and the snapshot
depends on nothing of the send side, nor on CTS. -/
def Obligations.EnginesDoNotInterfere : Prop :=
  ∀ (i : Instr) (s t s' t' : State), exec i s = .next s' → exec i t = .next t' →
    s.params = t.params →
    (s.tx = t.tx → s.txd = t.txd → s'.tx = t'.tx ∧ s'.txd = t'.txd) ∧
    (s.rx = t.rx → s.rxd = t.rxd → s.snap = t.snap → s'.rx = t'.rx ∧ s'.snap = t'.snap)

/-- Hidden state (R52): two states that differ only in stale bytes, completion flags, RX.cnt while out of
sync and the bits of TX.sr not due to be driven step to states that again differ only so, with the
same pins and the same response. -/
def Obligations.HiddenStateIsUnobservable : Prop :=
  ∀ s t s' : State, s.inv = true → t.inv = true → alike s t → step s = .next s' →
    ∃ t', step t = .next t' ∧ alike s' t'

/-! ### The host's pseudo-operations -/

/-- WAIT_SEND_IDLE (R196): a poll that finds OFF or IDLE returns; a poll that finds XMIT goes on to the
next poll. -/
def Obligations.WaitSendIdlePolls : Prop :=
  ∀ (gap : List Move) (gaps : List (List Move)) (s t : State), runMoves gap s = .next t →
    ∃ u, exec .txState t = .next u ∧ u = { t with rw := u.rw } ∧
      (t.tx.state ≠ .xmit → waitSendIdle (gap :: gaps) s = .next (.returned () u)) ∧
      (t.tx.state = .xmit → waitSendIdle (gap :: gaps) s = waitSendIdle gaps u)

/-- WAIT_FRAME t (R262): at least one poll is made; a poll that finds a complete frame returns the
elapsed time, even after `t`; otherwise a poll at or after `t` milliseconds returns TIMEOUT, and an
earlier one goes on. The frame is not consumed. (That a poll at exactly `t` times out is R262's; R129's
wording differs there, log 16.) -/
def Obligations.WaitFramePolls : Prop :=
  ∀ (limit elapsed : Nat) (gap : List Move) (polls : List (List Move × Nat)) (s t : State),
    runMoves gap s = .next t →
    ∃ u, exec .rxFrameComplete t = .next u ∧ u = { t with rw := u.rw } ∧
      (t.rx.fc = true →
        waitFrame limit ((gap, elapsed) :: polls) s = .next (.returned (.ok elapsed) u)) ∧
      (t.rx.fc = false → limit ≤ elapsed →
        waitFrame limit ((gap, elapsed) :: polls) s = .next (.returned (.error .timeout) u)) ∧
      (t.rx.fc = false → elapsed < limit →
        waitFrame limit ((gap, elapsed) :: polls) s = waitFrame limit polls u)

/-- SEND_FRAME (R129, R334): its commands leave exactly the frame queued, nothing of it fetched, the
engine started with the stop pending, and TXD at mark; the receive side is untouched. -/
def Obligations.SendFrameQueuesTheFrame : Prop :=
  ∀ (s : State) (bytes : List Byte), s.inv = true → bytes.length ≤ s.params.cap - 1 →
    ∃ t, runMoves (hostMoves (sendFrame bytes)) s = .next t ∧
      bufContents t.tx.q = bytes ∧ t.tx.q.pos = 0 ∧ t.tx.cnt = 0 ∧ t.tx.state = .xmit ∧
      t.tx.stopOnIdle = true ∧ t.txd = true ∧ t.rx = s.rx ∧ t.snap = s.snap ∧
      t.phase = s.phase ∧ t.cts = s.cts

/-- READ_FRAME (R129, R335): after RX_GET_SAVED, reading every index answers the bytes of the frame that
was saved, in order. -/
def Obligations.ReadFrameAnswersTheFrame : Prop :=
  ∀ (s t : State), s.inv = true → s.rx.fc = true → exec .rxGetSaved s = .next t →
    t.rw.toNat = (bufContents (savedSlot s.rx)).length ∧
    ∀ (i : Nat) (v : Byte), (bufContents (savedSlot s.rx))[i]? = some v →
      exec (.snapByte i) t = .next { t with rw := v.setWidth 32 }

/-- SEND_FRAME whole (R129, R334, R188, R196), whatever ticks fall between its commands: the host queues
the bytes up to the first FULL; then it starts the engine, with the stop pending, and waits as
WAIT_SEND_IDLE does. After a FULL it does so or ends there, with the engine OFF: no rule says which, and
the statement holds of either choice (log 15). -/
def Obligations.SendFrameRunsToTheWait : Prop :=
  ∀ (afterFull : AfterFull) (ticks : Nat → List Bool) (polls : List (List Bool)) (bytes : List Byte)
    (s : State), s.inv = true →
    let room := s.params.cap - 1
    ((bytes.length ≤ room ∨ afterFull = .start) → ∃ u : State,
      runSendFrame afterFull ticks polls bytes s =
        outcomeThen (waitSendIdle (polls.map tickMoves) u) (fun w =>
          .next (w.withResult (if bytes.length ≤ room then none else some 0x81000000))) ∧
      u.inv = true ∧ bufContents u.tx.q = bytes.take room ∧ u.tx.state ≠ .off ∧
      u.tx.stopOnIdle = true) ∧
    (room < bytes.length → afterFull = .giveUp → ∃ u : State,
      runSendFrame afterFull ticks polls bytes s = .next (.returned (some 0x81000000) u) ∧
      bufContents u.tx.q = bytes.take room ∧ u.tx.q.pos = 0 ∧ u.tx.state = .off ∧
      u.tx.stopOnIdle = false)

/-- READ_FRAME whole (R129, R335, R242, R161), whatever ticks fall between its commands, and so however
many frames complete meanwhile: with a frame complete when RX_GET_SAVED is issued, the values read are
the bytes of that frame, in order, as many as RX_GET_SAVED answered; without one it is NO_FRAME and no
SNAP_BYTE is issued (log 15). -/
def Obligations.ReadFrameRuns : Prop :=
  ∀ (ticks : Nat → List Bool) (s t : State), s.inv = true →
    runMoves (tickMoves (ticks 0)) s = .next t →
    (t.rx.fc = false → runReadFrame ticks s = .next
      { values := [], failure := some 0x84000000, state := { t with rw := 0x84000000 } }) ∧
    (t.rx.fc = true → ∃ u : State,
      runReadFrame ticks s = .next
        { values := (bufContents (savedSlot t.rx)).map (fun v => v.setWidth 16)
          failure := none, state := u } ∧
      u.snap.len = (savedSlot t.rx).len ∧
      ∀ j, j < u.snap.len → memByte u.snap.data j = memByte (savedSlot t.rx).data j)
end

