-- ==== Sys2Proof/Laws/Memory.lean ====
section
/-! SUPPORT. The laws of a byte store: read after write, and every operation keeps the canonical form. -/

namespace Sys2Proof.Machine

theorem memByte_memWrite_same (m : Memory) (i : Nat) (v : Byte) (lo : Nat) (h : memWfFrom lo m = true) :
    memByte (memWrite m i v) i = v := by
  induction m generalizing lo with
  | nil => unfold memWrite; split <;> simp_all [memByte]
  | cons c m ih =>
    obtain ⟨a, w⟩ := c
    simp only [memWfFrom, Bool.and_eq_true, decide_eq_true_eq] at h
    unfold memWrite
    by_cases hai : a < i
    · have : a ≠ i := by omega
      simp only [hai, if_true, memByte, this, if_false]
      exact ih (a + 1) h.2
    · simp only [hai, if_false]
      by_cases hv : v = Config.unlistedByte
      · simp only [hv, if_true]
        have unl : ∀ (m : Memory) (lo : Nat), memWfFrom lo m = true → i < lo →
            memByte m i = Config.unlistedByte := by
          intro m
          induction m with
          | nil => intros; rfl
          | cons c m ih =>
            intro lo hm hlt
            obtain ⟨b, u⟩ := c
            simp only [memWfFrom, Bool.and_eq_true, decide_eq_true_eq] at hm
            have : b ≠ i := by omega
            simp only [memByte, this, if_false]
            exact ih (b + 1) hm.2 (by omega)
        by_cases he : a = i
        · simp only [he, if_true]; exact unl m (a + 1) h.2 (by omega)
        · simp only [he, if_false, memByte]; exact unl m (a + 1) h.2 (by omega)
      · simp [hv, memByte]

theorem memByte_memWrite_other (m : Memory) (i j : Nat) (v : Byte) (h : j ≠ i) :
    memByte (memWrite m i v) j = memByte m j := by
  induction m with
  | nil => unfold memWrite; split <;> simp [memByte, h.symm]
  | cons c m ih =>
    obtain ⟨a, w⟩ := c
    unfold memWrite
    by_cases hai : a < i
    · simp only [hai, if_true, memByte, ih]
    · simp only [hai, if_false]
      by_cases he : a = i <;> by_cases hv : v = Config.unlistedByte <;>
        simp [he, hv, memByte, h.symm]

theorem memWfFrom_mono (m : Memory) (lo lo' : Nat) (hle : lo' ≤ lo) (h : memWfFrom lo m = true) :
    memWfFrom lo' m = true := by
  cases m with
  | nil => rfl
  | cons c m =>
    obtain ⟨a, w⟩ := c
    simp only [memWfFrom, Bool.and_eq_true, decide_eq_true_eq] at h ⊢
    exact ⟨⟨by omega, h.1.2⟩, h.2⟩

theorem memWrite_keeps_wfFrom (m : Memory) (i : Nat) (v : Byte) (lo : Nat) (hlo : lo ≤ i)
    (h : memWfFrom lo m = true) : memWfFrom lo (memWrite m i v) = true := by
  induction m generalizing lo with
  | nil =>
    unfold memWrite; split
    · rfl
    · simp [memWfFrom, *]
  | cons c m ih =>
    obtain ⟨a, w⟩ := c
    simp only [memWfFrom, Bool.and_eq_true, decide_eq_true_eq] at h
    obtain ⟨⟨h1, h2⟩, h3⟩ := h
    unfold memWrite
    by_cases hai : a < i
    · simp only [hai, if_true, memWfFrom, Bool.and_eq_true, decide_eq_true_eq]
      exact ⟨⟨h1, h2⟩, ih (a + 1) (by omega) h3⟩
    · simp only [hai, if_false]
      by_cases he : a = i
      · subst he
        by_cases hv : v = Config.unlistedByte
        · simp only [hv, if_true]; exact memWfFrom_mono m (a + 1) lo (by omega) h3
        · simp [hv, memWfFrom, h1, h3]
      · by_cases hv : v = Config.unlistedByte
        · simp [hv, he, memWfFrom, h1, h2, h3]
        · have : i + 1 ≤ a := by omega
          simp [hv, he, memWfFrom, hlo, h2, h3, this]

/-- A write keeps the canonical form. -/
theorem memWrite_keeps_wf (m : Memory) (i : Nat) (v : Byte) (h : m.wf = true) :
    (memWrite m i v : Memory).wf = true :=
  memWrite_keeps_wfFrom m i v 0 (Nat.zero_le i) h

/-- A write at an index that exists lists only indices that exist. -/
theorem memWrite_keeps_within (cap : Nat) (m : Memory) (i : Nat) (v : Byte) (hi : i < cap)
    (h : memWithin cap m = true) : memWithin cap (memWrite m i v) = true := by
  induction m with
  | nil => unfold memWrite; split <;> simp [memWithin, hi]
  | cons c m ih =>
    obtain ⟨a, w⟩ := c
    have h' : a < cap ∧ memWithin cap m = true := by simpa [memWithin] using h
    unfold memWrite
    by_cases hai : a < i
    · simpa [hai, memWithin, h'.1] using ih h'.2
    · have h2 : ∀ x ∈ m, x.1 < cap := by simpa [memWithin] using h'.2
      by_cases he : a = i <;> by_cases hv : v = Config.unlistedByte <;>
        simp [he, hv, memWithin, hai, hi, h'.1] <;> exact fun x y hx => h2 (x, y) hx

theorem memCopy_keeps_wf (src dst : Memory) (n : Nat) (h : dst.wf = true) :
    (memCopy src n dst : Memory).wf = true := by
  induction n with
  | zero => exact h
  | succ n ih => exact memWrite_keeps_wf _ _ _ ih

theorem memCopy_keeps_within (cap : Nat) (src dst : Memory) (n : Nat) (hn : n ≤ cap)
    (h : memWithin cap dst = true) : memWithin cap (memCopy src n dst) = true := by
  induction n with
  | zero => exact h
  | succ n ih => exact memWrite_keeps_within _ _ _ _ (by omega) (ih (by omega))

/-- A copied index reads what the source reads there. -/
theorem memByte_memCopy_lt (src dst : Memory) (n i : Nat) (h : i < n) (hd : dst.wf = true) :
    memByte (memCopy src n dst) i = memByte src i := by
  induction n with
  | zero => omega
  | succ n ih =>
    by_cases hi : i = n
    · subst hi
      exact memByte_memWrite_same _ _ _ 0 (memCopy_keeps_wf src dst i hd)
    · rw [memCopy, memByte_memWrite_other _ _ _ _ hi]
      exact ih (by omega)

/-- An index past the copied ones reads what it read before. -/
theorem memByte_memCopy_ge (src dst : Memory) (n i : Nat) (h : n ≤ i) :
    memByte (memCopy src n dst) i = memByte dst i := by
  induction n with
  | zero => rfl
  | succ n ih =>
    rw [memCopy, memByte_memWrite_other _ _ _ _ (by omega)]
    exact ih (by omega)

/-- Everything `memRead` can answer. -/
theorem memRead_ok_iff (cap : Nat) (m : Memory) (i : Nat) (v : Byte) :
    memRead cap m i = .ok v ↔ i < cap ∧ v = memByte m i := by
  unfold memRead
  by_cases h : i < cap
  · simp [h, eq_comm]
  · simp [h]

theorem memRead_of_lt (cap : Nat) (m : Memory) (i : Nat) (h : i < cap) :
    memRead cap m i = .ok (memByte m i) := by simp [memRead, h]

end Sys2Proof.Machine
end

