-- ==== Sys2Proof/Laws/Buffer.lean ====
section
/-! SUPPORT. One lemma per buffer primitive that says everything it can do, and that each keeps a buffer
sound (spec/40_buffer.md R151 to R159). -/

namespace Sys2Proof.Machine

theorem Buffer.wf_iff (cap : Nat) (b : Buffer) :
    b.wf cap = true ↔
      b.pos ≤ b.len ∧ b.len ≤ cap - 1 ∧ b.data.wf = true ∧ memWithin cap b.data = true := by
  simp [Buffer.wf, and_assoc]

theorem Snapshot.wf_iff (cap : Nat) (sn : Snapshot) :
    sn.wf cap = true ↔
      sn.len ≤ cap - 1 ∧ sn.data.wf = true ∧ memWithin cap sn.data = true := by
  simp [Snapshot.wf, and_assoc]

/-- Everything `BufWrite` can answer. -/
theorem bufWrite_cases (cap : Nat) (b : Buffer) (v : Byte) :
    (cap - 1 ≤ b.len ∧ bufWrite cap b v = .sentinel .full) ∨
    (b.len < cap - 1 ∧
      bufWrite cap b v = .ok { b with data := memWrite b.data b.len v, len := b.len + 1 }) := by
  unfold bufWrite
  by_cases h : cap - 1 ≤ b.len
  · exact .inl ⟨h, if_pos h⟩
  · exact .inr ⟨by omega, if_neg h⟩

/-- Everything `BufRead` can answer. -/
theorem bufRead_cases (cap : Nat) (b : Buffer) :
    (b.len ≤ b.pos ∧ bufRead cap b = .sentinel .empty) ∨
    (b.pos < b.len ∧ b.pos < cap ∧
      bufRead cap b = .ok (memByte b.data b.pos, { b with pos := b.pos + 1 })) ∨
    (b.pos < b.len ∧ cap ≤ b.pos ∧ bufRead cap b = .fault (.noSuchIndex b.pos)) := by
  unfold bufRead memRead
  by_cases h : b.len ≤ b.pos
  · exact .inl ⟨h, if_pos h⟩
  · by_cases hc : b.pos < cap
    · exact .inr (.inl ⟨by omega, hc, by simp [h, hc]⟩)
    · exact .inr (.inr ⟨by omega, by omega, by simp [h, hc]⟩)

/-- Everything `BufGet` can answer. -/
theorem bufGet_cases (cap : Nat) (b : Buffer) (i : Nat) :
    (b.len ≤ i ∧ bufGet cap b i = .sentinel .outOfRange) ∨
    (i < b.len ∧ i < cap ∧ bufGet cap b i = .ok (memByte b.data i)) ∨
    (i < b.len ∧ cap ≤ i ∧ bufGet cap b i = .fault (.noSuchIndex i)) := by
  unfold bufGet memRead
  by_cases h : b.len ≤ i
  · exact .inl ⟨h, if_pos h⟩
  · by_cases hc : i < cap
    · exact .inr (.inl ⟨by omega, hc, by simp [h, hc]⟩)
    · exact .inr (.inr ⟨by omega, by omega, by simp [h, hc]⟩)

/-- Everything `BufReadLast` can answer. -/
theorem bufReadLast_cases (cap : Nat) (b : Buffer) :
    (b.len = 0 ∧ bufReadLast cap b = .sentinel .empty) ∨
    (0 < b.len ∧ b.len - 1 < cap ∧ bufReadLast cap b = .ok (memByte b.data (b.len - 1))) ∨
    (0 < b.len ∧ cap ≤ b.len - 1 ∧ bufReadLast cap b = .fault (.noSuchIndex (b.len - 1))) := by
  unfold bufReadLast memRead
  by_cases h : b.len = 0
  · exact .inl ⟨h, if_pos h⟩
  · by_cases hc : b.len - 1 < cap
    · exact .inr (.inl ⟨by omega, hc, by simp [h, hc]⟩)
    · exact .inr (.inr ⟨by omega, by omega, by simp [h, hc]⟩)

/-- Everything a read of the snapshot can answer. -/
theorem snapGet_cases (cap : Nat) (sn : Snapshot) (i : Nat) :
    (sn.len ≤ i ∧ snapGet cap sn i = .sentinel .outOfRange) ∨
    (i < sn.len ∧ i < cap ∧ snapGet cap sn i = .ok (memByte sn.data i)) ∨
    (i < sn.len ∧ cap ≤ i ∧ snapGet cap sn i = .fault (.noSuchIndex i)) := by
  unfold snapGet memRead
  by_cases h : sn.len ≤ i
  · exact .inl ⟨h, if_pos h⟩
  · by_cases hc : i < cap
    · exact .inr (.inl ⟨by omega, hc, by simp [h, hc]⟩)
    · exact .inr (.inr ⟨by omega, by omega, by simp [h, hc]⟩)

/-- Everything `SnapTake` can answer. -/
theorem snapTake_cases (cap : Nat) (b : Buffer) (old : Snapshot) :
    (b.len ≤ cap ∧
      snapTake cap b old = .ok { data := memCopy b.data b.len old.data, len := b.len }) ∨
    (cap < b.len ∧ snapTake cap b old = .fault (.noSuchIndex cap)) := by
  unfold snapTake
  by_cases h : b.len ≤ cap
  · exact .inl ⟨h, if_pos h⟩
  · exact .inr ⟨by omega, if_neg h⟩

theorem fresh_wf (cap : Nat) : Buffer.fresh.wf cap = true := by
  simp [Buffer.wf_iff, Buffer.fresh, Memory.wf, memWfFrom, memWithin]

theorem bufClear_keeps_wf (cap : Nat) (b : Buffer) (h : b.wf cap = true) :
    (bufClear b).wf cap = true := by
  rw [Buffer.wf_iff] at h ⊢
  exact ⟨Nat.le_refl 0, Nat.zero_le _, h.2.2⟩

theorem bufWrite_keeps_wf (cap : Nat) (b b' : Buffer) (v : Byte) (h : b.wf cap = true)
    (hw : bufWrite cap b v = .ok b') : b'.wf cap = true := by
  rw [Buffer.wf_iff] at h ⊢
  obtain ⟨_, e⟩ | ⟨hlt, e⟩ := bufWrite_cases cap b v
  · rw [e] at hw; cases hw
  · rw [e] at hw; cases hw
    exact ⟨Nat.le_succ_of_le h.1, by simp only; omega, memWrite_keeps_wf _ _ _ h.2.2.1,
      memWrite_keeps_within _ _ _ _ (by omega) h.2.2.2⟩

theorem bufRead_keeps_wf (cap : Nat) (b b' : Buffer) (v : Byte) (h : b.wf cap = true)
    (hr : bufRead cap b = .ok (v, b')) : b'.wf cap = true := by
  rw [Buffer.wf_iff] at h ⊢
  obtain ⟨_, e⟩ | ⟨hlt, _, e⟩ | ⟨_, _, e⟩ := bufRead_cases cap b
  · rw [e] at hr; cases hr
  · rw [e] at hr; cases hr
    exact ⟨hlt, h.2⟩
  · rw [e] at hr; cases hr

@[simp] theorem bufSetComplete_len (b : Buffer) : (bufSetComplete b).len = b.len := by
  unfold bufSetComplete; split <;> rfl

@[simp] theorem bufSetComplete_data (b : Buffer) : (bufSetComplete b).data = b.data := by
  unfold bufSetComplete; split <;> rfl

@[simp] theorem bufSetComplete_pos (b : Buffer) : (bufSetComplete b).pos = b.pos := by
  unfold bufSetComplete; split <;> rfl

theorem bufSetComplete_cflag (b : Buffer) (h : 0 < b.len) : (bufSetComplete b).cflag = true := by
  simp [bufSetComplete, h]

theorem bufSetComplete_keeps_wf (cap : Nat) (b : Buffer) (h : b.wf cap = true) :
    (bufSetComplete b).wf cap = true := by
  rw [Buffer.wf_iff] at h ⊢; simpa using h

theorem snapTake_keeps_wf (cap : Nat) (b : Buffer) (old sn : Snapshot) (hb : b.wf cap = true)
    (ho : old.wf cap = true) (h : snapTake cap b old = .ok sn) : sn.wf cap = true := by
  rw [Buffer.wf_iff] at hb
  rw [Snapshot.wf_iff] at ho ⊢
  obtain ⟨hl, e⟩ | ⟨_, e⟩ := snapTake_cases cap b old
  · rw [e] at h; cases h
    exact ⟨hb.2.1, memCopy_keeps_wf _ _ _ ho.2.1, memCopy_keeps_within _ _ _ _ hl ho.2.2⟩
  · rw [e] at h; cases h

@[simp] theorem bufContents_length (b : Buffer) : (bufContents b).length = b.len := by
  simp [bufContents]

/-- A cleared buffer has no contents. -/
@[simp] theorem bufContents_bufClear (b : Buffer) : bufContents (bufClear b) = [] := rfl

@[simp] theorem bufContents_bufSetComplete (b : Buffer) :
    bufContents (bufSetComplete b) = bufContents b := by
  simp [bufContents]

/-- An append that succeeds adds the byte at the end of the contents. -/
theorem bufWrite_contents (cap : Nat) (b b' : Buffer) (v : Byte) (h : b.data.wf = true)
    (hw : bufWrite cap b v = .ok b') : bufContents b' = bufContents b ++ [v] := by
  obtain ⟨_, e⟩ | ⟨hlt, e⟩ := bufWrite_cases cap b v
  · rw [e] at hw; cases hw
  · rw [e] at hw; cases hw
    simp only [bufContents, List.range_succ, List.map_append, List.map_cons, List.map_nil]
    congr 1
    · apply List.map_congr_left
      intro i hi
      exact memByte_memWrite_other _ _ _ _ (Nat.ne_of_lt (List.mem_range.mp hi))
    · rw [memByte_memWrite_same _ _ _ 0 h]

end Sys2Proof.Machine
end

