-- ==== Sys2Proof/Laws/Encoding.lean ====
section
/-! SUPPORT. The fields of a command word as numbers, and what the encodings put into them
(spec/30_encoding.md R111, R116). -/

namespace Sys2Proof.Machine

/-- `{op, 8'h00, arg}` as a number. -/
theorem commandWord_toNat (op : Byte) (arg : Half) :
    (commandWord op arg).toNat = op.toNat * 16777216 + arg.toNat := by
  have h := arg.isLt
  have e : (op ++ 0#8 ++ arg).toNat = (op.toNat <<< 8) <<< 16 ||| arg.toNat := by
    simp only [BitVec.toNat_append]; simp
  have e' : (commandWord op arg).toNat = (op ++ 0#8 ++ arg).toNat := rfl
  rw [e', e, ← Nat.shiftLeft_add_eq_or_of_lt (by simpa using h)]
  simp only [Nat.shiftLeft_eq]
  omega

theorem opField_toNat (cw : Word) : (opField cw).toNat = cw.toNat / 16777216 := by
  have := cw.isLt
  simp [opField, BitVec.extractLsb'_toNat, Nat.shiftRight_eq_div_pow]; omega

theorem rsvField_toNat (cw : Word) : (rsvField cw).toNat = cw.toNat / 65536 % 256 := by
  simp [rsvField, BitVec.extractLsb'_toNat, Nat.shiftRight_eq_div_pow]

theorem argField_toNat (cw : Word) : (argField cw).toNat = cw.toNat % 65536 := by
  simp [argField, BitVec.extractLsb'_toNat]

theorem argHighField_toNat (cw : Word) : (argHighField cw).toNat = cw.toNat / 256 % 256 := by
  simp [argHighField, BitVec.extractLsb'_toNat, Nat.shiftRight_eq_div_pow]

theorem byteOperand_toNat (cw : Word) : (byteOperand cw).toNat = cw.toNat % 256 := by
  simp [byteOperand, BitVec.extractLsb'_toNat]

@[simp] theorem opField_commandWord (op : Byte) (arg : Half) : opField (commandWord op arg) = op := by
  have := arg.isLt; have := op.isLt
  apply BitVec.eq_of_toNat_eq
  rw [opField_toNat, commandWord_toNat]; omega

@[simp] theorem rsvField_commandWord (op : Byte) (arg : Half) :
    rsvField (commandWord op arg) = 0#8 := by
  have := arg.isLt; have := op.isLt
  apply BitVec.eq_of_toNat_eq
  rw [rsvField_toNat, commandWord_toNat]; simp; omega

@[simp] theorem argField_commandWord (op : Byte) (arg : Half) :
    argField (commandWord op arg) = arg := by
  have := arg.isLt; have := op.isLt
  apply BitVec.eq_of_toNat_eq
  rw [argField_toNat, commandWord_toNat]; omega

/-- A word whose `RSV` is 0 is made of its opcode and its operand field. -/
theorem commandWord_of_fields (cw : Word) (h : rsvField cw = 0#8) :
    commandWord (opField cw) (argField cw) = cw := by
  apply BitVec.eq_of_toNat_eq
  rw [commandWord_toNat, opField_toNat, argField_toNat]
  have := congrArg BitVec.toNat h
  rw [rsvField_toNat] at this
  simp at this
  omega

/-- The word of `respond OK(v)` is `v` (R116). -/
theorem okWord_toNat (v : Half) : (okWord v).toNat = v.toNat := by
  have e : okWord v = commandWord 0#8 v := rfl
  rw [e, commandWord_toNat]; simp

/-- A success has FAIL = 0 (R116). -/
theorem okWord_fail_bit (v : Half) : (okWord v).getLsbD 31 = false := by
  have := v.isLt
  rw [BitVec.getLsbD, Nat.testBit_lt_two_pow]
  rw [okWord_toNat]; omega

end Sys2Proof.Machine
end

