-- ==== Sys2Proof/Laws/State.lean ====
section
/-! SUPPORT. One lemma per field of State and per update, true by rfl, so that no proof unfolds a record
update; the same for the receive engine's updates. -/

namespace Sys2Proof.Machine

/-! `respondOk` -/

@[simp] theorem respondOk_params (v : Half) (s : State) : (respondOk v s).params = s.params := rfl
@[simp] theorem respondOk_phase (v : Half) (s : State) : (respondOk v s).phase = s.phase := rfl
@[simp] theorem respondOk_txd (v : Half) (s : State) : (respondOk v s).txd = s.txd := rfl
@[simp] theorem respondOk_rxd (v : Half) (s : State) : (respondOk v s).rxd = s.rxd := rfl
@[simp] theorem respondOk_clkTx (v : Half) (s : State) : (respondOk v s).clkTx = s.clkTx := rfl
@[simp] theorem respondOk_clkRx (v : Half) (s : State) : (respondOk v s).clkRx = s.clkRx := rfl
@[simp] theorem respondOk_cts (v : Half) (s : State) : (respondOk v s).cts = s.cts := rfl
@[simp] theorem respondOk_tx (v : Half) (s : State) : (respondOk v s).tx = s.tx := rfl
@[simp] theorem respondOk_rx (v : Half) (s : State) : (respondOk v s).rx = s.rx := rfl
@[simp] theorem respondOk_snap (v : Half) (s : State) : (respondOk v s).snap = s.snap := rfl
@[simp] theorem respondOk_rw (v : Half) (s : State) : (respondOk v s).rw = okWord v := rfl
@[simp] theorem respondOk_moves (v : Half) (s : State) : (respondOk v s).moves = s.moves := rfl
@[simp] theorem respondOk_drawn (v : Half) (s : State) : (respondOk v s).drawn = s.drawn := rfl

/-! `respondFail` -/

@[simp] theorem respondFail_params (c : ReasonCode) (s : State) : (respondFail c s).params = s.params := rfl
@[simp] theorem respondFail_phase (c : ReasonCode) (s : State) : (respondFail c s).phase = s.phase := rfl
@[simp] theorem respondFail_txd (c : ReasonCode) (s : State) : (respondFail c s).txd = s.txd := rfl
@[simp] theorem respondFail_rxd (c : ReasonCode) (s : State) : (respondFail c s).rxd = s.rxd := rfl
@[simp] theorem respondFail_clkTx (c : ReasonCode) (s : State) : (respondFail c s).clkTx = s.clkTx := rfl
@[simp] theorem respondFail_clkRx (c : ReasonCode) (s : State) : (respondFail c s).clkRx = s.clkRx := rfl
@[simp] theorem respondFail_cts (c : ReasonCode) (s : State) : (respondFail c s).cts = s.cts := rfl
@[simp] theorem respondFail_tx (c : ReasonCode) (s : State) : (respondFail c s).tx = s.tx := rfl
@[simp] theorem respondFail_rx (c : ReasonCode) (s : State) : (respondFail c s).rx = s.rx := rfl
@[simp] theorem respondFail_snap (c : ReasonCode) (s : State) : (respondFail c s).snap = s.snap := rfl
@[simp] theorem respondFail_rw (c : ReasonCode) (s : State) : (respondFail c s).rw = failWord c := rfl
@[simp] theorem respondFail_moves (c : ReasonCode) (s : State) : (respondFail c s).moves = s.moves := rfl
@[simp] theorem respondFail_drawn (c : ReasonCode) (s : State) : (respondFail c s).drawn = s.drawn := rfl

/-! `answerIllegal` -/

@[simp] theorem answerIllegal_params (s : State) : (answerIllegal s).params = s.params := rfl
@[simp] theorem answerIllegal_phase (s : State) : (answerIllegal s).phase = s.phase := rfl
@[simp] theorem answerIllegal_txd (s : State) : (answerIllegal s).txd = s.txd := rfl
@[simp] theorem answerIllegal_rxd (s : State) : (answerIllegal s).rxd = s.rxd := rfl
@[simp] theorem answerIllegal_clkTx (s : State) : (answerIllegal s).clkTx = s.clkTx := rfl
@[simp] theorem answerIllegal_clkRx (s : State) : (answerIllegal s).clkRx = s.clkRx := rfl
@[simp] theorem answerIllegal_cts (s : State) : (answerIllegal s).cts = s.cts := rfl
@[simp] theorem answerIllegal_tx (s : State) : (answerIllegal s).tx = s.tx := rfl
@[simp] theorem answerIllegal_rx (s : State) : (answerIllegal s).rx = s.rx := rfl
@[simp] theorem answerIllegal_snap (s : State) : (answerIllegal s).snap = s.snap := rfl
@[simp] theorem answerIllegal_rw (s : State) : (answerIllegal s).rw = failWord .illegal := rfl
@[simp] theorem answerIllegal_moves (s : State) : (answerIllegal s).moves = s.moves := rfl
@[simp] theorem answerIllegal_drawn (s : State) : (answerIllegal s).drawn = s.drawn := rfl

/-! `driveTxd` -/

@[simp] theorem driveTxd_params (l : Bool) (s : State) : (driveTxd l s).params = s.params := rfl
@[simp] theorem driveTxd_phase (l : Bool) (s : State) : (driveTxd l s).phase = s.phase := rfl
@[simp] theorem driveTxd_txd (l : Bool) (s : State) : (driveTxd l s).txd = l := rfl
@[simp] theorem driveTxd_rxd (l : Bool) (s : State) : (driveTxd l s).rxd = s.rxd := rfl
@[simp] theorem driveTxd_clkTx (l : Bool) (s : State) : (driveTxd l s).clkTx = s.clkTx := rfl
@[simp] theorem driveTxd_clkRx (l : Bool) (s : State) : (driveTxd l s).clkRx = s.clkRx := rfl
@[simp] theorem driveTxd_cts (l : Bool) (s : State) : (driveTxd l s).cts = s.cts := rfl
@[simp] theorem driveTxd_tx (l : Bool) (s : State) : (driveTxd l s).tx = s.tx := rfl
@[simp] theorem driveTxd_rx (l : Bool) (s : State) : (driveTxd l s).rx = s.rx := rfl
@[simp] theorem driveTxd_snap (l : Bool) (s : State) : (driveTxd l s).snap = s.snap := rfl
@[simp] theorem driveTxd_rw (l : Bool) (s : State) : (driveTxd l s).rw = s.rw := rfl
@[simp] theorem driveTxd_moves (l : Bool) (s : State) : (driveTxd l s).moves = s.moves := rfl
@[simp] theorem driveTxd_drawn (l : Bool) (s : State) : (driveTxd l s).drawn = s.drawn := rfl

/-! `driveCts` -/

@[simp] theorem driveCts_params (l : Bool) (s : State) : (driveCts l s).params = s.params := rfl
@[simp] theorem driveCts_phase (l : Bool) (s : State) : (driveCts l s).phase = s.phase := rfl
@[simp] theorem driveCts_txd (l : Bool) (s : State) : (driveCts l s).txd = s.txd := rfl
@[simp] theorem driveCts_rxd (l : Bool) (s : State) : (driveCts l s).rxd = s.rxd := rfl
@[simp] theorem driveCts_clkTx (l : Bool) (s : State) : (driveCts l s).clkTx = s.clkTx := rfl
@[simp] theorem driveCts_clkRx (l : Bool) (s : State) : (driveCts l s).clkRx = s.clkRx := rfl
@[simp] theorem driveCts_cts (l : Bool) (s : State) : (driveCts l s).cts = l := rfl
@[simp] theorem driveCts_tx (l : Bool) (s : State) : (driveCts l s).tx = s.tx := rfl
@[simp] theorem driveCts_rx (l : Bool) (s : State) : (driveCts l s).rx = s.rx := rfl
@[simp] theorem driveCts_snap (l : Bool) (s : State) : (driveCts l s).snap = s.snap := rfl
@[simp] theorem driveCts_rw (l : Bool) (s : State) : (driveCts l s).rw = s.rw := rfl
@[simp] theorem driveCts_moves (l : Bool) (s : State) : (driveCts l s).moves = s.moves := rfl
@[simp] theorem driveCts_drawn (l : Bool) (s : State) : (driveCts l s).drawn = s.drawn := rfl

/-! `driveClocks` -/

@[simp] theorem driveClocks_params (l : Bool) (s : State) : (driveClocks l s).params = s.params := rfl
@[simp] theorem driveClocks_phase (l : Bool) (s : State) : (driveClocks l s).phase = s.phase := rfl
@[simp] theorem driveClocks_txd (l : Bool) (s : State) : (driveClocks l s).txd = s.txd := rfl
@[simp] theorem driveClocks_rxd (l : Bool) (s : State) : (driveClocks l s).rxd = s.rxd := rfl
@[simp] theorem driveClocks_clkTx (l : Bool) (s : State) : (driveClocks l s).clkTx = l := rfl
@[simp] theorem driveClocks_clkRx (l : Bool) (s : State) : (driveClocks l s).clkRx = l := rfl
@[simp] theorem driveClocks_cts (l : Bool) (s : State) : (driveClocks l s).cts = s.cts := rfl
@[simp] theorem driveClocks_tx (l : Bool) (s : State) : (driveClocks l s).tx = s.tx := rfl
@[simp] theorem driveClocks_rx (l : Bool) (s : State) : (driveClocks l s).rx = s.rx := rfl
@[simp] theorem driveClocks_snap (l : Bool) (s : State) : (driveClocks l s).snap = s.snap := rfl
@[simp] theorem driveClocks_rw (l : Bool) (s : State) : (driveClocks l s).rw = s.rw := rfl
@[simp] theorem driveClocks_moves (l : Bool) (s : State) : (driveClocks l s).moves = s.moves := rfl
@[simp] theorem driveClocks_drawn (l : Bool) (s : State) : (driveClocks l s).drawn = s.drawn := rfl

/-! `advancePhase` -/

@[simp] theorem advancePhase_params (s : State) : (advancePhase s).params = s.params := rfl
@[simp] theorem advancePhase_phase (s : State) : (advancePhase s).phase = s.phase + 1#2 := rfl
@[simp] theorem advancePhase_txd (s : State) : (advancePhase s).txd = s.txd := rfl
@[simp] theorem advancePhase_rxd (s : State) : (advancePhase s).rxd = s.rxd := rfl
@[simp] theorem advancePhase_clkTx (s : State) : (advancePhase s).clkTx = s.clkTx := rfl
@[simp] theorem advancePhase_clkRx (s : State) : (advancePhase s).clkRx = s.clkRx := rfl
@[simp] theorem advancePhase_cts (s : State) : (advancePhase s).cts = s.cts := rfl
@[simp] theorem advancePhase_tx (s : State) : (advancePhase s).tx = s.tx := rfl
@[simp] theorem advancePhase_rx (s : State) : (advancePhase s).rx = s.rx := rfl
@[simp] theorem advancePhase_snap (s : State) : (advancePhase s).snap = s.snap := rfl
@[simp] theorem advancePhase_rw (s : State) : (advancePhase s).rw = s.rw := rfl
@[simp] theorem advancePhase_moves (s : State) : (advancePhase s).moves = s.moves := rfl
@[simp] theorem advancePhase_drawn (s : State) : (advancePhase s).drawn = s.drawn := rfl

/-! `lineSets` -/

@[simp] theorem lineSets_params (l : Bool) (s : State) : (lineSets l s).params = s.params := rfl
@[simp] theorem lineSets_phase (l : Bool) (s : State) : (lineSets l s).phase = s.phase := rfl
@[simp] theorem lineSets_txd (l : Bool) (s : State) : (lineSets l s).txd = s.txd := rfl
@[simp] theorem lineSets_rxd (l : Bool) (s : State) : (lineSets l s).rxd = l := rfl
@[simp] theorem lineSets_clkTx (l : Bool) (s : State) : (lineSets l s).clkTx = s.clkTx := rfl
@[simp] theorem lineSets_clkRx (l : Bool) (s : State) : (lineSets l s).clkRx = s.clkRx := rfl
@[simp] theorem lineSets_cts (l : Bool) (s : State) : (lineSets l s).cts = s.cts := rfl
@[simp] theorem lineSets_tx (l : Bool) (s : State) : (lineSets l s).tx = s.tx := rfl
@[simp] theorem lineSets_rx (l : Bool) (s : State) : (lineSets l s).rx = s.rx := rfl
@[simp] theorem lineSets_snap (l : Bool) (s : State) : (lineSets l s).snap = s.snap := rfl
@[simp] theorem lineSets_rw (l : Bool) (s : State) : (lineSets l s).rw = s.rw := rfl
@[simp] theorem lineSets_moves (l : Bool) (s : State) : (lineSets l s).moves = s.moves := rfl
@[simp] theorem lineSets_drawn (l : Bool) (s : State) : (lineSets l s).drawn = s.drawn := rfl

/-! `offerMove` -/

@[simp] theorem offerMove_params (m : Move) (s : State) : (offerMove m s).params = s.params := rfl
@[simp] theorem offerMove_phase (m : Move) (s : State) : (offerMove m s).phase = s.phase := rfl
@[simp] theorem offerMove_txd (m : Move) (s : State) : (offerMove m s).txd = s.txd := rfl
@[simp] theorem offerMove_rxd (m : Move) (s : State) : (offerMove m s).rxd = s.rxd := rfl
@[simp] theorem offerMove_clkTx (m : Move) (s : State) : (offerMove m s).clkTx = s.clkTx := rfl
@[simp] theorem offerMove_clkRx (m : Move) (s : State) : (offerMove m s).clkRx = s.clkRx := rfl
@[simp] theorem offerMove_cts (m : Move) (s : State) : (offerMove m s).cts = s.cts := rfl
@[simp] theorem offerMove_tx (m : Move) (s : State) : (offerMove m s).tx = s.tx := rfl
@[simp] theorem offerMove_rx (m : Move) (s : State) : (offerMove m s).rx = s.rx := rfl
@[simp] theorem offerMove_snap (m : Move) (s : State) : (offerMove m s).snap = s.snap := rfl
@[simp] theorem offerMove_rw (m : Move) (s : State) : (offerMove m s).rw = s.rw := rfl
@[simp] theorem offerMove_moves (m : Move) (s : State) : (offerMove m s).moves = m :: s.moves := rfl
@[simp] theorem offerMove_drawn (m : Move) (s : State) : (offerMove m s).drawn = s.drawn := rfl

/-! `txLoad` -/

@[simp] theorem txLoad_params (v : Byte) (st : TxState) (s : State) : (txLoad v st s).params = s.params := rfl
@[simp] theorem txLoad_phase (v : Byte) (st : TxState) (s : State) : (txLoad v st s).phase = s.phase := rfl
@[simp] theorem txLoad_txd (v : Byte) (st : TxState) (s : State) : (txLoad v st s).txd = s.txd := rfl
@[simp] theorem txLoad_rxd (v : Byte) (st : TxState) (s : State) : (txLoad v st s).rxd = s.rxd := rfl
@[simp] theorem txLoad_clkTx (v : Byte) (st : TxState) (s : State) : (txLoad v st s).clkTx = s.clkTx := rfl
@[simp] theorem txLoad_clkRx (v : Byte) (st : TxState) (s : State) : (txLoad v st s).clkRx = s.clkRx := rfl
@[simp] theorem txLoad_cts (v : Byte) (st : TxState) (s : State) : (txLoad v st s).cts = s.cts := rfl
@[simp] theorem txLoad_tx (v : Byte) (st : TxState) (s : State) : (txLoad v st s).tx = { s.tx with sr := v, cnt := 8#4, state := st } := rfl
@[simp] theorem txLoad_rx (v : Byte) (st : TxState) (s : State) : (txLoad v st s).rx = s.rx := rfl
@[simp] theorem txLoad_snap (v : Byte) (st : TxState) (s : State) : (txLoad v st s).snap = s.snap := rfl
@[simp] theorem txLoad_rw (v : Byte) (st : TxState) (s : State) : (txLoad v st s).rw = s.rw := rfl
@[simp] theorem txLoad_moves (v : Byte) (st : TxState) (s : State) : (txLoad v st s).moves = s.moves := rfl
@[simp] theorem txLoad_drawn (v : Byte) (st : TxState) (s : State) : (txLoad v st s).drawn = s.drawn := rfl

/-! `txShiftOut` -/

@[simp] theorem txShiftOut_params (s : State) : (txShiftOut s).params = s.params := rfl
@[simp] theorem txShiftOut_phase (s : State) : (txShiftOut s).phase = s.phase := rfl
@[simp] theorem txShiftOut_txd (s : State) : (txShiftOut s).txd = s.tx.sr.getLsbD 0 := rfl
@[simp] theorem txShiftOut_rxd (s : State) : (txShiftOut s).rxd = s.rxd := rfl
@[simp] theorem txShiftOut_clkTx (s : State) : (txShiftOut s).clkTx = s.clkTx := rfl
@[simp] theorem txShiftOut_clkRx (s : State) : (txShiftOut s).clkRx = s.clkRx := rfl
@[simp] theorem txShiftOut_cts (s : State) : (txShiftOut s).cts = s.cts := rfl
@[simp] theorem txShiftOut_tx (s : State) : (txShiftOut s).tx = { s.tx with sr := s.tx.sr >>> 1, cnt := s.tx.cnt - 1#4 } := rfl
@[simp] theorem txShiftOut_rx (s : State) : (txShiftOut s).rx = s.rx := rfl
@[simp] theorem txShiftOut_snap (s : State) : (txShiftOut s).snap = s.snap := rfl
@[simp] theorem txShiftOut_rw (s : State) : (txShiftOut s).rw = s.rw := rfl
@[simp] theorem txShiftOut_moves (s : State) : (txShiftOut s).moves = s.moves := rfl
@[simp] theorem txShiftOut_drawn (s : State) : (txShiftOut s).drawn = s.drawn := rfl

/-! `rxGoto` -/

@[simp] theorem rxGoto_state (st : RxState) (rx : RxEngine) : (rxGoto st rx).state = st := rfl
@[simp] theorem rxGoto_sr (st : RxState) (rx : RxEngine) : (rxGoto st rx).sr = rx.sr := rfl
@[simp] theorem rxGoto_cnt (st : RxState) (rx : RxEngine) : (rxGoto st rx).cnt = rx.cnt := rfl
@[simp] theorem rxGoto_sync (st : RxState) (rx : RxEngine) : (rxGoto st rx).sync = rx.sync := rfl
@[simp] theorem rxGoto_dle (st : RxState) (rx : RxEngine) : (rxGoto st rx).dle = rx.dle := rfl
@[simp] theorem rxGoto_slot0 (st : RxState) (rx : RxEngine) : (rxGoto st rx).slot0 = rx.slot0 := rfl
@[simp] theorem rxGoto_slot1 (st : RxState) (rx : RxEngine) : (rxGoto st rx).slot1 = rx.slot1 := rfl
@[simp] theorem rxGoto_act (st : RxState) (rx : RxEngine) : (rxGoto st rx).act = rx.act := rfl
@[simp] theorem rxGoto_fc (st : RxState) (rx : RxEngine) : (rxGoto st rx).fc = rx.fc := rfl

/-! `rxSetDle` -/

@[simp] theorem rxSetDle_state (f : Bool) (rx : RxEngine) : (rxSetDle f rx).state = rx.state := rfl
@[simp] theorem rxSetDle_sr (f : Bool) (rx : RxEngine) : (rxSetDle f rx).sr = rx.sr := rfl
@[simp] theorem rxSetDle_cnt (f : Bool) (rx : RxEngine) : (rxSetDle f rx).cnt = rx.cnt := rfl
@[simp] theorem rxSetDle_sync (f : Bool) (rx : RxEngine) : (rxSetDle f rx).sync = rx.sync := rfl
@[simp] theorem rxSetDle_dle (f : Bool) (rx : RxEngine) : (rxSetDle f rx).dle = f := rfl
@[simp] theorem rxSetDle_slot0 (f : Bool) (rx : RxEngine) : (rxSetDle f rx).slot0 = rx.slot0 := rfl
@[simp] theorem rxSetDle_slot1 (f : Bool) (rx : RxEngine) : (rxSetDle f rx).slot1 = rx.slot1 := rfl
@[simp] theorem rxSetDle_act (f : Bool) (rx : RxEngine) : (rxSetDle f rx).act = rx.act := rfl
@[simp] theorem rxSetDle_fc (f : Bool) (rx : RxEngine) : (rxSetDle f rx).fc = rx.fc := rfl

/-! `getBit` -/

@[simp] theorem getBit_state (b : Bool) (rx : RxEngine) : (getBit b rx).state = rx.state := rfl
@[simp] theorem getBit_sr (b : Bool) (rx : RxEngine) : (getBit b rx).sr = BitVec.cons b (rx.sr.extractLsb' 1 7) := rfl
@[simp] theorem getBit_cnt (b : Bool) (rx : RxEngine) : (getBit b rx).cnt = rx.cnt + 1#8 := rfl
@[simp] theorem getBit_sync (b : Bool) (rx : RxEngine) : (getBit b rx).sync = rx.sync := rfl
@[simp] theorem getBit_dle (b : Bool) (rx : RxEngine) : (getBit b rx).dle = rx.dle := rfl
@[simp] theorem getBit_slot0 (b : Bool) (rx : RxEngine) : (getBit b rx).slot0 = rx.slot0 := rfl
@[simp] theorem getBit_slot1 (b : Bool) (rx : RxEngine) : (getBit b rx).slot1 = rx.slot1 := rfl
@[simp] theorem getBit_act (b : Bool) (rx : RxEngine) : (getBit b rx).act = rx.act := rfl
@[simp] theorem getBit_fc (b : Bool) (rx : RxEngine) : (getBit b rx).fc = rx.fc := rfl

/-! `setActiveSlot` -/

@[simp] theorem setActiveSlot_state (rx : RxEngine) (b : Buffer) : (setActiveSlot rx b).state = rx.state := by
  unfold setActiveSlot; cases rx.act <;> rfl

@[simp] theorem setActiveSlot_sr (rx : RxEngine) (b : Buffer) : (setActiveSlot rx b).sr = rx.sr := by
  unfold setActiveSlot; cases rx.act <;> rfl

@[simp] theorem setActiveSlot_cnt (rx : RxEngine) (b : Buffer) : (setActiveSlot rx b).cnt = rx.cnt := by
  unfold setActiveSlot; cases rx.act <;> rfl

@[simp] theorem setActiveSlot_sync (rx : RxEngine) (b : Buffer) : (setActiveSlot rx b).sync = rx.sync := by
  unfold setActiveSlot; cases rx.act <;> rfl

@[simp] theorem setActiveSlot_dle (rx : RxEngine) (b : Buffer) : (setActiveSlot rx b).dle = rx.dle := by
  unfold setActiveSlot; cases rx.act <;> rfl

@[simp] theorem setActiveSlot_act (rx : RxEngine) (b : Buffer) : (setActiveSlot rx b).act = rx.act := by
  unfold setActiveSlot; cases rx.act <;> rfl

@[simp] theorem setActiveSlot_fc (rx : RxEngine) (b : Buffer) : (setActiveSlot rx b).fc = rx.fc := by
  unfold setActiveSlot; cases rx.act <;> rfl

@[simp] theorem activeSlot_setActiveSlot (rx : RxEngine) (b : Buffer) :
    activeSlot (setActiveSlot rx b) = b := by
  simp only [activeSlot, setActiveSlot_act]; unfold setActiveSlot; cases rx.act <;> rfl

@[simp] theorem savedSlot_setActiveSlot (rx : RxEngine) (b : Buffer) :
    savedSlot (setActiveSlot rx b) = savedSlot rx := by
  simp only [savedSlot, setActiveSlot_act]; unfold setActiveSlot; cases rx.act <;> rfl

/-! The slots do not depend on the other fields. -/

@[simp] theorem activeSlot_rxGoto (st : RxState) (rx : RxEngine) :
    activeSlot (rxGoto st rx) = activeSlot rx := rfl

@[simp] theorem savedSlot_rxGoto (st : RxState) (rx : RxEngine) :
    savedSlot (rxGoto st rx) = savedSlot rx := rfl

@[simp] theorem activeSlot_rxSetDle (f : Bool) (rx : RxEngine) :
    activeSlot (rxSetDle f rx) = activeSlot rx := rfl

@[simp] theorem savedSlot_rxSetDle (f : Bool) (rx : RxEngine) :
    savedSlot (rxSetDle f rx) = savedSlot rx := rfl

@[simp] theorem activeSlot_getBit (b : Bool) (rx : RxEngine) :
    activeSlot (getBit b rx) = activeSlot rx := rfl

@[simp] theorem savedSlot_getBit (b : Bool) (rx : RxEngine) :
    savedSlot (getBit b rx) = savedSlot rx := rfl

end Sys2Proof.Machine
end

