-- ==== Sys2Proof/Laws/Engines.lean ====
section
/-! SUPPORT. One lemma per shared operation of the engines and of the step that says everything it can
do, so that a proof cites it and does not unfold the operation. -/

namespace Sys2Proof.Machine

/-- Everything `RxAppend` can do: the byte is appended to the active slot, or dropped. -/
theorem rxAppend_cases (cap : Nat) (v : Byte) (rx : RxEngine) :
    (cap - 1 ≤ (activeSlot rx).len ∧ rxAppend cap v rx = rx) ∨
    ((activeSlot rx).len < cap - 1 ∧ ∃ b, bufWrite cap (activeSlot rx) v = .ok b ∧
      b.len = (activeSlot rx).len + 1 ∧ rxAppend cap v rx = setActiveSlot rx b) := by
  unfold rxAppend
  obtain ⟨h, e⟩ | ⟨h, e⟩ := bufWrite_cases cap (activeSlot rx) v
  · exact .inl ⟨h, by rw [e]⟩
  · exact .inr ⟨h, _, e, rfl, by rw [e]⟩

@[simp] theorem rxAppend_state (cap : Nat) (v : Byte) (rx : RxEngine) :
    (rxAppend cap v rx).state = rx.state := by
  obtain ⟨_, e⟩ | ⟨_, b, _, _, e⟩ := rxAppend_cases cap v rx <;> simp [e]

@[simp] theorem rxAppend_sr (cap : Nat) (v : Byte) (rx : RxEngine) :
    (rxAppend cap v rx).sr = rx.sr := by
  obtain ⟨_, e⟩ | ⟨_, b, _, _, e⟩ := rxAppend_cases cap v rx <;> simp [e]

@[simp] theorem rxAppend_cnt (cap : Nat) (v : Byte) (rx : RxEngine) :
    (rxAppend cap v rx).cnt = rx.cnt := by
  obtain ⟨_, e⟩ | ⟨_, b, _, _, e⟩ := rxAppend_cases cap v rx <;> simp [e]

@[simp] theorem rxAppend_sync (cap : Nat) (v : Byte) (rx : RxEngine) :
    (rxAppend cap v rx).sync = rx.sync := by
  obtain ⟨_, e⟩ | ⟨_, b, _, _, e⟩ := rxAppend_cases cap v rx <;> simp [e]

@[simp] theorem rxAppend_dle (cap : Nat) (v : Byte) (rx : RxEngine) :
    (rxAppend cap v rx).dle = rx.dle := by
  obtain ⟨_, e⟩ | ⟨_, b, _, _, e⟩ := rxAppend_cases cap v rx <;> simp [e]

@[simp] theorem rxAppend_act (cap : Nat) (v : Byte) (rx : RxEngine) :
    (rxAppend cap v rx).act = rx.act := by
  obtain ⟨_, e⟩ | ⟨_, b, _, _, e⟩ := rxAppend_cases cap v rx <;> simp [e]

@[simp] theorem rxAppend_fc (cap : Nat) (v : Byte) (rx : RxEngine) :
    (rxAppend cap v rx).fc = rx.fc := by
  obtain ⟨_, e⟩ | ⟨_, b, _, _, e⟩ := rxAppend_cases cap v rx <;> simp [e]

@[simp] theorem savedSlot_rxAppend (cap : Nat) (v : Byte) (rx : RxEngine) :
    savedSlot (rxAppend cap v rx) = savedSlot rx := by
  obtain ⟨_, e⟩ | ⟨_, b, _, _, e⟩ := rxAppend_cases cap v rx <;> simp [e]

/-- An append keeps the active slot sound. -/
theorem rxAppend_keeps_wf (cap : Nat) (v : Byte) (rx : RxEngine)
    (h : (activeSlot rx).wf cap = true) : (activeSlot (rxAppend cap v rx)).wf cap = true := by
  obtain ⟨_, e⟩ | ⟨_, b, hb, _, e⟩ := rxAppend_cases cap v rx
  · rwa [e]
  · rw [e, activeSlot_setActiveSlot]; exact bufWrite_keeps_wf cap _ _ v h hb

/-- After an append the active slot is not empty, whatever the capacity above 1. -/
theorem rxAppend_not_empty (cap : Nat) (v : Byte) (rx : RxEngine) (hc : 2 ≤ cap) :
    0 < (activeSlot (rxAppend cap v rx)).len := by
  obtain ⟨h, e⟩ | ⟨_, b, _, hl, e⟩ := rxAppend_cases cap v rx
  · rw [e]; omega
  · rw [e, activeSlot_setActiveSlot, hl]; omega

/-- An append into a slot with room adds the byte to its contents. -/
theorem rxAppend_contents (cap : Nat) (v : Byte) (rx : RxEngine)
    (h : (activeSlot rx).wf cap = true) (hroom : (activeSlot rx).len < cap - 1) :
    bufContents (activeSlot (rxAppend cap v rx)) = bufContents (activeSlot rx) ++ [v] := by
  obtain ⟨hf, _⟩ | ⟨_, b, hb, _, e⟩ := rxAppend_cases cap v rx
  · omega
  · rw [e, activeSlot_setActiveSlot]
    exact bufWrite_contents cap _ _ v ((Buffer.wf_iff _ _).mp h).2.2.1 hb

/-- The DLE flag plays no part in an append. -/
theorem rxAppend_rxSetDle (cap : Nat) (v : Byte) (f : Bool) (rx : RxEngine) :
    rxAppend cap v (rxSetDle f rx) = rxSetDle f (rxAppend cap v rx) := by
  obtain ⟨st, sr, cnt, sync, dle, s0, s1, act, fc⟩ := rx
  cases act <;> (unfold rxAppend; simp only [rxSetDle, activeSlot]; cases bufWrite cap _ v <;> rfl)

/-- Everything mark frame complete does to the two slots (R226). -/
theorem markFrameComplete_slots (rx : RxEngine) :
    activeSlot (markFrameComplete rx) = bufClear (savedSlot rx) ∧
      savedSlot (markFrameComplete rx) = bufSetComplete (activeSlot rx) := by
  obtain ⟨st, sr, cnt, sync, dle, s0, s1, act, fc⟩ := rx
  cases act <;> exact ⟨rfl, rfl⟩

@[simp] theorem markFrameComplete_state (rx : RxEngine) :
    (markFrameComplete rx).state = rx.state := by
  simp [markFrameComplete]

@[simp] theorem markFrameComplete_sr (rx : RxEngine) : (markFrameComplete rx).sr = rx.sr := by
  simp [markFrameComplete]

@[simp] theorem markFrameComplete_cnt (rx : RxEngine) : (markFrameComplete rx).cnt = rx.cnt := by
  simp [markFrameComplete]

@[simp] theorem markFrameComplete_sync (rx : RxEngine) :
    (markFrameComplete rx).sync = rx.sync := by
  simp [markFrameComplete]

@[simp] theorem markFrameComplete_dle (rx : RxEngine) : (markFrameComplete rx).dle = rx.dle := by
  simp [markFrameComplete]

@[simp] theorem markFrameComplete_act (rx : RxEngine) :
    (markFrameComplete rx).act = !rx.act := by
  simp [markFrameComplete]

@[simp] theorem markFrameComplete_fc (rx : RxEngine) : (markFrameComplete rx).fc = true := rfl

/-- The slots of an engine are sound exactly when its active and its saved slot are. -/
theorem slots_wf_iff (cap : Nat) (rx : RxEngine) :
    (rx.slot0.wf cap = true ∧ rx.slot1.wf cap = true) ↔
      ((activeSlot rx).wf cap = true ∧ (savedSlot rx).wf cap = true) := by
  unfold activeSlot savedSlot
  cases rx.act
  · exact Iff.rfl
  · exact And.comm

/-- Everything a fetch can do (R181, step 2). -/
theorem txFetch_cases (s : State) :
    (s.tx.q.pos < s.tx.q.len ∧ s.tx.q.pos < s.params.cap ∧
      txFetch s = .ok (txShiftOut (txLoad (memByte s.tx.q.data s.tx.q.pos) .xmit
        { s with tx := { s.tx with q := { s.tx.q with pos := s.tx.q.pos + 1 } } }))) ∨
    (s.tx.q.len ≤ s.tx.q.pos ∧ s.tx.stopOnIdle = true ∧
      txFetch s = .ok (driveTxd Config.markLevel (txLoad Config.syn .off s))) ∨
    (s.tx.q.len ≤ s.tx.q.pos ∧ s.tx.stopOnIdle = false ∧
      txFetch s = .ok (txShiftOut (txLoad Config.syn .idle s))) ∨
    (s.tx.q.pos < s.tx.q.len ∧ s.params.cap ≤ s.tx.q.pos ∧
      txFetch s = .fault (.noSuchIndex s.tx.q.pos)) := by
  unfold txFetch
  obtain ⟨h, e⟩ | ⟨h, h2, e⟩ | ⟨h, h2, e⟩ := bufRead_cases s.params.cap s.tx.q
  · rw [e]
    cases hs : s.tx.stopOnIdle
    · exact .inr (.inr (.inl ⟨h, rfl, by simp⟩))
    · exact .inr (.inl ⟨h, rfl, by simp⟩)
  · rw [e]; exact .inl ⟨h, h2, rfl⟩
  · rw [e]; exact .inr (.inr (.inr ⟨h, h2, rfl⟩))

/-- Everything `sendBit` can do (R181). -/
theorem sendBit_cases (s : State) :
    (s.tx.state = .off ∧ sendBit s = .ok s) ∨
    (s.tx.state ≠ .off ∧ s.tx.cnt ≠ 0#4 ∧ sendBit s = .ok (txShiftOut s)) ∨
    (s.tx.state ≠ .off ∧ s.tx.cnt = 0#4 ∧ sendBit s = txFetch s) := by
  unfold sendBit
  cases hs : s.tx.state
  · exact .inl ⟨rfl, rfl⟩
  all_goals
    by_cases hc : s.tx.cnt = 0#4
    · exact .inr (.inr ⟨by simp, hc, by simp [hc]⟩)
    · exact .inr (.inl ⟨by simp, hc, by simp [hc]⟩)

/-- `sendBit` answers no sentinel. -/
theorem sendBit_not_sentinel (s : State) (c : ReasonCode) : sendBit s ≠ .sentinel c := by
  obtain ⟨_, e⟩ | ⟨_, _, e⟩ | ⟨_, _, e⟩ := sendBit_cases s
  · simp [e]
  · simp [e]
  · obtain ⟨_, _, e'⟩ | ⟨_, _, e'⟩ | ⟨_, _, e'⟩ | ⟨_, _, e'⟩ := txFetch_cases s <;> simp [e, e']

/-- Everything `processBit` can do (R222). -/
theorem processBit_cases (p : Params) (rx : RxEngine) :
    (rx.state = .outOfSync ∧ rx.sr = Config.syn ∧
      processBit p rx =
        { rxAppend p.cap Config.syn rx with cnt := 0#8, sync := true, state := .idle }) ∨
    (rx.state = .outOfSync ∧ rx.sr ≠ Config.syn ∧ processBit p rx = rx) ∨
    (rx.state ≠ .outOfSync ∧ rx.cnt = 8#8 ∧
      processBit p rx = processByte p rx.sr { rx with cnt := 0#8 }) ∨
    (rx.state ≠ .outOfSync ∧ rx.cnt ≠ 8#8 ∧ processBit p rx = rx) := by
  unfold processBit
  cases hs : rx.state
  · unfold huntSync
    by_cases h : rx.sr = Config.syn
    · exact .inl ⟨rfl, h, by simp [h]⟩
    · exact .inr (.inl ⟨rfl, h, by simp [h]⟩)
  all_goals
    by_cases h : rx.cnt = 8#8
    · exact .inr (.inr (.inl ⟨by simp, h, by simp [h]⟩))
    · exact .inr (.inr (.inr ⟨by simp, h, by simp [h]⟩))

/-- The two parts of `getBit`: the bit shifted in and the counter moved on (R221). -/
theorem getBit_eq (bit : Bool) (rx : RxEngine) :
    getBit bit rx =
      { rx with sr := BitVec.cons bit (rx.sr.extractLsb' 1 7), cnt := rx.cnt + 1#8 } := rfl

/-- Everything a byte read can answer. -/
theorem respondByte_cases (r : Result Byte) (s : State) :
    (∃ v, r = .ok v ∧ respondByte r s = .next (respondOk (zextByte v) s)) ∨
    (∃ c, r = .sentinel c ∧ respondByte r s = .next (respondFail c s)) ∨
    (∃ f, r = .fault f ∧ respondByte r s = .fault f) := by
  cases r with
  | ok v => exact .inl ⟨v, rfl, rfl⟩
  | sentinel c => exact .inr (.inl ⟨c, rfl, rfl⟩)
  | fault f => exact .inr (.inr ⟨f, rfl, rfl⟩)

/-- Everything `takeMove` can do. -/
theorem takeMove_cases (s : State) :
    (∃ m rest, s.moves = m :: rest ∧ takeMove s = (m, { s with moves := rest })) ∨
    (s.moves = [] ∧ takeMove s = (Config.freeMove s.drawn, { s with drawn := s.drawn + 1 })) := by
  unfold takeMove
  cases h : s.moves with
  | nil => exact .inr ⟨rfl, rfl⟩
  | cons m rest => exact .inl ⟨m, rest, rfl, rfl⟩

/-- A move that was offered is the one taken. -/
@[simp] theorem takeMove_offerMove (m : Move) (s : State) : takeMove (offerMove m s) = (m, s) := rfl

/-- Everything a step can do: an instruction's meaning, or the answer to an illegal word. -/
theorem step_cases (s : State) :
    (∃ cw t i, takeMove s = (.command cw, t) ∧ decode (.command cw) = .ok i ∧ step s = exec i t) ∨
    (∃ cw t r, takeMove s = (.command cw, t) ∧ decode (.command cw) = .error r ∧
      step s = .next (answerIllegal t)) ∨
    (∃ level t, takeMove s = (.tick level, t) ∧
      step s = exec (decodePhase t.phase) (lineSets level t)) := by
  unfold step
  rcases h : takeMove s with ⟨m, t⟩
  cases m with
  | command cw =>
    cases hd : decode (.command cw) with
    | ok i => exact .inl ⟨cw, t, i, rfl, hd, by simp [hd]⟩
    | error r => exact .inr (.inl ⟨cw, t, r, rfl, hd, by simp [hd]⟩)
  | tick level => exact .inr (.inr ⟨level, t, rfl, rfl⟩)

end Sys2Proof.Machine
end

