-- ==== Sys2Proof/Laws/Invariant.lean ====
section
/-! SUPPORT. The invariant of Safety.lean as propositions, and what each part gives (spec/10_state.md R33,
R53). -/

namespace Sys2Proof.Machine

theorem Params.wf_iff (p : Params) : p.wf = true ↔ 2 ≤ p.cap ∧ p.cap ≤ 65536 := by
  simp [Params.wf]

theorem State.inv_iff (s : State) :
    s.inv = true ↔
      s.params.wf = true ∧ txInv s.params.cap s.tx s.txd = true ∧ rxInv s.params s.rx = true ∧
        s.snap.wf s.params.cap = true ∧ clockInv s = true := by
  simp [State.inv, and_assoc]

theorem txInv_iff (cap : Nat) (tx : TxEngine) (txd : Bool) :
    txInv cap tx txd = true ↔
      (tx.state = .off → txd = Config.markLevel) ∧ tx.cnt.toNat ≤ 8 ∧ tx.q.wf cap = true := by
  unfold txInv
  by_cases h : tx.state = .off <;> simp [h, and_assoc]

theorem rxInv_iff (p : Params) (rx : RxEngine) :
    rxInv p rx = true ↔
      rx.sync = decide (rx.state ≠ .outOfSync) ∧
      (rx.state = .bcc1 ∨ rx.state = .bcc2 ∨ rx.state = .pad → rx.dle = false) ∧
      (rx.state = .data → 0 < (activeSlot rx).len) ∧
      (rx.state = .transparentData → p.ttdNext = .transparentData ∨ 0 < (activeSlot rx).len) ∧
      (rx.state = .outOfSync ∨ rx.cnt.toNat < 8) ∧
      ((activeSlot rx).wf p.cap = true ∧ (savedSlot rx).wf p.cap = true) ∧
      (rx.fc = true → 0 < (savedSlot rx).len ∧ (savedSlot rx).cflag = true) := by
  rw [← slots_wf_iff]
  unfold rxInv activeNotEmpty
  cases rx.state <;> cases rx.fc <;> cases rx.dle <;> simp [and_assoc]

/-- In a state that keeps the invariant the send queue is sound. -/
theorem queue_wf (s : State) (h : s.inv = true) : s.tx.q.wf s.params.cap = true :=
  ((txInv_iff _ _ _).mp ((State.inv_iff s).mp h).2.1).2.2

/-- In a state that keeps the invariant both slots are sound. -/
theorem slots_wf (s : State) (h : s.inv = true) :
    (activeSlot s.rx).wf s.params.cap = true ∧ (savedSlot s.rx).wf s.params.cap = true :=
  ((rxInv_iff _ _).mp ((State.inv_iff s).mp h).2.2.1).2.2.2.2.2.1

/-- In a state that keeps the invariant the capacity is 2 to 65536. -/
theorem cap_bounds (s : State) (h : s.inv = true) : 2 ≤ s.params.cap ∧ s.params.cap ≤ 65536 :=
  (Params.wf_iff _).mp ((State.inv_iff s).mp h).1

/-- The invariant does not read RXD, CTS, RW or the model's own fields. -/
theorem inv_congr (s t : State) (hp : t.params = s.params) (hx : t.tx = s.tx) (hd : t.txd = s.txd)
    (hr : t.rx = s.rx) (hs : t.snap = s.snap) (hc : t.clkTx = s.clkTx) (hk : t.clkRx = s.clkRx)
    (hf : t.phase = s.phase) : t.inv = s.inv := by
  simp only [State.inv, clockInv, hp, hx, hd, hr, hs, hc, hk, hf]

end Sys2Proof.Machine
end

