-- ==== Sys2Proof/Laws/PerInstr.lean ====
section
/-! SUPPORT. Statements made per instruction: the encoding of each lies in its row of
spec/opcode_table.json. -/

namespace Sys2Proof.Laws

/-- A row of spec/opcode_table.json: how many bits it gives, its mask and its match. -/
structure TableRow where
  bits : Nat
  mask : Nat
  pattern : Nat
  deriving DecidableEq, Repr

/-- The row of each instruction, copied from the table. -/
def tableRow : Instr → TableRow
  | .txClear => ⟨32, 0xFFFFFFFF, 0x01000000⟩
  | .txAdd _ => ⟨32, 0xFFFFFF00, 0x02000000⟩
  | .txStart => ⟨32, 0xFFFFFFFF, 0x03000000⟩
  | .txStop => ⟨32, 0xFFFFFFFF, 0x04000000⟩
  | .txStopOnIdle => ⟨32, 0xFFFFFFFF, 0x05000000⟩
  | .txRemaining => ⟨32, 0xFFFFFFFF, 0x06000000⟩
  | .txState => ⟨32, 0xFFFFFFFF, 0x07000000⟩
  | .rxStart => ⟨32, 0xFFFFFFFF, 0x10000000⟩
  | .rxStop => ⟨32, 0xFFFFFFFF, 0x11000000⟩
  | .rxGetSaved => ⟨32, 0xFFFFFFFF, 0x12000000⟩
  | .rxFrameComplete => ⟨32, 0xFFFFFFFF, 0x13000000⟩
  | .rxFrameLen => ⟨32, 0xFFFFFFFF, 0x14000000⟩
  | .rxFrameByte _ => ⟨32, 0xFFFF0000, 0x15000000⟩
  | .rxState => ⟨32, 0xFFFFFFFF, 0x16000000⟩
  | .snapLen => ⟨32, 0xFFFFFFFF, 0x20000000⟩
  | .snapByte _ => ⟨32, 0xFFFF0000, 0x21000000⟩
  | .ph0SendBit => ⟨2, 0x3, 0x0⟩
  | .ph1ClkRise => ⟨2, 0x3, 0x1⟩
  | .ph2RxSample => ⟨2, 0x3, 0x2⟩
  | .ph3ClkFall => ⟨2, 0x3, 0x3⟩

/-- The width of an encoded instruction and its bits as a number. -/
def codeBits : Code → Nat × Nat
  | .command cw => (32, cw.toNat)
  | .phase p => (2, p.toNat)

/-- The encoding of a well-formed instruction has its row's width, and its row's fixed bits. -/
def EncodingMatchesTable.Statement (i : Instr) : Prop :=
  i.wellFormed = true →
    (codeBits (encode i)).1 = (tableRow i).bits ∧
      (codeBits (encode i)).2 &&& (tableRow i).mask = (tableRow i).pattern

/-- A number below a power of two has no bits of a mask that is a multiple of it. -/
theorem and_mask_of_lt (op arg k m : Nat) (h : arg < 2 ^ k) :
    (op * 2 ^ k + arg) &&& (m * 2 ^ k) = (op &&& m) * 2 ^ k := by
  apply Nat.eq_of_testBit_eq
  intro j
  rw [Nat.testBit_and, Nat.mul_comm op, Nat.testBit_two_pow_mul_add op h, Nat.testBit_mul_two_pow,
    Nat.testBit_mul_two_pow, Nat.testBit_and]
  by_cases hj : j < k
  · simp [hj, Nat.not_le.mpr hj]
  · simp [hj, Nat.not_lt.mp hj]

theorem EncodingMatchesTable.txClear : EncodingMatchesTable.Statement .txClear := fun _ => ⟨rfl, rfl⟩

theorem EncodingMatchesTable.txAdd (b : Byte) : EncodingMatchesTable.Statement (.txAdd b) := by
  intro _
  refine ⟨rfl, ?_⟩
  have h := b.isLt
  simp only [encode, codeBits, tableRow, Machine.commandWord_toNat]
  have e := and_mask_of_lt 131072 b.toNat 8 16777215 h
  have m : b.toNat % 65536 = b.toNat := Nat.mod_eq_of_lt (by omega)
  simpa [m] using e

theorem EncodingMatchesTable.txStart : EncodingMatchesTable.Statement .txStart := fun _ => ⟨rfl, rfl⟩

theorem EncodingMatchesTable.txStop : EncodingMatchesTable.Statement .txStop := fun _ => ⟨rfl, rfl⟩

theorem EncodingMatchesTable.txStopOnIdle : EncodingMatchesTable.Statement .txStopOnIdle := fun _ => ⟨rfl, rfl⟩

theorem EncodingMatchesTable.txRemaining : EncodingMatchesTable.Statement .txRemaining := fun _ => ⟨rfl, rfl⟩

theorem EncodingMatchesTable.txState : EncodingMatchesTable.Statement .txState := fun _ => ⟨rfl, rfl⟩

theorem EncodingMatchesTable.rxStart : EncodingMatchesTable.Statement .rxStart := fun _ => ⟨rfl, rfl⟩

theorem EncodingMatchesTable.rxStop : EncodingMatchesTable.Statement .rxStop := fun _ => ⟨rfl, rfl⟩

theorem EncodingMatchesTable.rxGetSaved : EncodingMatchesTable.Statement .rxGetSaved := fun _ => ⟨rfl, rfl⟩

theorem EncodingMatchesTable.rxFrameComplete : EncodingMatchesTable.Statement .rxFrameComplete := fun _ => ⟨rfl, rfl⟩

theorem EncodingMatchesTable.rxFrameLen : EncodingMatchesTable.Statement .rxFrameLen := fun _ => ⟨rfl, rfl⟩

theorem EncodingMatchesTable.rxFrameByte (n : Nat) : EncodingMatchesTable.Statement (.rxFrameByte n) := by
  intro _
  refine ⟨rfl, ?_⟩
  have h : n % 65536 < 65536 := Nat.mod_lt _ (by decide)
  simp only [encode, codeBits, tableRow, Machine.commandWord_toNat]
  have e := and_mask_of_lt 5376 (n % 65536) 16 65535 h
  simpa using e

theorem EncodingMatchesTable.rxState : EncodingMatchesTable.Statement .rxState := fun _ => ⟨rfl, rfl⟩

theorem EncodingMatchesTable.snapLen : EncodingMatchesTable.Statement .snapLen := fun _ => ⟨rfl, rfl⟩

theorem EncodingMatchesTable.snapByte (n : Nat) : EncodingMatchesTable.Statement (.snapByte n) := by
  intro _
  refine ⟨rfl, ?_⟩
  have h : n % 65536 < 65536 := Nat.mod_lt _ (by decide)
  simp only [encode, codeBits, tableRow, Machine.commandWord_toNat]
  have e := and_mask_of_lt 8448 (n % 65536) 16 65535 h
  simpa using e

theorem EncodingMatchesTable.ph0SendBit : EncodingMatchesTable.Statement .ph0SendBit := fun _ => ⟨rfl, rfl⟩

theorem EncodingMatchesTable.ph1ClkRise : EncodingMatchesTable.Statement .ph1ClkRise := fun _ => ⟨rfl, rfl⟩

theorem EncodingMatchesTable.ph2RxSample : EncodingMatchesTable.Statement .ph2RxSample := fun _ => ⟨rfl, rfl⟩

theorem EncodingMatchesTable.ph3ClkFall : EncodingMatchesTable.Statement .ph3ClkFall := fun _ => ⟨rfl, rfl⟩

end Sys2Proof.Laws
end

