-- ==== Sys2Proof/Laws/Runs.lean ====
section
/-! SUPPORT. Runs taken apart: what a run over joined lists, or over a sum of lengths, does. -/

namespace Sys2Proof.Machine

theorem runMoves_append (ms ns : List Move) (s t : State) (h : runMoves ms s = .next t) :
    runMoves (ms ++ ns) s = runMoves ns t := by
  induction ms generalizing s with
  | nil => cases h; rfl
  | cons m ms ih =>
    simp only [runMoves, List.cons_append] at h ⊢
    cases hs : step (offerMove m s) with
    | next u => rw [hs] at h; exact ih u h
    | fault f => rw [hs] at h; cases h
    | refused r => rw [hs] at h; cases h

theorem sendBits_add (n m : Nat) (s t : State) (h : sendBits n s = .ok t) :
    sendBits (n + m) s = sendBits m t := by
  induction n generalizing s with
  | zero => cases h; rw [Nat.zero_add]
  | succ n ih =>
    rw [Nat.succ_add]
    simp only [sendBits] at h ⊢
    cases hs : sendBit s with
    | ok u => rw [hs] at h; exact ih u h
    | sentinel c => rw [hs] at h; cases h
    | fault f => rw [hs] at h; cases h

theorem txdTrace_add (n m : Nat) (s t : State) (h : sendBits n s = .ok t) :
    txdTrace (n + m) s = txdTrace n s ++ txdTrace m t := by
  induction n generalizing s with
  | zero => cases h; rw [Nat.zero_add]; rfl
  | succ n ih =>
    rw [Nat.succ_add]
    simp only [sendBits, txdTrace] at h ⊢
    cases hs : sendBit s with
    | ok u => rw [hs] at h; simp only [ih u h, List.cons_append]
    | sentinel c => rw [hs] at h; cases h
    | fault f => rw [hs] at h; cases h

theorem rxSamples_append (p : Params) (bs cs : List Bool) (rx : RxEngine) :
    rxSamples p (bs ++ cs) rx = rxSamples p cs (rxSamples p bs rx) := by
  induction bs generalizing rx with
  | nil => rfl
  | cons b bs ih => simp only [List.cons_append, rxSamples, ih]

theorem rxBytes_append (p : Params) (bs cs : List Byte) (rx : RxEngine) :
    rxBytes p (bs ++ cs) rx = rxBytes p cs (rxBytes p bs rx) := by
  induction bs generalizing rx with
  | nil => rfl
  | cons b bs ih => simp only [List.cons_append, rxBytes, ih]

theorem hostMoves_append (is js : List Instr) :
    hostMoves (is ++ js) = hostMoves is ++ hostMoves js := by
  induction is with
  | nil => rfl
  | cons i is ih =>
    simp only [List.cons_append, hostMoves]
    cases encode i <;> simp [ih]

theorem runMoves_issueAfter (gap : List Move) (i : Instr) (s t : State)
    (h : runMoves gap s = .next t) : issueAfter gap i s = runMoves (hostMoves [i]) t :=
  runMoves_append gap _ s t h

@[simp] theorem valueField_okWord (v : Half) : valueField (okWord v) = v := by
  apply BitVec.eq_of_toNat_eq
  have h := okWord_toNat v
  have hv := v.isLt
  simp [valueField, h, Nat.mod_eq_of_lt hv]

@[simp] theorem failField_okWord (v : Half) : failField (okWord v) = false := okWord_fail_bit v

@[simp] theorem failField_failWord (c : ReasonCode) : failField (failWord c) = true := by
  cases c <;> decide

/-- A command answered without FAIL: its VALUE, then what the rest of the list gives. -/
theorem issue_cons_ok (ticks : Nat → List Bool) (k : Nat) (i : Instr) (is : List Instr) (s t : State)
    (v : Half) (h : issueAfter (tickMoves (ticks k)) i s = .next t) (hr : t.rw = okWord v) :
    issue ticks k (i :: is) s = outcomeThen (issue ticks (k + 1) is t) fun r =>
      .next { r with values := v :: r.values } := by
  simp only [issue, h, outcomeThen, hr, failField_okWord, valueField_okWord]; rfl

/-- A command answered with FAIL ends the list. -/
theorem issue_cons_fail (ticks : Nat → List Bool) (k : Nat) (i : Instr) (is : List Instr)
    (s t : State) (c : ReasonCode) (h : issueAfter (tickMoves (ticks k)) i s = .next t)
    (hr : t.rw = failWord c) :
    issue ticks k (i :: is) s = .next { values := [], failure := some (failWord c), state := t } := by
  simp only [issue, h, outcomeThen, hr, failField_failWord]; rfl

/-- The byte at the cursor is the first one pending. -/
theorem bufPending_eq_cons (b : Buffer) (h : b.pos < b.len) :
    bufPending b = memByte b.data b.pos :: bufPending { b with pos := b.pos + 1 } := by
  simp only [bufPending]
  rw [List.drop_eq_getElem_cons (by simpa using h)]
  congr 1
  simp [bufContents]

end Sys2Proof.Machine
end

