-- ==== Sys2Proof/Tests/Slice0.lean ====
section
/-! SUPPORT. Tests: ill-formed terms refused, words written out from the spec's encodings, one-step vectors
of spec/95_test_vectors.md, and for every statement with hypotheses a state and operands that meet
them. -/

open Sys2Proof Sys2Proof.Machine Sys2Proof.Claims

namespace Sys2Proof.Tests

/-! ### Helpers -/

/-- The next state of an outcome; the state after reset where there is none. -/
def after (o : Host.Outcome State Fault Refusal) : State :=
  match o with
  | .next t => t
  | .fault _ | .refused _ => State.reset

/-- The outcome is a next state. -/
def isNext (o : Host.Outcome State Fault Refusal) : Bool :=
  match o with
  | .next _ => true
  | .fault _ | .refused _ => false

/-- A buffer with these contents and cursor. -/
def filled (bs : List Byte) (pos : Nat) : Buffer :=
  let b := bs.foldl (fun b v => match bufWrite 65536 b v with
    | .ok b' => b'
    | .sentinel _ | .fault _ => b) Buffer.fresh
  { b with pos := pos }

/-- Reset with a send engine in this state, TXD at this level. -/
def sending (st : TxState) (cnt : BitVec 4) (sr : Byte) (stop txd : Bool) (q : Buffer) : State :=
  { State.reset with
    txd := txd, tx := { state := st, sr := sr, cnt := cnt, stopOnIdle := stop, q := q } }

/-- Reset with a synchronised receive engine in this state, with these bytes in slot 0 (active). -/
def receiving (st : RxState) (dle : Bool) (cnt : BitVec 8) (sr : Byte) (bs : List Byte) : State :=
  { State.reset with
    rx := { State.reset.rx with
      state := st, sync := true, dle := dle, cnt := cnt, sr := sr, slot0 := filled bs 0 } }

/-- A frame of two bytes is complete in slot 0; slot 1 is active and empty. -/
def completed : State :=
  { State.reset with
    rx := { State.reset.rx with
      state := .idle, sync := true, act := true, fc := true
      slot0 := { filled [0x32, 0x37] 0 with cflag := true } } }

/-- The snapshot holds these bytes. -/
def snapped (bs : List Byte) : State :=
  { State.reset with snap := { data := (filled bs 0).data, len := bs.length } }

/-- Reset with `N = 2`, so a usable capacity of one byte, and these bytes queued. -/
def tiny (bs : List Byte) : State :=
  { State.resetWith { cap := 2, ttdNext := .idle } with
    tx := { (State.resetWith { cap := 2, ttdNext := .idle }).tx with q := filled bs 0 } }

/-! ### WellFormed: the check of each indexed command refuses an index above 16 bits (R112) -/

theorem test_index_65536_is_ill_formed_in_rx_frame_byte :
    (Instr.rxFrameByte 65536).wellFormed = false := by decide
theorem test_index_65536_is_ill_formed_in_snap_byte :
    (Instr.snapByte 65536).wellFormed = false := by decide

/-! ### Decoding: every constructor's word, written out from R111, R115 and R119 -/

theorem test_decode_tx_commands :
    decodeTableWord 32 0x01000000 = some .txClear ∧
    decodeTableWord 32 0x02000041 = some (.txAdd 0x41) ∧
    decodeTableWord 32 0x020000FF = some (.txAdd 0xFF) ∧
    decodeTableWord 32 0x03000000 = some .txStart ∧
    decodeTableWord 32 0x04000000 = some .txStop ∧
    decodeTableWord 32 0x05000000 = some .txStopOnIdle ∧
    decodeTableWord 32 0x06000000 = some .txRemaining ∧
    decodeTableWord 32 0x07000000 = some .txState := by decide
theorem test_decode_rx_commands :
    decodeTableWord 32 0x10000000 = some .rxStart ∧
    decodeTableWord 32 0x11000000 = some .rxStop ∧
    decodeTableWord 32 0x12000000 = some .rxGetSaved ∧
    decodeTableWord 32 0x13000000 = some .rxFrameComplete ∧
    decodeTableWord 32 0x14000000 = some .rxFrameLen ∧
    decodeTableWord 32 0x15000001 = some (.rxFrameByte 1) ∧
    decodeTableWord 32 0x1500FFFF = some (.rxFrameByte 65535) ∧
    decodeTableWord 32 0x16000000 = some .rxState := by decide
theorem test_decode_snap_commands :
    decodeTableWord 32 0x20000000 = some .snapLen ∧
    decodeTableWord 32 0x21000002 = some (.snapByte 2) ∧
    decodeTableWord 32 0x210000FF = some (.snapByte 255) := by decide
theorem test_decode_phases :
    decodeTableWord 8 0 = some .ph0SendBit ∧ decodeTableWord 8 1 = some .ph1ClkRise ∧
    decodeTableWord 8 2 = some .ph2RxSample ∧ decodeTableWord 8 3 = some .ph3ClkFall := by decide
/-- VB1 to VB9: each kind of ill-formed word. -/
theorem test_illegal_words :
    ∀ w ∈ [0x00000000, 0x08000000, 0x17000000, 0x22000000, 0xFF000000, 0x01000001, 0x02000100,
      0x02010041, 0x15FF0000], decodeTableWord 32 w = none := by decide
/-- VB6, VB7, VB8: the ILLEGAL answer. -/
theorem test_illegal_answer :
    (after (step (State.reset.withFetchWord 32 0x02010041))).rw = 0xFF000000 := by decide

/-! ### One step of each instruction (the vector of spec/95_test_vectors.md is named) -/

/-- VC10. -/
theorem test_tx_clear :
    (let t := after (exec .txClear (sending .xmit 3 0x05 true false (filled [1, 2, 3, 4, 5] 2)))
     txStat t = 0x0008 ∧ t.tx.q.len = 0 ∧ t.tx.q.pos = 0) := by decide
/-- VB14, VA1. -/
theorem test_tx_add :
    (let t := after (exec (.txAdd 0xFF) State.reset)
     t.rw = 0x00000001 ∧ bufContents t.tx.q = [0xFF]) := by decide
/-- VA3, VC16: the usable capacity is `N - 1`. -/
theorem test_tx_add_full : (after (exec (.txAdd 0) (tiny [0x41]))).rw = 0x81000000 := by decide
/-- VC9. -/
theorem test_tx_start : txStat (after (exec .txStart State.reset)) = 0x000A := by decide
/-- VC13, VC14: the stop is cancelled and the byte in progress goes on. -/
theorem test_tx_start_keeps_count :
    txStat (after (exec .txStart (sending .idle 4 0x03 true true (filled [] 0)))) = 0x004A := by
  decide
/-- VC11. -/
theorem test_tx_stop :
    txStat (after (exec .txStop (sending .xmit 5 0x14 false false (filled [0xA5] 1)))) = 0x0058 := by
  decide
/-- VC12. -/
theorem test_tx_stop_on_idle : txStat (after (exec .txStopOnIdle State.reset)) = 0x000C := by decide
/-- VC15. -/
theorem test_tx_remaining :
    (after (exec .txRemaining (sending .xmit 7 0 false false (filled [0x41, 0x42, 0x43] 1)))).rw
      = 0x00000002 := by decide
/-- VB12. -/
theorem test_tx_state_at_reset : (after (exec .txState State.reset)).rw = 0x00000008 := by decide
/-- L1-6. -/
theorem test_tx_state_mid_byte :
    (after (exec .txState (sending .xmit 5 0x08 true false (filled [0x41] 1)))).rw = 0x00000056 := by
  decide
/-- VD60; R240: the DLE flag survives. -/
theorem test_rx_start :
    rxStat (after (exec .rxStart State.reset)) = 0x0040 ∧
    rxStat (after (exec .rxStart (receiving .idle true 3 0 [0x32]))) = 0x0050 := by decide
/-- VD61. -/
theorem test_rx_stop :
    rxStat (after (exec .rxStop { receiving .idle false 0 0 [] with
      cts := true, rx := { (receiving .idle false 0 0 []).rx with act := true } })) = 0x0089 := by
  decide
/-- VD55: the frame saved by the later completion. -/
theorem test_rx_get_saved :
    (let t := after (exec .rxGetSaved completed)
     t.rw = 0x00000002 ∧ t.rx.fc = false ∧ memByte t.snap.data 1 = 0x37) := by decide
/-- VB15. -/
theorem test_rx_get_saved_no_frame :
    (after (exec .rxGetSaved State.reset)).rw = 0x84000000 := by decide
/-- VB16 and L1-3. -/
theorem test_rx_frame_complete :
    (after (exec .rxFrameComplete State.reset)).rw = 0 ∧
    (after (exec .rxFrameComplete completed)).rw = 1 := by decide
/-- VD62, VD65. -/
theorem test_rx_frame_len :
    (after (exec .rxFrameLen (receiving .data false 0 0 [0x32, 0x02, 0x41]))).rw = 3 ∧
    (after (exec .rxFrameLen completed)).rw = 0 := by decide
/-- VD63. -/
theorem test_rx_frame_byte :
    (after (exec (.rxFrameByte 1) (receiving .data false 0 0 [0x32, 0x02, 0x41]))).rw = 2 := by
  decide
/-- VD64. -/
theorem test_rx_frame_byte_out_of_range :
    (after (exec (.rxFrameByte 3) (receiving .data false 0 0 [0x32, 0x02, 0x41]))).rw
      = 0x83000000 := by decide
/-- The end of L1-4. -/
theorem test_rx_state : (after (exec .rxState completed)).rw = 0x000000A9 := by decide
/-- VA12, VA14. -/
theorem test_snap_len :
    (after (exec .snapLen State.reset)).rw = 0 ∧
    (after (exec .snapLen (snapped [0x32, 0x02, 0x41]))).rw = 3 := by decide
/-- VA15. -/
theorem test_snap_byte :
    (after (exec (.snapByte 2) (snapped [0x32, 0x02, 0x41]))).rw = 0x41 := by decide
/-- VA17, VA18. -/
theorem test_snap_byte_out_of_range :
    (after (exec (.snapByte 3) (snapped [0x32, 0x02, 0x41]))).rw = 0x83000000 ∧
    (after (exec (.snapByte 65535) (snapped [0x32, 0x02, 0x41]))).rw = 0x83000000 := by decide
/-- VC5: a queued byte after an idle fill. -/
theorem test_ph0_fetch :
    (let t := after (exec .ph0SendBit (sending .idle 0 0 false true (filled [0x41, 0x42] 1)))
     t.tx.state = .xmit ∧ t.tx.cnt = 7 ∧ t.tx.sr = 0x21 ∧ t.tx.q.pos = 2 ∧ t.txd = false ∧
       t.phase = 1) := by decide
/-- VC4: the deferred stop. -/
theorem test_ph0_deferred_stop :
    (let t := after (exec .ph0SendBit (sending .xmit 0 0 true false (filled [0x41] 1)))
     t.tx.state = .off ∧ t.tx.cnt = 8 ∧ t.tx.sr = 0x32 ∧ t.txd = true ∧ t.tx.stopOnIdle = true) := by
  decide
/-- L2-E, tick 1. -/
theorem test_ph1 :
    (let t := after (exec .ph1ClkRise { State.reset with phase := 1 })
     t.clkTx = true ∧ t.clkRx = true ∧ t.phase = 2) := by decide
/-- VD2: sync on the bit that completes SYN. -/
theorem test_ph2_sync :
    (let t := after (exec .ph2RxSample { State.reset with
       phase := 2, rxd := false, rx := { State.reset.rx with sr := 0x64 } })
     t.rx.sr = 0x32 ∧ t.rx.state = .idle ∧ t.rx.sync = true ∧ t.rx.cnt = 0 ∧
       bufContents t.rx.slot0 = [0x32] ∧ t.phase = 3) := by decide
/-- VD12: DLE STX. -/
theorem test_ph2_dle_stx :
    (let t := after (exec .ph2RxSample { receiving .idle true 7 0x04 [0x32] with rxd := false })
     t.rx.state = .transparentData ∧ t.rx.dle = false ∧ t.rx.cnt = 0 ∧
       bufContents t.rx.slot0 = [0x32, 0x10, 0x02]) := by decide
/-- R284: the wrap. -/
theorem test_ph3 :
    (let t := after (exec .ph3ClkFall { State.reset with phase := 3, clkTx := true, clkRx := true })
     t.clkTx = false ∧ t.clkRx = false ∧ t.phase = 0) := by decide
/-- A word placed by `withFetchWord` is what the next step runs. -/
theorem test_fetch_word :
    step (State.reset.withFetchWord 32 0x02000041) = exec (.txAdd 0x41) State.reset ∧
    step (State.reset.withFetchWord 8 1) = exec .ph1ClkRise { State.reset with phase := 1 } :=
  ⟨rfl, rfl⟩

/-! ### Witnesses: a state and operands that meet all hypotheses of each statement -/

theorem witness_DecodeOfEncodeIsIdentity :
    (Instr.snapByte 65535).wellFormed = true ∧ (Instr.rxFrameByte 0).wellFormed = true := by decide
theorem witness_DecodedCodeIsTheEncoding :
    decode (.command 0x2100FFFF) = .ok (.snapByte 65535) ∧ decode (.phase 3) = .ok .ph3ClkFall :=
  ⟨rfl, rfl⟩
/-- One word for each clause, at both ends of each range of opcodes. -/
theorem witness_DecoderChecksInOrder :
    (∀ op ∈ [0x00, 0x08, 0x0F, 0x17, 0x1F, 0x22, 0xFF], reservedOp op) ∧
    (∀ op ∈ [0x01, 0x07, 0x10, 0x16, 0x20, 0x21], ¬ reservedOp op) ∧
    strayBits 0x01 1 ∧ strayBits 0x02 0x100 ∧ ¬ strayBits 0x02 0xFF ∧ ¬ strayBits 0x15 0xFFFF ∧
    (0x02010041 / 65536 % 256 ≠ 0) ∧ (0x02000041 / 65536 % 256 = 0) := by
  unfold reservedOp strayBits; decide
theorem witness_StepRunsTheDecodedInstruction :
    decode (.command 0x03000000) = .ok .txStart ∧ State.reset.moves = [] := ⟨rfl, rfl⟩
theorem witness_IllegalWordIsAnswered :
    decode (.command 0x09000000) = .error .reservedOpcode ∧
    decode (.command 0x07000000) = .ok .txState := ⟨rfl, rfl⟩
/-- Every phase, with the clocks as the invariant has them. -/
theorem witness_TickPerformsPhaseAndAdvances :
    State.reset.inv = true ∧ State.reset.phase = 0 ∧
    (State.inv { State.reset with phase := 1 }) = true ∧
    (State.inv { State.reset with phase := 2, clkTx := true, clkRx := true }) = true ∧
    (State.inv { State.reset with phase := 3, clkTx := true, clkRx := true }) = true ∧
    Instr.isCommand .txStart = true ∧ isNext (exec .txStart State.reset) = true := by decide
theorem witness_ResetKeepsTheInvariant :
    Config.reference.wf = true ∧ Params.wf { cap := 2, ttdNext := .transparentData } = true ∧
    Params.wf { cap := 65536, ttdNext := .idle } = true := by decide
theorem witness_StepKeepsTheInvariant :
    (offerMove (.tick false) completed).inv = true ∧
    isNext (step (offerMove (.tick false) completed)) = true := by decide
/-- A failing command. -/
theorem witness_NothingStopsTheBlock :
    completed.inv = true ∧ Instr.isCommand .rxGetSaved = true ∧
    isNext (exec .rxGetSaved State.reset) = true ∧
    (after (exec .rxGetSaved State.reset)).rw.getLsbD 31 = true := by decide
theorem witness_EveryRunGoesOn :
    Config.reference.wf = true ∧ Reachable Config.reference State.reset :=
  ⟨rfl, Reachable.reset []⟩
/-- An instruction that every clause covers, one that fails, and an illegal word. -/
theorem witness_AccessMatrix :
    isNext (exec .rxFrameLen completed) = true ∧ isNext (exec .ph1ClkRise completed) = true ∧
    (after (exec (.snapByte 0) State.reset)).rw.getLsbD 31 = true ∧
    decode (.command 0x01000001) = .error .strayOperand := ⟨rfl, rfl, rfl, rfl⟩
theorem witness_ResponseForms :
    Instr.isCommand (.txAdd 0) = true ∧ isNext (exec (.txAdd 0) (tiny [0x41])) = true ∧
    isNext (exec .txState (tiny [0x41])) = true := by decide
/-- An empty and a filled buffer, an index at and below the length. -/
theorem witness_BufferPrimitiveResults :
    Buffer.fresh.wf 2 = true ∧ Buffer.fresh.len = 0 ∧ (filled [0x32, 0x02] 0).wf 4 = true ∧
    0 < (filled [0x32, 0x02] 0).len ∧ 1 < (filled [0x32, 0x02] 0).len ∧
    (filled [0x32, 0x02] 0).len ≤ 2 := by decide
theorem witness_BufWriteAppends :
    (filled [0x41] 0).data.wf = true ∧ 2 - 1 ≤ (filled [0x41] 0).len ∧
    (filled [0x41] 0).len < 3 - 1 := by decide
theorem witness_WritesFillToCapacityMinusOne :
    (filled [0x41] 1).wf 2 = true ∧ [0x42#8].length = 2 - 1 := by decide
theorem witness_ReadsReturnPendingBytesInOrder :
    (filled [0x41, 0x42, 0x43] 1).wf 4 = true := by decide
theorem witness_GetSavedTakesTheFrameOnce :
    State.reset.inv = true ∧ State.reset.rx.fc = false ∧ completed.inv = true ∧
    completed.rx.fc = true ∧ isNext (exec .rxGetSaved completed) = true := by decide
/-- The last byte, and the first index past it. -/
theorem witness_SnapReadsAnswer :
    (snapped [0x32, 0x02]).inv = true ∧ (snapped [0x32, 0x02]).snap.len ≤ 2 ∧
    1 < (snapped [0x32, 0x02]).snap.len ∧ 65535 < 65536 ∧
    isNext (exec .ph2RxSample completed) = true ∧ Instr.ph2RxSample ≠ .rxGetSaved ∧
    isNext (exec .rxGetSaved State.reset) = true ∧ State.reset.rx.fc = false := by decide
/-- The last byte that fits, and the one that does not. -/
theorem witness_TxAddResult :
    (tiny [0x41]).inv = true ∧ (tiny [0x41]).tx.q.len = (tiny [0x41]).params.cap - 1 ∧
    (tiny []).inv = true ∧ (tiny []).tx.q.len < (tiny []).params.cap - 1 := by decide
theorem witness_TxRemainingAnswersPending :
    (sending .xmit 7 0 false false (filled [0x41, 0x42] 1)).inv = true := by decide
/-- One state for each of the five cases. -/
theorem witness_PhaseZeroSendsOneBit :
    State.reset.inv = true ∧ State.reset.tx.state = .off ∧
    (let s := sending .xmit 1 0x01 false true (filled [0x41] 1)
     s.inv = true ∧ s.tx.state ≠ .off ∧ s.tx.cnt ≠ 0#4) ∧
    (let s := sending .xmit 0 0 false true (filled [0x41] 0)
     s.inv = true ∧ s.tx.state ≠ .off ∧ s.tx.cnt = 0#4 ∧ s.tx.q.pos < s.tx.q.len) ∧
    (let s := sending .idle 0 0 false true (filled [0x41] 1)
     s.inv = true ∧ s.tx.state ≠ .off ∧ s.tx.cnt = 0#4 ∧ s.tx.q.pos = s.tx.q.len ∧
       s.tx.stopOnIdle = false) ∧
    (let s := sending .idle 0 0 true true (filled [0x41] 1)
     s.inv = true ∧ s.tx.state ≠ .off ∧ s.tx.cnt = 0#4 ∧ s.tx.q.pos = s.tx.q.len ∧
       s.tx.stopOnIdle = true) := by decide
/-- For `k = 0` and `k = 7`. -/
theorem witness_FetchedByteHoldsEightCycles :
    (let s := sending .xmit 0 0 false true (filled [0xA5] 0)
     s.inv = true ∧ s.tx.state ≠ .off ∧ s.tx.cnt = 0#4 ∧ s.tx.q.pos < s.tx.q.len) ∧ 0 < 8 ∧ 7 < 8 := by
  decide
theorem witness_WireOrderOfQueuedBytes :
    (let s := sending .xmit 0 0 false true (filled [0xA5, 0x0F] 0)
     s.inv = true ∧ s.tx.state ≠ .off ∧ s.tx.cnt = 0#4 ∧ s.tx.stopOnIdle = false) := by decide
theorem witness_XmitBound :
    (let s := sending .xmit 3 0x05 false true (filled [0xA5, 0x0F] 1)
     s.inv = true ∧ s.tx.state = .xmit) := by decide
theorem witness_DeferredStopAfterLastBit :
    (let s := sending .xmit 5 0x08 true false (filled [0x41] 1)
     s.inv = true ∧ s.tx.state ≠ .off ∧ s.tx.stopOnIdle = true ∧ s.tx.q.pos = s.tx.q.len) := by decide
theorem witness_StoppedByteIsFinishedLater :
    (let s := sending .xmit 5 0x14 false true (filled [0xA5, 0x0F] 1)
     let t := after (exec .txStop s)
     s.inv = true ∧ isNext (exec .txStop s) = true ∧ isNext (exec .txStart t) = true) := by decide
theorem witness_QueueIsNotCircular :
    (tiny []).inv = true ∧
    ∀ cw, Move.command cw ∈ [Move.command 0x02000041, Move.tick true, Move.command 0x02000042] →
      decode (.command cw) ≠ .ok .txClear := by
  refine ⟨by decide, fun cw h e => ?_⟩
  simp only [List.mem_cons, Move.command.injEq, reduceCtorEq, List.not_mem_nil, or_false,
    false_or] at h
  rcases h with rfl | rfl <;> cases e
theorem witness_RxFrameReadsAnswer : completed.inv = true := by decide
/-- The last byte of the active slot, and the first index past it. -/
theorem witness_RxFrameByteAnswersByte :
    (receiving .data false 0 0 [0x32, 0x02]).inv = true ∧
    (receiving .data false 0 0 [0x32, 0x02]).rx.act = false ∧
    1 < (receiving .data false 0 0 [0x32, 0x02]).rx.slot0.len ∧
    (receiving .data false 0 0 [0x32, 0x02]).rx.slot0.len ≤ 2 ∧ 65535 < 65536 := by decide
/-- One state for each of the four cases. -/
theorem witness_PhaseTwoSamplesOneBit :
    State.reset.rx.state = .outOfSync ∧ shiftedIn false 0x64 = 0x32 ∧
    shiftedIn true 0x64 ≠ 0x32 ∧
    (receiving .data false 3 0 [0x32]).rx.state ≠ .outOfSync ∧
    (receiving .data false 3 0 [0x32]).rx.cnt ≠ 7#8 ∧
    (receiving .data false 7 0 [0x32]).rx.cnt = 7#8 := by decide
/-- A full slot, and one with room for one byte. -/
theorem witness_RxAppendGoesToActiveSlot :
    (activeSlot (receiving .data false 0 0 [0x32, 0x02]).rx).wf 3 = true ∧
    (activeSlot (receiving .data false 0 0 [0x32, 0x02]).rx).len = 3 - 1 ∧
    (activeSlot (receiving .data false 0 0 [0x32]).rx).wf 3 = true ∧
    (activeSlot (receiving .data false 0 0 [0x32]).rx).len < 3 - 1 := by decide
theorem witness_MarkFrameCompleteSwapsSlots :
    State.reset.rx.act = false ∧ completed.rx.act = true := by decide
theorem witness_ByteEvaluationIsTheTable :
    (receiving .pad false 0 0 [0x32]).rx.state ≠ .outOfSync ∧
    (receiving .pad false 0 0 [0x32]).rx.dle = false ∧
    (receiving .transparentData true 0 0 [0x32]).rx.state ≠ .outOfSync := by decide
theorem witness_EightSamplesEvaluateOneByte :
    (receiving .idle false 0 0 [0x32]).rx.state ≠ .outOfSync ∧
    (receiving .idle false 0 0 [0x32]).rx.cnt = 0#8 := by decide
/-- The bits of L1-1, and seven bits after reset. -/
theorem witness_SyncOnSynAfterAnyGarbage :
    (let bits := [true, true, false, true, false, false, true, true, false, false]
     State.reset.rx.state = .outOfSync ∧ 8 ≤ bits.length ∧
       ∀ k, k < bits.length →
         (rxSamples Config.reference (bits.take k) State.reset.rx).state = .outOfSync) ∧
    [true, false, false, true, true, false, false].length < 8 := by decide
theorem witness_TextFrameIsSaved :
    Config.reference.wf = true ∧
    (let rx := (receiving .idle false 0 0 [0x32]).rx
     rx.state = .idle ∧ rx.dle = false ∧ rx.slot0.wf Config.reference.cap = true ∧
       rx.slot1.wf Config.reference.cap = true) ∧
    ∀ d ∈ [0x41#8, 0x42#8], d ≠ 0x32 ∧ d ≠ 0x10 ∧ d ≠ 0x03 ∧ d ≠ 0x26 := by decide
theorem witness_TransparentFrameIsDestuffed :
    Params.wf { cap := 4, ttdNext := .idle } = true ∧
    (let rx := (receiving .idle false 0 0 [0x32]).rx
     rx.state = .idle ∧ rx.dle = false ∧ rx.slot0.wf 4 = true ∧ rx.slot1.wf 4 = true) := by decide
/-- A step that completes a frame (VD55) and one that does not. -/
theorem witness_SavedSlotIsSafeUntilNextCompletion :
    (let s := { receiving .idle false 7 0x6E [0x32] with phase := 2 }
     let t := after (step (offerMove (.tick false) s))
     isNext (step (offerMove (.tick false) s)) = true ∧ t.rx.act ≠ s.rx.act) ∧
    (let t := after (step (offerMove (.tick false) completed))
     isNext (step (offerMove (.tick false) completed)) = true ∧ t.rx.act = completed.rx.act) := by
  decide
/-- Both active slots. -/
theorem witness_PhaseTwoStoresAtSlotEnd :
    isNext (exec .ph2RxSample (receiving .idle true 7 0x04 [0x32])) = true ∧
    (receiving .idle true 7 0x04 [0x32]).rx.act = false ∧
    isNext (exec .ph2RxSample completed) = true ∧ completed.rx.act = true := by decide
theorem witness_ClockPhasesDriveBothClocks :
    (State.phase { State.reset with phase := 3 }) = 3#2 := by decide
theorem witness_CycleDrivesAndSamplesOneBit : completed.inv = true ∧ completed.phase = 0#2 := by decide
/-- Two states that differ on the other side only. -/
theorem witness_EnginesDoNotInterfere :
    (let s := { State.reset with rxd := false }
     let t := { completed with cts := true }
     isNext (exec .ph0SendBit s) = true ∧ isNext (exec .ph0SendBit t) = true ∧
       s.params = t.params ∧ s.tx = t.tx ∧ s.txd = t.txd) ∧
    (let s := State.reset
     let t := { sending .xmit 3 0x05 false false (filled [0x41] 1) with cts := true }
     isNext (exec .ph2RxSample s) = true ∧ isNext (exec .ph2RxSample t) = true ∧
       s.params = t.params ∧ s.rx = t.rx ∧ s.rxd = t.rxd ∧ s.snap = t.snap) := by decide
/-- Two different states that are alike: stale bytes, a completion flag, RX.cnt and TX.sr differ. -/
theorem witness_HiddenStateIsUnobservable :
    (let s := offerMove (.tick false) State.reset
     let t : State := { s with
       tx := { s.tx with sr := 0xAA, q := { s.tx.q with data := [(0, 0x41)], cflag := true } }
       rx := { s.rx with cnt := 5, slot0 := { s.rx.slot0 with data := [(3, 0x42)] } } }
     s.inv = true ∧ t.inv = true ∧ s ≠ t ∧ alike s t ∧ isNext (step s) = true) := by
  unfold alike sameBuffer; decide
theorem witness_WaitSendIdlePolls :
    isNext (runMoves [.tick true] State.reset) = true ∧
    (after (runMoves [.tick true] State.reset)).tx.state ≠ .xmit ∧
    (after (runMoves [.command 0x03000000] State.reset)).tx.state = .xmit ∧
    isNext (runMoves [.command 0x03000000] State.reset) = true := by decide
/-- A frame there after the limit, none there at the limit, none there before it. -/
theorem witness_WaitFramePolls :
    isNext (runMoves [.tick true] completed) = true ∧
    (after (runMoves [.tick true] completed)).rx.fc = true ∧
    isNext (runMoves [.tick true] State.reset) = true ∧
    (after (runMoves [.tick true] State.reset)).rx.fc = false ∧ 5 ≤ 5 ∧ 4 < 5 := by decide
/-- As many bytes as fit, and none. -/
theorem witness_SendFrameQueuesTheFrame :
    (tiny [0x41]).inv = true ∧ [0x42#8].length ≤ (tiny [0x41]).params.cap - 1 ∧
    ([] : List Byte).length ≤ (tiny [0x41]).params.cap - 1 := by decide
theorem witness_ReadFrameAnswersTheFrame :
    completed.inv = true ∧ completed.rx.fc = true ∧
    isNext (exec .rxGetSaved completed) = true ∧
    (bufContents (savedSlot completed.rx))[1]? = some 0x37 := by decide
/-- A frame that fits, with each choice; one that does not, with each choice. -/
theorem witness_SendFrameRunsToTheWait :
    (tiny []).inv = true ∧ [0x42#8].length ≤ (tiny []).params.cap - 1 ∧
    (tiny []).params.cap - 1 < [0x42#8, 0x43#8].length ∧
    AfterFull.start = .start ∧ AfterFull.giveUp = .giveUp := by decide
/-- A frame there at the first command, and none there, after a tick. -/
theorem witness_ReadFrameRuns :
    completed.inv = true ∧ isNext (runMoves (tickMoves [true]) completed) = true ∧
    (after (runMoves (tickMoves [true]) completed)).rx.fc = true ∧
    State.reset.inv = true ∧ isNext (runMoves (tickMoves [true]) State.reset) = true ∧
    (after (runMoves (tickMoves [true]) State.reset)).rx.fc = false := by decide

end Sys2Proof.Tests
end

section
/-! SUPPORT. What one instruction can do, said once (spec/41 to 43, R180 to R284): the send engine's bit by
its conditions, the two commands with two answers, and one inversion lemma for all of `exec`. -/

namespace Sys2Proof

/-- The instructions that write the send engine or TXD (R50). -/
def Instr.writesSendSide : Instr → Bool
  | .txClear | .txAdd _ | .txStart | .txStop | .txStopOnIdle | .ph0SendBit => true
  | _ => false

/-- The instructions that write the receive engine or the snapshot (R50). -/
def Instr.writesReceiveSide : Instr → Bool
  | .rxStart | .rxGetSaved | .ph2RxSample => true
  | _ => false

end Sys2Proof

namespace Sys2Proof.Machine

/-! ### `sendBit` by its conditions (R181) -/

theorem sendBit_of_off {s : State} (h : s.tx.state = .off) : sendBit s = .ok s := by
  simp [sendBit, h]

theorem sendBit_of_bits_left {s : State} (h : s.tx.state ≠ .off) (hc : s.tx.cnt ≠ 0#4) :
    sendBit s = .ok (txShiftOut s) := by
  obtain ⟨ho, _⟩ | ⟨_, _, e⟩ | ⟨_, h0, _⟩ := sendBit_cases s
  · exact absurd ho h
  · exact e
  · exact absurd h0 hc

theorem sendBit_of_none_left {s : State} (h : s.tx.state ≠ .off) (hc : s.tx.cnt = 0#4) :
    sendBit s = txFetch s := by
  obtain ⟨ho, _⟩ | ⟨_, h0, _⟩ | ⟨_, _, e⟩ := sendBit_cases s
  · exact absurd ho h
  · exact absurd hc h0
  · exact e

/-- Where the queue has a byte, it is fetched. -/
theorem txFetch_of_pending {s : State} (h : s.tx.q.pos < s.tx.q.len) (hc : s.tx.q.pos < s.params.cap) :
    txFetch s = .ok (txShiftOut (txLoad (memByte s.tx.q.data s.tx.q.pos) .xmit
      { s with tx := { s.tx with q := { s.tx.q with pos := s.tx.q.pos + 1 } } })) := by
  obtain ⟨_, _, e⟩ | ⟨_, _, _⟩ | ⟨_, _, _⟩ | ⟨_, _, _⟩ := txFetch_cases s
  · exact e
  all_goals omega

/-- With the queue exhausted, a pending stop is made (R184). -/
theorem txFetch_of_stop {s : State} (h : s.tx.q.len ≤ s.tx.q.pos) (hs : s.tx.stopOnIdle = true) :
    txFetch s = .ok (driveTxd Config.markLevel (txLoad Config.syn .off s)) := by
  obtain ⟨_, _, _⟩ | ⟨_, _, e⟩ | ⟨_, hn, _⟩ | ⟨_, _, _⟩ := txFetch_cases s
  · omega
  · exact e
  · simp [hs] at hn
  · omega

/-- With the queue exhausted and no stop pending, SYN fills (R183). -/
theorem txFetch_of_fill {s : State} (h : s.tx.q.len ≤ s.tx.q.pos) (hs : s.tx.stopOnIdle = false) :
    txFetch s = .ok (txShiftOut (txLoad Config.syn .idle s)) := by
  obtain ⟨_, _, _⟩ | ⟨_, hn, _⟩ | ⟨_, _, e⟩ | ⟨_, _, _⟩ := txFetch_cases s
  · omega
  · simp [hs] at hn
  · exact e
  · omega

/-- Everything a bit that is sent can leave, with the condition of each case. -/
theorem sendBit_ok_cases {s u : State} (h : sendBit s = .ok u) :
    (s.tx.state = .off ∧ u = s) ∨
    (s.tx.state ≠ .off ∧ s.tx.cnt ≠ 0#4 ∧ u = txShiftOut s) ∨
    (s.tx.state ≠ .off ∧ s.tx.cnt = 0#4 ∧ s.tx.q.pos < s.tx.q.len ∧ s.tx.q.pos < s.params.cap ∧
      u = txShiftOut (txLoad (memByte s.tx.q.data s.tx.q.pos) .xmit
        { s with tx := { s.tx with q := { s.tx.q with pos := s.tx.q.pos + 1 } } })) ∨
    (s.tx.state ≠ .off ∧ s.tx.cnt = 0#4 ∧ s.tx.q.len ≤ s.tx.q.pos ∧ s.tx.stopOnIdle = true ∧
      u = driveTxd Config.markLevel (txLoad Config.syn .off s)) ∨
    (s.tx.state ≠ .off ∧ s.tx.cnt = 0#4 ∧ s.tx.q.len ≤ s.tx.q.pos ∧ s.tx.stopOnIdle = false ∧
      u = txShiftOut (txLoad Config.syn .idle s)) := by
  obtain ⟨ho, e⟩ | ⟨ho, hc, e⟩ | ⟨ho, hc, e⟩ := sendBit_cases s
  · rw [e] at h; cases h; exact .inl ⟨ho, rfl⟩
  · rw [e] at h; cases h; exact .inr (.inl ⟨ho, hc, rfl⟩)
  · rw [e] at h
    obtain ⟨hl, hp, f⟩ | ⟨hl, hs, f⟩ | ⟨hl, hs, f⟩ | ⟨_, _, f⟩ := txFetch_cases s <;>
      rw [f] at h <;> cases h
    · exact .inr (.inr (.inl ⟨ho, hc, hl, hp, rfl⟩))
    · exact .inr (.inr (.inr (.inl ⟨ho, hc, hl, hs, rfl⟩)))
    · exact .inr (.inr (.inr (.inr ⟨ho, hc, hl, hs, rfl⟩)))

/-- A bit that is sent changes the send engine and TXD only. -/
theorem sendBit_frame {s u : State} (h : sendBit s = .ok u) :
    u = { s with tx := u.tx, txd := u.txd } := by
  obtain ⟨_, rfl⟩ | ⟨_, _, rfl⟩ | ⟨_, _, _, _, rfl⟩ | ⟨_, _, _, _, rfl⟩ | ⟨_, _, _, _, rfl⟩ :=
    sendBit_ok_cases h <;> rfl

/-- Phase 0 goes on exactly where `sendBit` answers a state. -/
theorem execPh0SendBit_next {s t : State} (h : execPh0SendBit s = .next t) :
    ∃ u, sendBit s = .ok u ∧ t = advancePhase u := by
  unfold execPh0SendBit at h
  cases hb : sendBit s with
  | ok u => rw [hb] at h; cases h; exact ⟨u, rfl, rfl⟩
  | sentinel c => exact absurd hb (sendBit_not_sentinel s c)
  | fault f => rw [hb] at h; cases h

/-- Everything TX_ADD can answer (R188). -/
theorem execTxAdd_cases (b : Byte) (s : State) :
    (s.params.cap - 1 ≤ s.tx.q.len ∧ execTxAdd b s = .next (respondFail .full s)) ∨
    (s.tx.q.len < s.params.cap - 1 ∧ ∃ q, bufWrite s.params.cap s.tx.q b = .ok q ∧
      execTxAdd b s = .next (respondOk (zextCount q.len) { s with tx := { s.tx with q := q } })) := by
  unfold execTxAdd
  obtain ⟨h, e⟩ | ⟨h, e⟩ := bufWrite_cases s.params.cap s.tx.q b
  · exact .inl ⟨h, by rw [e]⟩
  · exact .inr ⟨h, _, e, by rw [e]⟩

/-- Everything RX_GET_SAVED can answer (R242). -/
theorem execRxGetSaved_cases (s : State) :
    (s.rx.fc = false ∧ execRxGetSaved s = .next (respondFail .noFrame s)) ∨
    (s.rx.fc = true ∧ (savedSlot s.rx).len ≤ s.params.cap ∧
      ∃ sn, snapTake s.params.cap (savedSlot s.rx) s.snap = .ok sn ∧
        execRxGetSaved s =
          .next (respondOk (zextCount sn.len) { s with snap := sn, rx := { s.rx with fc := false } })) ∨
    (s.rx.fc = true ∧ s.params.cap < (savedSlot s.rx).len ∧
      execRxGetSaved s = .fault (.noSuchIndex s.params.cap)) := by
  unfold execRxGetSaved
  cases hf : s.rx.fc
  · exact .inl ⟨rfl, by simp⟩
  · obtain ⟨h, e⟩ | ⟨h, e⟩ := snapTake_cases s.params.cap (savedSlot s.rx) s.snap
    · exact .inr (.inl ⟨rfl, h, _, e, by simp [e]⟩)
    · exact .inr (.inr ⟨rfl, h, by simp [e]⟩)

/-- A byte read that goes on leaves all but the response. -/
theorem respondByte_next {r : Result Byte} {s t : State} (h : respondByte r s = .next t) :
    ∃ w, t = { s with rw := w } := by
  obtain ⟨v, _, e⟩ | ⟨c, _, e⟩ | ⟨f, _, e⟩ := respondByte_cases r s <;> rw [e] at h <;> cases h
  · exact ⟨_, rfl⟩
  · exact ⟨_, rfl⟩

/-! ### One inversion lemma for `exec` -/

/-- What an instruction that goes on can leave of the state before it. -/
inductive ExecEffect (s : State) : Instr → State → Prop where
  /-- A command that reads or fails: nothing but the response. -/
  | answers (i : Instr) (w : Word) : i.isCommand = true → ExecEffect s i { s with rw := w }
  | txClear : ExecEffect s .txClear (respondOk 0 (driveTxd Config.markLevel
      { s with tx := { s.tx with q := bufClear s.tx.q, cnt := 0#4, state := .off, stopOnIdle := false } }))
  | txAdd (b : Byte) (q : Buffer) : bufWrite s.params.cap s.tx.q b = .ok q →
      ExecEffect s (.txAdd b) (respondOk (zextCount q.len) { s with tx := { s.tx with q := q } })
  | txStart : ExecEffect s .txStart
      (respondOk 0 { s with tx := { s.tx with state := .xmit, stopOnIdle := false } })
  | txStop : ExecEffect s .txStop
      (respondOk 0 (driveTxd Config.markLevel { s with tx := { s.tx with state := .off } }))
  | txStopOnIdle : ExecEffect s .txStopOnIdle
      (respondOk 0 { s with tx := { s.tx with stopOnIdle := true } })
  | rxStart : ExecEffect s .rxStart
      (respondOk 0 { driveCts true s with rx := { s.rx with sync := false, state := .outOfSync } })
  | rxStop : ExecEffect s .rxStop (respondOk 0 (driveCts false s))
  | rxGetSaved (sn : Snapshot) : snapTake s.params.cap (savedSlot s.rx) s.snap = .ok sn →
      ExecEffect s .rxGetSaved
        (respondOk (zextCount sn.len) { s with snap := sn, rx := { s.rx with fc := false } })
  | ph0SendBit (tx : TxEngine) (txd : Bool) : sendBit s = .ok { s with tx := tx, txd := txd } →
      ExecEffect s .ph0SendBit (advancePhase { s with tx := tx, txd := txd })
  | ph1ClkRise : ExecEffect s .ph1ClkRise (advancePhase (driveClocks true s))
  | ph2RxSample : ExecEffect s .ph2RxSample
      (advancePhase { s with rx := rxSample s.params s.rxd s.rx })
  | ph3ClkFall : ExecEffect s .ph3ClkFall (advancePhase (driveClocks false s))

theorem exec_effect {i : Instr} {s t : State} (h : exec i s = .next t) : ExecEffect s i t := by
  cases i with
  | txClear => cases h; exact .txClear
  | txAdd b =>
    obtain ⟨_, e⟩ | ⟨_, q, hq, e⟩ := execTxAdd_cases b s <;> cases e.symm.trans h
    · exact .answers _ _ rfl
    · exact .txAdd b q hq
  | txStart => cases h; exact .txStart
  | txStop => cases h; exact .txStop
  | txStopOnIdle => cases h; exact .txStopOnIdle
  | rxStart => cases h; exact .rxStart
  | rxStop => cases h; exact .rxStop
  | rxGetSaved =>
    obtain ⟨_, e⟩ | ⟨_, _, sn, hsn, e⟩ | ⟨_, _, e⟩ := execRxGetSaved_cases s <;> cases e.symm.trans h
    · exact .answers _ _ rfl
    · exact .rxGetSaved sn hsn
  | rxFrameByte n => obtain ⟨w, rfl⟩ := respondByte_next h; exact .answers _ w rfl
  | snapByte n => obtain ⟨w, rfl⟩ := respondByte_next h; exact .answers _ w rfl
  | ph0SendBit =>
    obtain ⟨u, hu, rfl⟩ := execPh0SendBit_next h
    have hf := sendBit_frame hu
    rw [hf] at hu ⊢
    exact .ph0SendBit u.tx u.txd hu
  | ph1ClkRise => cases h; exact .ph1ClkRise
  | ph2RxSample => cases h; exact .ph2RxSample
  | ph3ClkFall => cases h; exact .ph3ClkFall
  | txRemaining | txState | rxFrameComplete | rxFrameLen | rxState | snapLen =>
    cases h; exact .answers _ _ rfl

theorem exec_keeps_params {i : Instr} {s t : State} (h : exec i s = .next t) : t.params = s.params := by
  cases exec_effect h <;> rfl

/-- An instruction that is none of the send side's leaves the send engine and TXD. -/
theorem exec_send_frame {i : Instr} {s t : State} (h : exec i s = .next t)
    (hi : i.writesSendSide = false) : t.tx = s.tx ∧ t.txd = s.txd := by
  cases exec_effect h with
  | answers | rxStart | rxStop | rxGetSaved | ph1ClkRise | ph2RxSample | ph3ClkFall => exact ⟨rfl, rfl⟩
  | txClear | txAdd | txStart | txStop | txStopOnIdle | ph0SendBit => cases hi

/-- An instruction that is none of the receive side's leaves the receive engine and the snapshot. -/
theorem exec_receive_frame {i : Instr} {s t : State} (h : exec i s = .next t)
    (hi : i.writesReceiveSide = false) : t.rx = s.rx ∧ t.snap = s.snap := by
  cases exec_effect h with
  | rxStart | rxGetSaved | ph2RxSample => cases hi
  | answers | txClear | txAdd | txStart | txStop | txStopOnIdle | rxStop | ph0SendBit | ph1ClkRise
  | ph3ClkFall => exact ⟨rfl, rfl⟩

end Sys2Proof.Machine
end

section
/-! A step runs the move that comes next (R9, R118, R280). -/

open Sys2Proof.Claims

namespace Sys2Proof.Machine

theorem step_offerMove_command {cw : Word} {i : Instr} (s : State) (h : decode (.command cw) = .ok i) :
    step (offerMove (.command cw) s) = exec i s := by
  simp [step, h]

theorem step_offerMove_tick (level : Bool) (s : State) :
    step (offerMove (.tick level) s) = exec (decodePhase s.phase) (lineSets level s) := rfl

/-- With no listed move, a step is that of the free move drawn. -/
theorem step_of_no_moves {s : State} (h : s.moves = []) :
    step s = step (offerMove (Config.freeMove s.drawn) { s with drawn := s.drawn + 1 }) := by
  have htake : takeMove s = (Config.freeMove s.drawn, { s with drawn := s.drawn + 1 }) := by
    simp [takeMove, h]
  unfold step
  rw [htake, takeMove_offerMove]

/-- Settles O6: a case per kind of move. -/
theorem stepRunsTheDecodedInstruction : Obligations.StepRunsTheDecodedInstruction :=
  ⟨fun s _ _ h => step_offerMove_command s h, fun s level => step_offerMove_tick level s,
    fun _ h => step_of_no_moves h⟩

end Sys2Proof.Machine
end

section
/-! The two engines do not interfere (R3, R180, R220, R254). -/

open Sys2Proof.Claims

namespace Sys2Proof.Machine

/-- What `sendBit` does to the send side depends on the send side alone. -/
theorem sendBit_agrees {s t u v : State} (hp : s.params = t.params) (hx : s.tx = t.tx)
    (hd : s.txd = t.txd) (hu : sendBit s = .ok u) (hv : sendBit t = .ok v) :
    u.tx = v.tx ∧ u.txd = v.txd := by
  obtain ⟨ho, rfl⟩ | ⟨ho, hc, rfl⟩ | ⟨ho, hc, hl, hcap, rfl⟩ | ⟨ho, hc, hl, hs, rfl⟩ |
    ⟨ho, hc, hl, hs, rfl⟩ := sendBit_ok_cases hu
  · rw [hx] at ho
    cases (sendBit_of_off ho).symm.trans hv
    exact ⟨hx, hd⟩
  · rw [hx] at ho hc
    cases (sendBit_of_bits_left ho hc).symm.trans hv
    simp [hx]
  · rw [hx] at ho hc hl hcap
    rw [hp] at hcap
    cases ((sendBit_of_none_left ho hc).trans (txFetch_of_pending hl hcap)).symm.trans hv
    simp [hx]
  · rw [hx] at ho hc hl hs
    cases ((sendBit_of_none_left ho hc).trans (txFetch_of_stop hl hs)).symm.trans hv
    simp [hx]
  · rw [hx] at ho hc hl hs
    cases ((sendBit_of_none_left ho hc).trans (txFetch_of_fill hl hs)).symm.trans hv
    simp [hx]

/-- TX_ADD stores or refuses by the queue alone. -/
theorem execTxAdd_agrees {b : Byte} {s t s' t' : State} (hs : execTxAdd b s = .next s')
    (ht : execTxAdd b t = .next t') (hp : s.params = t.params) (hx : s.tx = t.tx)
    (hd : s.txd = t.txd) : s'.tx = t'.tx ∧ s'.txd = t'.txd := by
  unfold execTxAdd at hs ht
  rw [hp, hx] at hs
  cases hq : bufWrite t.params.cap t.tx.q b with
  | ok q => rw [hq] at hs ht; cases hs; cases ht; exact ⟨rfl, hd⟩
  | sentinel c => rw [hq] at hs ht; cases hs; cases ht; exact ⟨hx, hd⟩
  | fault f => rw [hq] at hs; cases hs

/-- RX_GET_SAVED takes the snapshot by the receive engine and the old snapshot alone. -/
theorem execRxGetSaved_agrees {s t s' t' : State} (hs : execRxGetSaved s = .next s')
    (ht : execRxGetSaved t = .next t') (hp : s.params = t.params) (hr : s.rx = t.rx)
    (hn : s.snap = t.snap) : s'.rx = t'.rx ∧ s'.snap = t'.snap := by
  unfold execRxGetSaved at hs ht
  rw [hp, hr, hn] at hs
  cases hf : t.rx.fc with
  | false => rw [if_pos hf] at hs ht; cases hs; cases ht; exact ⟨hr, hn⟩
  | true =>
    rw [if_neg (by simp [hf])] at hs ht
    cases hsn : snapTake t.params.cap (savedSlot t.rx) t.snap with
    | ok sn => rw [hsn] at hs ht; cases hs; cases ht; exact ⟨rfl, rfl⟩
    | sentinel c => rw [hsn] at hs ht; cases hs; cases ht; exact ⟨hr, hn⟩
    | fault f => rw [hsn] at hs; cases hs

/-- What an instruction does to the send side depends on the send side alone. -/
theorem exec_send_agrees {i : Instr} {s t s' t' : State} (hs : exec i s = .next s')
    (ht : exec i t = .next t') (hp : s.params = t.params) (hx : s.tx = t.tx) (hd : s.txd = t.txd) :
    s'.tx = t'.tx ∧ s'.txd = t'.txd := by
  cases hw : i.writesSendSide with
  | false =>
    obtain ⟨hsx, hsd⟩ := exec_send_frame hs hw
    obtain ⟨htx, htd⟩ := exec_send_frame ht hw
    exact ⟨hsx.trans (hx.trans htx.symm), hsd.trans (hd.trans htd.symm)⟩
  | true =>
    cases i with
    | txAdd b => exact execTxAdd_agrees hs ht hp hx hd
    | txClear | txStop => cases hs; cases ht; simp [hx]
    | txStart | txStopOnIdle => cases hs; cases ht; simp [hx, hd]
    | ph0SendBit =>
      obtain ⟨u, hu, rfl⟩ := execPh0SendBit_next hs
      obtain ⟨v, hv, rfl⟩ := execPh0SendBit_next ht
      simpa using sendBit_agrees hp hx hd hu hv
    | _ => cases hw

/-- What an instruction does to the receive side depends on the receive side and RXD alone. -/
theorem exec_receive_agrees {i : Instr} {s t s' t' : State} (hs : exec i s = .next s')
    (ht : exec i t = .next t') (hp : s.params = t.params) (hr : s.rx = t.rx) (hd : s.rxd = t.rxd)
    (hn : s.snap = t.snap) : s'.rx = t'.rx ∧ s'.snap = t'.snap := by
  cases hw : i.writesReceiveSide with
  | false =>
    obtain ⟨hsr, hsn⟩ := exec_receive_frame hs hw
    obtain ⟨htr, htn⟩ := exec_receive_frame ht hw
    exact ⟨hsr.trans (hr.trans htr.symm), hsn.trans (hn.trans htn.symm)⟩
  | true =>
    cases i with
    | rxGetSaved => exact execRxGetSaved_agrees hs ht hp hr hn
    | rxStart => cases hs; cases ht; simp [hr, hn]
    | ph2RxSample => cases hs; cases ht; simp [hp, hr, hd, hn]
    | _ => cases hw

/-- Settles O53: each side's writers read their own side alone, and all others leave it. -/
theorem enginesDoNotInterfere : Obligations.EnginesDoNotInterfere := by
  intro i s t s' t' hs ht hp
  exact ⟨exec_send_agrees hs ht hp, exec_receive_agrees hs ht hp⟩

end Sys2Proof.Machine
end

section
/-! The invariant is kept, and the block goes on, along every run (R11, R33, R53). Each part of the
invariant is kept by every instruction; PHASE and the clocks are, by a tick, when PHASE selects it. -/

open Sys2Proof.Claims

namespace Sys2Proof.Machine

/-! ### The send engine -/

/-- Sending a bit keeps the send engine's part: the count stays at most 8, the cursor within the queue,
and a deferred stop leaves TXD at mark. -/
theorem sendBit_keeps_txInv {s u : State} (h : txInv s.params.cap s.tx s.txd = true)
    (hu : sendBit s = .ok u) : txInv s.params.cap u.tx u.txd = true := by
  rw [txInv_iff] at h ⊢
  obtain ⟨hoff, hcnt, hq⟩ := h
  obtain ⟨_, rfl⟩ | ⟨ho, hc, rfl⟩ | ⟨_, _, hl, _, rfl⟩ | ⟨_, _, _, _, rfl⟩ | ⟨_, _, _, _, rfl⟩ :=
    sendBit_ok_cases hu
  · exact ⟨hoff, hcnt, hq⟩
  · refine ⟨fun h => absurd h ho, ?_, hq⟩
    simp only [txShiftOut_tx]
    bv_omega
  · rw [Buffer.wf_iff] at hq
    obtain ⟨_, hlen⟩ := hq
    exact ⟨nofun, by simp, (Buffer.wf_iff _ _).mpr ⟨hl, hlen⟩⟩
  · exact ⟨fun _ => rfl, by simp, hq⟩
  · exact ⟨nofun, by simp, hq⟩

theorem exec_keeps_txInv {i : Instr} {s t : State} (h : txInv s.params.cap s.tx s.txd = true)
    (ht : exec i s = .next t) : txInv s.params.cap t.tx t.txd = true := by
  have ⟨hoff, hcnt, hq⟩ := (txInv_iff _ _ _).mp h
  cases exec_effect ht with
  | answers | rxStart | rxStop | rxGetSaved | ph1ClkRise | ph2RxSample | ph3ClkFall => exact h
  | txClear => exact (txInv_iff _ _ _).mpr ⟨fun _ => rfl, by simp, bufClear_keeps_wf _ _ hq⟩
  | txAdd b q hb => exact (txInv_iff _ _ _).mpr ⟨hoff, hcnt, bufWrite_keeps_wf _ _ _ b hq hb⟩
  | txStart => exact (txInv_iff _ _ _).mpr ⟨nofun, hcnt, hq⟩
  | txStop => exact (txInv_iff _ _ _).mpr ⟨fun _ => rfl, hcnt, hq⟩
  | txStopOnIdle => exact (txInv_iff _ _ _).mpr ⟨hoff, hcnt, hq⟩
  | ph0SendBit tx txd hb =>
    have hkept := sendBit_keeps_txInv h hb
    exact hkept

/-! ### The receive engine -/

/-- What the invariant says of a synchronised receive engine whatever its state is. -/
structure Synced (p : Params) (rx : RxEngine) : Prop where
  sync : rx.sync = true
  cnt : rx.cnt.toNat < 8
  active : (activeSlot rx).wf p.cap = true
  saved : (savedSlot rx).wf p.cap = true
  frame : rx.fc = true → 0 < (savedSlot rx).len ∧ (savedSlot rx).cflag = true

/-- What the invariant asks in each synchronised state (R53 invariants 3 and 5). -/
def StateOk (p : Params) (rx : RxEngine) : Prop :=
  match rx.state with
  | .outOfSync => False
  | .idle => True
  | .data => 0 < (activeSlot rx).len
  | .transparentData => p.ttdNext = .transparentData ∨ 0 < (activeSlot rx).len
  | .bcc1 | .bcc2 | .pad => rx.dle = false

theorem Synced.rxInv_of_stateOk {p : Params} {rx : RxEngine} (h : Synced p rx) (hs : StateOk p rx) :
    rxInv p rx = true := by
  rw [rxInv_iff]
  unfold StateOk at hs
  obtain ⟨hsync, hcnt, ha, hv, hf⟩ := h
  cases hst : rx.state <;> simp_all

theorem synced_of_rxInv {p : Params} {rx : RxEngine} (h : rxInv p rx = true)
    (hs : rx.state ≠ .outOfSync) : Synced p rx ∧ StateOk p rx := by
  obtain ⟨hsync, hdle, hdata, httd, hcnt, ⟨ha, hv⟩, hf⟩ := (rxInv_iff p rx).mp h
  refine ⟨⟨by simp [hsync, hs], hcnt.resolve_left hs, ha, hv, hf⟩, ?_⟩
  unfold StateOk
  cases hst : rx.state <;> simp_all

theorem Synced.goto {p : Params} {rx : RxEngine} (st : RxState) (h : Synced p rx) :
    Synced p (rxGoto st rx) := ⟨h.sync, h.cnt, h.active, h.saved, h.frame⟩

theorem Synced.setDle {p : Params} {rx : RxEngine} (f : Bool) (h : Synced p rx) :
    Synced p (rxSetDle f rx) := ⟨h.sync, h.cnt, h.active, h.saved, h.frame⟩

theorem Synced.append {p : Params} {rx : RxEngine} (v : Byte) (h : Synced p rx) :
    Synced p (rxAppend p.cap v rx) where
  sync := by simpa using h.sync
  cnt := by simpa using h.cnt
  active := rxAppend_keeps_wf _ _ _ h.active
  saved := by simpa using h.saved
  frame := by simpa using h.frame

/-- Completing a frame that is not empty leaves a completed frame in the saved slot (R226). -/
theorem Synced.complete {p : Params} {rx : RxEngine} (h : Synced p rx)
    (hne : 0 < (activeSlot rx).len) : Synced p (markFrameComplete rx) := by
  obtain ⟨ha, hs⟩ := markFrameComplete_slots rx
  refine ⟨by simpa using h.sync, by simpa using h.cnt, ?_, ?_, fun _ => ?_⟩
  · rw [ha]; exact bufClear_keeps_wf _ _ h.saved
  · rw [hs]; exact bufSetComplete_keeps_wf _ _ h.active
  · rw [hs]; exact ⟨by simpa using hne, bufSetComplete_cflag _ hne⟩

/-- A byte appended and the frame completed, as every ending does (R226). -/
theorem Synced.append_complete {p : Params} {rx : RxEngine} (hc : 2 ≤ p.cap) (v : Byte)
    (h : Synced p rx) : Synced p (markFrameComplete (rxAppend p.cap v rx)) :=
  (h.append v).complete (rxAppend_not_empty _ _ _ hc)

section
variable {p : Params} {rx : RxEngine} (hc : 2 ≤ p.cap) (b : Byte) (h : Synced p rx)
include hc h

theorem evalIdle_keeps_rxInv (hst : rx.state = .idle) : rxInv p (evalIdle p b rx) = true := by
  unfold evalIdle
  split_ifs
  · exact ((h.append _).setDle _).rxInv_of_stateOk (by simp [StateOk, hst])
  · exact (h.setDle _).rxInv_of_stateOk (by simp [StateOk, hst])
  · exact (h.setDle _).rxInv_of_stateOk (by simp [StateOk, hst])
  · exact ((((h.append _).append _).goto _).setDle _).rxInv_of_stateOk
      (.inr (rxAppend_not_empty _ _ _ hc))
  · exact (((h.append _).append_complete hc _).setDle _).rxInv_of_stateOk (by simp [StateOk, hst])
  · exact (((h.append _).goto _).setDle _).rxInv_of_stateOk (rxAppend_not_empty p.cap b rx hc)
  · exact ((h.append_complete hc _).setDle _).rxInv_of_stateOk (by simp [StateOk, hst])
  · exact (h.setDle _).rxInv_of_stateOk (by simp [StateOk, hst])

theorem evalData_keeps_rxInv (hst : rx.state = .data) (hne : 0 < (activeSlot rx).len) :
    rxInv p (evalData p b rx) = true := by
  have happ : StateOk p (rxSetDle false (rxAppend p.cap b rx)) := by
    simpa [StateOk, hst] using rxAppend_not_empty p.cap b rx hc
  unfold evalData
  split_ifs
  · exact (h.setDle _).rxInv_of_stateOk (by simpa [StateOk, hst])
  · exact (h.setDle _).rxInv_of_stateOk (by simpa [StateOk, hst])
  · exact ((((h.append _).append _).goto _).setDle _).rxInv_of_stateOk
      (.inr (rxAppend_not_empty _ _ _ hc))
  · exact ((h.append _).setDle _).rxInv_of_stateOk happ
  · exact (((h.append _).goto _).setDle _).rxInv_of_stateOk rfl
  · exact ((h.append _).setDle _).rxInv_of_stateOk happ

theorem evalTransparent_keeps_rxInv (hst : rx.state = .transparentData)
    (hne : p.ttdNext = .transparentData ∨ 0 < (activeSlot rx).len) :
    rxInv p (evalTransparent p b rx) = true := by
  have happ (v : Byte) : 0 < (activeSlot (rxAppend p.cap v rx)).len := rxAppend_not_empty _ _ _ hc
  unfold evalTransparent
  split_ifs
  · exact (h.setDle _).rxInv_of_stateOk (by simpa [StateOk, hst])
  · exact (h.append _).rxInv_of_stateOk (by simp [StateOk, hst, happ])
  · exact ((h.append _).setDle _).rxInv_of_stateOk (by simp [StateOk, hst, happ])
  · refine ((((h.append _).append_complete hc _).goto _).setDle _).rxInv_of_stateOk ?_
    cases httd : p.ttdNext <;> simp [StateOk, ttdState, httd]
  · exact ((((h.append _).append _).goto _).setDle _).rxInv_of_stateOk rfl
  · exact ((h.append _).setDle _).rxInv_of_stateOk (by simp [StateOk, hst, happ])

end

theorem processByte_keeps_rxInv {p : Params} {rx : RxEngine} (hc : 2 ≤ p.cap) (b : Byte)
    (h : rxInv p rx = true) : rxInv p (processByte p b rx) = true := by
  unfold processByte
  by_cases hout : rx.state = .outOfSync
  · rw [hout]; exact h
  obtain ⟨hs, hok⟩ := synced_of_rxInv h hout
  unfold StateOk at hok
  cases hst : rx.state <;> rw [hst] at hok
  case outOfSync => exact hok.elim
  case idle => exact evalIdle_keeps_rxInv hc b hs hst
  case data => exact evalData_keeps_rxInv hc b hs hst hok
  case transparentData => exact evalTransparent_keeps_rxInv hc b hs hst hok
  case bcc1 => exact ((hs.append b).goto .bcc2).rxInv_of_stateOk (by simpa [StateOk] using hok)
  case bcc2 => exact ((hs.append b).goto .pad).rxInv_of_stateOk (by simpa [StateOk] using hok)
  case pad => exact ((hs.append_complete hc b).goto .idle).rxInv_of_stateOk trivial

/-- The shift register is free, and the bit counter below 8 in the synchronised states. -/
theorem rxInv_setBits {p : Params} {rx : RxEngine} (h : rxInv p rx = true) (sr cnt : Byte)
    (hcnt : rx.state = .outOfSync ∨ cnt.toNat < 8) :
    rxInv p { rx with sr := sr, cnt := cnt } = true := by
  rw [rxInv_iff] at h ⊢
  obtain ⟨hsync, hdle, hdata, httd, _, hslots, hf⟩ := h
  exact ⟨hsync, hdle, hdata, httd, hcnt, hslots, hf⟩

/-- A SYN found in the hunt synchronises the engine (R223). -/
theorem sync_keeps_rxInv {p : Params} {rx : RxEngine} (h : rxInv p rx = true) :
    rxInv p { rxAppend p.cap Config.syn rx with cnt := 0#8, sync := true, state := .idle } = true := by
  obtain ⟨_, _, _, _, _, ⟨ha, hv⟩, hf⟩ := (rxInv_iff p rx).mp h
  rw [← savedSlot_rxAppend p.cap Config.syn rx] at hv hf
  rw [← rxAppend_fc p.cap Config.syn rx] at hf
  have hsynced : Synced p { rxAppend p.cap Config.syn rx with cnt := 0#8, sync := true, state := .idle } :=
    ⟨rfl, by simp, rxAppend_keeps_wf _ _ _ ha, hv, hf⟩
  exact hsynced.rxInv_of_stateOk trivial

theorem rxSample_keeps_rxInv {p : Params} {rx : RxEngine} (hc : 2 ≤ p.cap) (bit : Bool)
    (h : rxInv p rx = true) : rxInv p (rxSample p bit rx) = true := by
  have hbits := rxInv_setBits h (getBit bit rx).sr
  unfold rxSample
  obtain ⟨ho, _, e⟩ | ⟨ho, _, e⟩ | ⟨_, _, e⟩ | ⟨ho, hn, e⟩ := processBit_cases p (getBit bit rx)
  · rw [e]; exact sync_keeps_rxInv (hbits _ (.inl ho))
  · rw [e]; exact hbits _ (.inl ho)
  · rw [e]; exact processByte_keeps_rxInv hc _ (hbits 0#8 (.inr (by simp)))
  · rw [e]
    have hlt : rx.cnt.toNat < 8 := (synced_of_rxInv h ho).1.cnt
    refine hbits _ (.inr ?_)
    simp only [getBit_cnt] at hn ⊢
    bv_omega

theorem exec_keeps_rxInv {i : Instr} {s t : State} (hc : 2 ≤ s.params.cap)
    (h : rxInv s.params s.rx = true) (ht : exec i s = .next t) : rxInv s.params t.rx = true := by
  have ⟨hsync, hdle, hdata, httd, hcnt, hslots, hf⟩ := (rxInv_iff _ _).mp h
  cases exec_effect ht with
  | rxStart => exact (rxInv_iff _ _).mpr ⟨rfl, nofun, nofun, nofun, .inl rfl, hslots, hf⟩
  | rxGetSaved sn _ => exact (rxInv_iff _ _).mpr ⟨hsync, hdle, hdata, httd, hcnt, hslots, nofun⟩
  | ph2RxSample => exact rxSample_keeps_rxInv hc _ h
  | answers | txClear | txAdd | txStart | txStop | txStopOnIdle | rxStop | ph0SendBit | ph1ClkRise
  | ph3ClkFall => exact h

/-! ### The snapshot, and PHASE with the clocks -/

theorem exec_keeps_snap_wf {i : Instr} {s t : State} (h : s.snap.wf s.params.cap = true)
    (hsaved : (savedSlot s.rx).wf s.params.cap = true) (ht : exec i s = .next t) :
    t.snap.wf s.params.cap = true := by
  cases exec_effect ht with
  | rxGetSaved sn hsn => exact snapTake_keeps_wf _ _ _ _ hsaved h hsn
  | answers | txClear | txAdd | txStart | txStop | txStopOnIdle | rxStart | rxStop | ph0SendBit
  | ph1ClkRise | ph2RxSample | ph3ClkFall => exact h

/-- The instruction of each value of PHASE (R119). -/
theorem decodePhase_cases (p : BitVec 2) :
    (p = 0#2 ∧ decodePhase p = .ph0SendBit) ∨ (p = 1#2 ∧ decodePhase p = .ph1ClkRise) ∨
      (p = 2#2 ∧ decodePhase p = .ph2RxSample) ∨ (p = 3#2 ∧ decodePhase p = .ph3ClkFall) := by
  revert p; decide

theorem clockInv_iff (s : State) :
    clockInv s = true ↔
      s.clkTx = s.clkRx ∧ s.clkTx = (decide (s.phase = 2#2) || decide (s.phase = 3#2)) := by
  simp [clockInv]

/-- A command leaves PHASE and the clocks. -/
theorem exec_command_frame {i : Instr} {s t : State} (hi : i.isCommand = true)
    (ht : exec i s = .next t) : t.phase = s.phase ∧ t.clkTx = s.clkTx ∧ t.clkRx = s.clkRx := by
  cases exec_effect ht with
  | ph0SendBit | ph1ClkRise | ph2RxSample | ph3ClkFall => cases hi
  | answers | txClear | txAdd | txStart | txStop | txStopOnIdle | rxStart | rxStop | rxGetSaved =>
    exact ⟨rfl, rfl, rfl⟩

/-- The micro-operation PHASE selects keeps the clocks as PHASE has them (R53 invariants 4 and 7). -/
theorem exec_phase_keeps_clockInv {s t : State} (h : clockInv s = true)
    (ht : exec (decodePhase s.phase) s = .next t) : clockInv t = true := by
  rw [clockInv_iff] at h ⊢
  obtain ⟨hp, e⟩ | ⟨hp, e⟩ | ⟨hp, e⟩ | ⟨hp, e⟩ := decodePhase_cases s.phase <;> rw [e] at ht
  · obtain ⟨u, hu, rfl⟩ := execPh0SendBit_next ht
    rw [sendBit_frame hu]
    simpa [hp] using h
  · cases ht; simp [hp]
  · cases ht; simpa [hp] using h
  · cases ht; simp [hp]

theorem exec_keeps_clockInv {i : Instr} {s t : State} (hi : i.isCommand = true ∨ i = decodePhase s.phase)
    (h : clockInv s = true) (ht : exec i s = .next t) : clockInv t = true := by
  obtain hi | rfl := hi
  · obtain ⟨hp, hx, hr⟩ := exec_command_frame hi ht
    rw [clockInv_iff] at h ⊢
    rwa [hp, hx, hr]
  · exact exec_phase_keeps_clockInv h ht

/-! ### The whole invariant -/

/-- An instruction that a step can run in `s` keeps the invariant. -/
theorem exec_keeps_inv {i : Instr} {s t : State} (hi : i.isCommand = true ∨ i = decodePhase s.phase)
    (h : s.inv = true) (ht : exec i s = .next t) : t.inv = true := by
  obtain ⟨hp, htx, hrx, hsn, hck⟩ := (State.inv_iff s).mp h
  rw [State.inv_iff, exec_keeps_params ht]
  exact ⟨hp, exec_keeps_txInv htx ht, exec_keeps_rxInv (cap_bounds s h).1 hrx ht,
    exec_keeps_snap_wf hsn (slots_wf s h).2 ht, exec_keeps_clockInv hi hck ht⟩

/-- A buffer that keeps the invariant ends before the store does, so an index below its length exists. -/
theorem len_lt_cap {cap : Nat} {b : Buffer} (hc : 2 ≤ cap) (h : b.wf cap = true) : b.len < cap := by
  obtain ⟨_, hl, _⟩ := (Buffer.wf_iff cap b).mp h
  omega

theorem respondByte_goes {r : Result Byte} {s : State} (h : ∀ f, r ≠ .fault f) :
    Goes (respondByte r s) := by
  obtain ⟨_, _, e⟩ | ⟨_, _, e⟩ | ⟨f, hr, _⟩ := respondByte_cases r s
  · exact ⟨_, e⟩
  · exact ⟨_, e⟩
  · exact absurd hr (h f)

theorem sendBit_answers {s : State} (h : s.inv = true) : ∃ u, sendBit s = .ok u := by
  have hlt := len_lt_cap (cap_bounds s h).1 (queue_wf s h)
  obtain ⟨_, e⟩ | ⟨_, _, e⟩ | ⟨_, _, e⟩ := sendBit_cases s
  · exact ⟨_, e⟩
  · exact ⟨_, e⟩
  · rw [e]
    obtain ⟨_, _, f⟩ | ⟨_, _, f⟩ | ⟨_, _, f⟩ | ⟨_, _, _⟩ := txFetch_cases s
    · exact ⟨_, f⟩
    · exact ⟨_, f⟩
    · exact ⟨_, f⟩
    · omega

/-- In a state that keeps the invariant every instruction goes on (R300). -/
theorem exec_goes (i : Instr) {s : State} (h : s.inv = true) : Goes (exec i s) := by
  have hc := (cap_bounds s h).1
  obtain ⟨hactive, hsaved⟩ := slots_wf s h
  cases i with
  | txAdd b =>
    obtain ⟨_, e⟩ | ⟨_, _, _, e⟩ := execTxAdd_cases b s
    · exact ⟨_, e⟩
    · exact ⟨_, e⟩
  | rxGetSaved =>
    have hlt := len_lt_cap hc hsaved
    obtain ⟨_, e⟩ | ⟨_, _, _, _, e⟩ | ⟨_, _, _⟩ := execRxGetSaved_cases s
    · exact ⟨_, e⟩
    · exact ⟨_, e⟩
    · omega
  | rxFrameByte n =>
    have hlt := len_lt_cap hc hactive
    refine respondByte_goes fun f => ?_
    obtain ⟨_, e⟩ | ⟨_, _, e⟩ | ⟨_, _, _⟩ := bufGet_cases s.params.cap (activeSlot s.rx) n
    · simp [e]
    · simp [e]
    · omega
  | snapByte n =>
    have hlen := ((Snapshot.wf_iff _ _).mp ((State.inv_iff s).mp h).2.2.2.1).1
    refine respondByte_goes fun f => ?_
    obtain ⟨_, e⟩ | ⟨_, _, e⟩ | ⟨_, _, _⟩ := snapGet_cases s.params.cap s.snap n
    · simp [e]
    · simp [e]
    · omega
  | ph0SendBit =>
    obtain ⟨u, hu⟩ := sendBit_answers h
    exact ⟨advancePhase u, by simp [exec, execPh0SendBit, hu]⟩
  | _ => exact ⟨_, rfl⟩

/-! ### Steps and runs -/

/-- Taking the next move changes the model's own fields only. -/
theorem takeMove_frame {s t : State} {m : Move} (h : takeMove s = (m, t)) :
    t.inv = s.inv ∧ t.params = s.params := by
  obtain ⟨_, _, _, e⟩ | ⟨_, e⟩ := takeMove_cases s <;> cases e.symm.trans h <;> exact ⟨rfl, rfl⟩

/-- What an operand class makes is a command. -/
def makesCommands : OpShape → Prop
  | .plain i => i.isCommand = true
  | .byte mk => ∀ b, (mk b).isCommand = true
  | .index mk => ∀ n, (mk n).isCommand = true

theorem opShape_makesCommands {op : Byte} {shape : OpShape} (h : opShape op = some shape) :
    makesCommands shape := by
  unfold opShape at h
  split at h <;> cases h <;> simp [makesCommands, Instr.isCommand]

/-- A command word decodes to a command. -/
theorem isCommand_of_decode {cw : Word} {i : Instr} (h : decode (.command cw) = .ok i) :
    i.isCommand = true := by
  simp only [decode, decodeCommand] at h
  cases hop : opShape (opField cw) with
  | none => simp [hop] at h
  | some shape =>
    have hmk := opShape_makesCommands hop
    cases shape <;> simp only [hop] at h <;> split_ifs at h <;> cases h
    · exact hmk
    · exact hmk _
    · exact hmk _

/-- Everything a step does, as the invariant sees it: once the move is taken and RXD is at its level, it
answers an illegal word, or runs a command or the micro-operation PHASE selects. -/
theorem step_runs (s : State) : ∃ t : State, t.inv = s.inv ∧ t.params = s.params ∧
    (step s = .next (answerIllegal t) ∨
      ∃ i, (i.isCommand = true ∨ i = decodePhase t.phase) ∧ step s = exec i t) := by
  obtain ⟨_, t, i, ht, hd, e⟩ | ⟨_, t, _, ht, _, e⟩ | ⟨level, t, ht, e⟩ := step_cases s <;>
    obtain ⟨hinv, hp⟩ := takeMove_frame ht
  · exact ⟨t, hinv, hp, .inr ⟨i, .inl (isCommand_of_decode hd), e⟩⟩
  · exact ⟨t, hinv, hp, .inl e⟩
  · exact ⟨lineSets level t, hinv, hp, .inr ⟨_, .inr rfl, e⟩⟩

theorem step_keeps_params {s t : State} (h : step s = .next t) : t.params = s.params := by
  obtain ⟨s₁, _, hp, e | ⟨i, _, e⟩⟩ := step_runs s
  · cases e.symm.trans h; exact hp
  · exact (exec_keeps_params (e.symm.trans h)).trans hp

theorem step_keeps_inv {s t : State} (hs : s.inv = true) (h : step s = .next t) : t.inv = true := by
  obtain ⟨s₁, hinv, _, e | ⟨i, hi, e⟩⟩ := step_runs s <;> rw [← hinv] at hs
  · cases e.symm.trans h; exact hs
  · exact exec_keeps_inv hi hs (e.symm.trans h)

theorem step_goes {s : State} (hs : s.inv = true) : Goes (step s) := by
  obtain ⟨s₁, hinv, _, e | ⟨i, _, e⟩⟩ := step_runs s
  · exact ⟨_, e⟩
  · rw [e]; exact exec_goes i (hinv.trans hs)

/-- The state after reset keeps the invariant, with any listed moves (R54). -/
theorem resetWith_inv {p : Params} (ms : List Move) (hp : p.wf = true) :
    State.inv { State.resetWith p with moves := ms } = true := by
  have hfresh := fresh_wf p.cap
  rw [State.inv_iff, txInv_iff, rxInv_iff, Snapshot.wf_iff, clockInv_iff]
  exact ⟨hp, ⟨fun _ => rfl, by simp [State.resetWith], hfresh⟩,
    ⟨rfl, nofun, nofun, nofun, .inl rfl, ⟨hfresh, hfresh⟩, nofun⟩,
    ⟨Nat.zero_le _, rfl, rfl⟩, rfl, rfl⟩

/-- What reset establishes and every step keeps, every reachable state has. -/
theorem reachable_inv {p : Params} {s : State} (hp : p.wf = true) (h : Reachable p s) :
    s.inv = true ∧ s.params = p := by
  induction h with
  | reset ms => exact ⟨resetWith_inv ms hp, rfl⟩
  | step s t _ hst ih =>
    obtain ⟨hinv, hparams⟩ := ih
    exact ⟨step_keeps_inv hinv hst, (step_keeps_params hst).trans hparams⟩

/-- Settles O14: the invariant holds along every run, and a state that keeps it steps. -/
theorem everyRunGoesOn : Obligations.EveryRunGoesOn := by
  intro p s hp hr
  obtain ⟨hinv, hparams⟩ := reachable_inv hp hr
  exact ⟨hinv, hparams, step_goes hinv⟩

end Sys2Proof.Machine
end

section
/-! The state after reset, the invariant at reset and over a step, and which instruction writes which state
(R33, R50, R53, R54). -/

open Sys2Proof.Claims

namespace Sys2Proof.Machine

/-- Settles O12: each part of the invariant is kept by what the step runs. -/
theorem stepKeepsTheInvariant : Obligations.StepKeepsTheInvariant :=
  fun _ _ hs h => step_keeps_inv hs h

/-- Settles O11: reset establishes each part of the invariant. -/
theorem resetKeepsTheInvariant : Obligations.ResetKeepsTheInvariant :=
  fun _ ms hp => resetWith_inv ms hp

/-- Settles O9, field by field: the reset state lists each value R54 gives. -/
theorem resetValues : Obligations.ResetValues := by
  intro p
  and_intros <;> rfl

/-! ### The access matrix -/

/-- An append does not move the cursor (R152). -/
theorem bufWrite_pos {cap : Nat} {b b' : Buffer} {v : Byte} (h : bufWrite cap b v = .ok b') :
    b'.pos = b.pos := by
  obtain ⟨_, e⟩ | ⟨_, e⟩ := bufWrite_cases cap b v <;> cases e.symm.trans h
  rfl

/-- Sending a bit leaves the pending stop, and of the queue all but its cursor (R181). -/
theorem sendBit_keeps_stop_and_queue {s u : State} (h : sendBit s = .ok u) :
    u.tx.stopOnIdle = s.tx.stopOnIdle ∧ u.tx.q.len = s.tx.q.len ∧ u.tx.q.data = s.tx.q.data ∧
      u.tx.q.cflag = s.tx.q.cflag := by
  obtain ⟨_, rfl⟩ | ⟨_, _, rfl⟩ | ⟨_, _, _, _, rfl⟩ | ⟨_, _, _, _, rfl⟩ | ⟨_, _, _, _, rfl⟩ :=
    sendBit_ok_cases h <;> exact ⟨rfl, rfl, rfl, rfl⟩

/-- An ill-formed word is answered ILLEGAL (R113). -/
theorem step_offerMove_illegal {cw : Word} {r : Illegal} (s : State)
    (h : decode (.command cw) = .error r) :
    step (offerMove (.command cw) s) = .next (answerIllegal s) := by
  simp [step, h]

/-- FAIL of a success is 0, with the bit read as simp reads it (R116). -/
@[simp] theorem okWord_getElem_fail (v : Half) : (okWord v)[31] = false := okWord_fail_bit v

/-- Settles O15: what each instruction can leave of the state, row by row of R50. -/
theorem accessMatrix : Obligations.AccessMatrix := by
  refine ⟨fun i s t ht => ?_, fun s _ _ h => ⟨_, step_offerMove_illegal s h⟩⟩
  cases exec_effect ht with
  | answers _ w hi => simp [hi]
  | txAdd b q hq => simp [Instr.isCommand, bufWrite_pos hq]
  | ph0SendBit tx txd hb =>
    obtain ⟨hstop, hlen, hdata, hflag⟩ := sendBit_keeps_stop_and_queue hb
    simp_all [Instr.isCommand]
  | txClear | txStart | txStop | txStopOnIdle | rxStart | rxStop | rxGetSaved | ph1ClkRise
  | ph2RxSample | ph3ClkFall => simp [Instr.isCommand]

end Sys2Proof.Machine
end

section
/-! What R52 calls hidden is observable by nothing. `Paired` is `alike` between two states whose byte stores
are canonical, taken apart by engine; every instruction that goes on in one state goes on in a paired one,
and leaves them paired. -/

open Sys2Proof.Claims

namespace Sys2Proof.Machine

/-! ### Buffers and the snapshot -/

/-- Two buffers with canonical stores that differ at most in stale bytes and in the completion flag. -/
structure BufferPair (a b : Buffer) : Prop where
  same : sameBuffer a b
  left : a.data.wf = true
  right : b.data.wf = true

namespace BufferPair

variable {a b : Buffer} (h : BufferPair a b)
include h

theorem len : a.len = b.len := h.same.1

theorem clear : BufferPair (bufClear a) (bufClear b) :=
  ⟨⟨rfl, rfl, nofun⟩, h.left, h.right⟩

theorem setComplete : BufferPair (bufSetComplete a) (bufSetComplete b) :=
  ⟨by simpa [sameBuffer] using h.same, by simpa using h.left, by simpa using h.right⟩

/-- A write is refused in both, or stores the byte at the same index of both (R152). -/
theorem write (cap : Nat) (v : Byte) :
    (bufWrite cap a v = .sentinel .full ∧ bufWrite cap b v = .sentinel .full) ∨
      ∃ a' b', bufWrite cap a v = .ok a' ∧ bufWrite cap b v = .ok b' ∧ BufferPair a' b' := by
  obtain ⟨⟨hlen, hpos, hbytes⟩, hl, hr⟩ := h
  obtain ⟨hf, ea⟩ | ⟨hlt, ea⟩ := bufWrite_cases cap a v <;>
    obtain ⟨hf', eb⟩ | ⟨hlt', eb⟩ := bufWrite_cases cap b v
  · exact .inl ⟨ea, eb⟩
  · omega
  · omega
  · rw [← hlen] at eb
    refine .inr ⟨_, _, ea, eb, ⟨rfl, hpos, fun j hj => ?_⟩, memWrite_keeps_wf _ _ _ hl,
      memWrite_keeps_wf _ _ _ hr⟩
    simp only at hj ⊢
    by_cases hje : j = a.len
    · rw [hje, memByte_memWrite_same _ _ _ 0 hl, memByte_memWrite_same _ _ _ 0 hr]
    · rw [memByte_memWrite_other _ _ _ _ hje, memByte_memWrite_other _ _ _ _ hje]
      exact hbytes j (by omega)

theorem get (cap i : Nat) : bufGet cap a i = bufGet cap b i := by
  obtain ⟨hlen, _, hbytes⟩ := h.same
  unfold bufGet memRead
  rw [← hlen]
  split_ifs with hi
  · rfl
  · rw [hbytes i (by omega)]
  · rfl

end BufferPair

/-- Two snapshots with canonical stores that differ at most in stale bytes. -/
structure SnapPair (m n : Snapshot) : Prop where
  len : m.len = n.len
  bytes : ∀ j, j < m.len → memByte m.data j = memByte n.data j
  left : m.data.wf = true
  right : n.data.wf = true

theorem SnapPair.get {m n : Snapshot} (h : SnapPair m n) (cap i : Nat) :
    snapGet cap m i = snapGet cap n i := by
  unfold snapGet memRead
  rw [← h.len]
  split_ifs with hi
  · rfl
  · rw [h.bytes i (by omega)]
  · rfl

/-- A snapshot taken of paired buffers holds the same frame (R159). -/
theorem SnapPair.take {m n m' : Snapshot} {a b : Buffer} {cap : Nat} (h : SnapPair m n)
    (hb : BufferPair a b) (hm : snapTake cap a m = .ok m') :
    ∃ n', snapTake cap b n = .ok n' ∧ SnapPair m' n' := by
  obtain ⟨hlen, _, hbytes⟩ := hb.same
  obtain ⟨hl, e⟩ | ⟨_, e⟩ := snapTake_cases cap a m <;> cases e.symm.trans hm
  refine ⟨_, if_pos (hlen ▸ hl), hlen, fun j hj => ?_, memCopy_keeps_wf _ _ _ h.left,
    memCopy_keeps_wf _ _ _ h.right⟩
  simp only at hj ⊢
  rw [memByte_memCopy_lt _ _ _ _ hj h.left, memByte_memCopy_lt _ _ _ _ (hlen ▸ hj) h.right,
    hbytes j hj]

/-! ### The receive engine -/

/-- Two receive engines that differ at most in stale bytes, completion flags and the bit counter. -/
structure RxPair (a b : RxEngine) : Prop where
  state : a.state = b.state
  sr : a.sr = b.sr
  sync : a.sync = b.sync
  dle : a.dle = b.dle
  act : a.act = b.act
  fc : a.fc = b.fc
  active : BufferPair (activeSlot a) (activeSlot b)
  saved : BufferPair (savedSlot a) (savedSlot b)

/-- The slots of two engines with the same active index are paired exactly when their active and their
saved ones are. -/
theorem slots_paired_iff {a b : RxEngine} (h : a.act = b.act) :
    (BufferPair a.slot0 b.slot0 ∧ BufferPair a.slot1 b.slot1) ↔
      (BufferPair (activeSlot a) (activeSlot b) ∧ BufferPair (savedSlot a) (savedSlot b)) := by
  unfold activeSlot savedSlot
  rw [← h]
  cases a.act
  · exact Iff.rfl
  · exact And.comm

namespace RxPair

variable {a b : RxEngine} (h : RxPair a b)
include h

theorem goto (st : RxState) : RxPair (rxGoto st a) (rxGoto st b) :=
  ⟨rfl, h.sr, h.sync, h.dle, h.act, h.fc, h.active, h.saved⟩

theorem setDle (f : Bool) : RxPair (rxSetDle f a) (rxSetDle f b) :=
  ⟨h.state, h.sr, h.sync, rfl, h.act, h.fc, h.active, h.saved⟩

theorem append (cap : Nat) (v : Byte) : RxPair (rxAppend cap v a) (rxAppend cap v b) := by
  have hactive : BufferPair (activeSlot (rxAppend cap v a)) (activeSlot (rxAppend cap v b)) := by
    unfold rxAppend
    obtain ⟨ea, eb⟩ | ⟨a', b', ea, eb, hw⟩ := h.active.write cap v
    · rw [ea, eb]; exact h.active
    · rw [ea, eb]; simpa using hw
  exact ⟨by simpa using h.state, by simpa using h.sr, by simpa using h.sync, by simpa using h.dle,
    by simpa using h.act, by simpa using h.fc, hactive, by simpa using h.saved⟩

theorem complete : RxPair (markFrameComplete a) (markFrameComplete b) := by
  obtain ⟨haa, has⟩ := markFrameComplete_slots a
  obtain ⟨hba, hbs⟩ := markFrameComplete_slots b
  exact ⟨by simpa using h.state, by simpa using h.sr, by simpa using h.sync, by simpa using h.dle,
    by simpa using h.act, rfl, by rw [haa, hba]; exact h.saved.clear,
    by rw [has, hbs]; exact h.active.setComplete⟩

/-- The bit counter decides nothing of the pairing. -/
theorem setCnt (c d : Byte) : RxPair { a with cnt := c } { b with cnt := d } :=
  ⟨h.state, h.sr, h.sync, h.dle, h.act, h.fc, h.active, h.saved⟩

/-! The evaluations branch on the byte, the DLE flag and the active slot's length, which paired engines
share; each branch is made of the operations above. -/

theorem evalIdle (p : Params) (v : Byte) : RxPair (evalIdle p v a) (evalIdle p v b) := by
  unfold Machine.evalIdle
  rw [← h.dle, bufLen, bufLen, ← h.active.len]
  split_ifs <;> apply_rules [append, complete, goto, setDle]

theorem evalData (p : Params) (v : Byte) : RxPair (evalData p v a) (evalData p v b) := by
  unfold Machine.evalData
  rw [← h.dle]
  split_ifs <;> apply_rules [append, complete, goto, setDle]

theorem evalTransparent (p : Params) (v : Byte) :
    RxPair (evalTransparent p v a) (evalTransparent p v b) := by
  unfold Machine.evalTransparent
  rw [← h.dle]
  split_ifs <;> apply_rules [append, complete, goto, setDle]

theorem processByte (p : Params) {v w : Byte} (hv : v = w) :
    RxPair (processByte p v a) (processByte p w b) := by
  subst hv
  unfold Machine.processByte
  rw [← h.state]
  cases a.state with
  | outOfSync => exact h
  | idle => exact h.evalIdle p v
  | data => exact h.evalData p v
  | transparentData => exact h.evalTransparent p v
  | bcc1 => exact (h.append _ _).goto _
  | bcc2 => exact (h.append _ _).goto _
  | pad => exact (h.append _ _).complete.goto _

end RxPair

/-- The evaluation of a byte leaves the bit counter (R224). -/
theorem processByte_cnt (p : Params) (v : Byte) (rx : RxEngine) :
    (processByte p v rx).cnt = rx.cnt := by
  unfold processByte
  cases rx.state with
  | outOfSync => rfl
  | idle => unfold evalIdle; split_ifs <;> simp
  | data => unfold evalData; split_ifs <;> simp
  | transparentData => unfold evalTransparent; split_ifs <;> simp
  | bcc1 | bcc2 => simp [evalBcc1, evalBcc2]
  | pad => simp [evalPad]

/-- Two receive engines that differ at most in what R52 hides of them: the bit counter too only while
`OUT_OF_SYNC`. -/
structure RxAlike (a b : RxEngine) : Prop extends RxPair a b where
  cnt : a.state ≠ .outOfSync → a.cnt = b.cnt

theorem processBit_of_outOfSync {p : Params} {rx : RxEngine} (h : rx.state = .outOfSync) :
    processBit p rx = huntSync p rx := by
  simp [processBit, h]

theorem processBit_of_synced {p : Params} {rx : RxEngine} (h : rx.state ≠ .outOfSync) :
    processBit p rx =
      if rx.cnt = 8#8 then processByte p rx.sr { rx with cnt := 0#8 } else rx := by
  unfold processBit
  cases hs : rx.state with
  | outOfSync => exact absurd hs h
  | idle | data | transparentData | bcc1 | bcc2 | pad => rfl

theorem RxAlike.getBit {a b : RxEngine} (h : RxAlike a b) (bit : Bool) :
    RxAlike (getBit bit a) (getBit bit b) :=
  ⟨⟨h.state, by simp [h.sr], h.sync, h.dle, h.act, h.fc, h.active, h.saved⟩,
    fun hs => by simp [h.cnt hs]⟩

theorem RxAlike.setFc {a b : RxEngine} (h : RxAlike a b) (f : Bool) :
    RxAlike { a with fc := f } { b with fc := f } :=
  ⟨⟨h.state, h.sr, h.sync, h.dle, h.act, rfl, h.active, h.saved⟩, h.cnt⟩

/-- Out of sync the bit counters may differ (R240). -/
theorem RxAlike.loseSync {a b : RxEngine} (h : RxAlike a b) :
    RxAlike { a with sync := false, state := .outOfSync } { b with sync := false, state := .outOfSync } :=
  ⟨⟨rfl, h.sr, rfl, h.dle, h.act, h.fc, h.active, h.saved⟩, fun hn => absurd rfl hn⟩

/-- The hunt reads the shift register alone, and sets the bit counter when it ends (R223). -/
theorem RxAlike.huntSync {a b : RxEngine} (h : RxAlike a b) (p : Params) :
    RxAlike (huntSync p a) (huntSync p b) := by
  unfold Machine.huntSync
  rw [← h.sr]
  split_ifs
  · have happ := h.append p.cap Config.syn
    exact ⟨⟨rfl, happ.sr, rfl, happ.dle, happ.act, happ.fc, happ.active, happ.saved⟩, fun _ => rfl⟩
  · exact h

theorem RxAlike.processBit {a b : RxEngine} (h : RxAlike a b) (p : Params) :
    RxAlike (processBit p a) (processBit p b) := by
  by_cases hs : a.state = .outOfSync
  · rw [processBit_of_outOfSync hs, processBit_of_outOfSync (h.state ▸ hs)]
    exact h.huntSync p
  · rw [processBit_of_synced hs, processBit_of_synced (h.state ▸ hs), ← h.cnt hs]
    split_ifs
    · exact ⟨(h.setCnt 0 0).processByte p h.sr, fun _ => by simp only [processByte_cnt]⟩
    · exact h

/-! ### The send engine -/

/-- Two send engines that differ at most in stale bytes, the completion flag and the bits of the shift
register not due to be driven. -/
structure TxPair (a b : TxEngine) : Prop where
  state : a.state = b.state
  cnt : a.cnt = b.cnt
  stop : a.stopOnIdle = b.stopOnIdle
  bits : ∀ k, k < a.cnt.toNat → a.sr.getLsbD k = b.sr.getLsbD k
  queue : BufferPair a.q b.q

namespace TxPair

variable {a b : TxEngine} (h : TxPair a b)
include h

theorem setQueue {q r : Buffer} (hq : BufferPair q r) : TxPair { a with q := q } { b with q := r } :=
  ⟨h.state, h.cnt, h.stop, h.bits, hq⟩

theorem setState (st : TxState) : TxPair { a with state := st } { b with state := st } :=
  ⟨rfl, h.cnt, h.stop, h.bits, h.queue⟩

theorem setStop (f : Bool) : TxPair { a with stopOnIdle := f } { b with stopOnIdle := f } :=
  ⟨h.state, h.cnt, rfl, h.bits, h.queue⟩

/-- With no bit left, none is due. -/
theorem setCntZero : TxPair { a with cnt := 0#4 } { b with cnt := 0#4 } :=
  ⟨h.state, rfl, h.stop, by simp, h.queue⟩

/-- The cursor moves on alike (R153). -/
theorem moveCursor : TxPair { a with q := { a.q with pos := a.q.pos + 1 } }
    { b with q := { b.q with pos := b.q.pos + 1 } } := by
  obtain ⟨hlen, hpos, hbytes⟩ := h.queue.same
  exact h.setQueue ⟨⟨hlen, congrArg (· + 1) hpos, hbytes⟩, h.queue.left, h.queue.right⟩

/-- A byte loaded makes the shift registers equal (R181, step 2). -/
theorem load (v : Byte) (st : TxState) :
    TxPair { a with sr := v, cnt := 8#4, state := st } { b with sr := v, cnt := 8#4, state := st } :=
  ⟨rfl, rfl, h.stop, fun _ _ => rfl, h.queue⟩

/-- Shifting one bit out leaves equal the bits still due (R181, steps 3 and 4). -/
theorem shift (hc : a.cnt ≠ 0#4) :
    TxPair { a with sr := a.sr >>> 1, cnt := a.cnt - 1#4 }
      { b with sr := b.sr >>> 1, cnt := b.cnt - 1#4 } := by
  refine ⟨h.state, congrArg (· - 1#4) h.cnt, h.stop, fun k hk => ?_, h.queue⟩
  simp only [BitVec.getLsbD_ushiftRight] at hk ⊢
  exact h.bits (1 + k) (by bv_omega)

end TxPair

/-! ### The whole state -/

/-- The states paired with `s`: what R52 does not hide is that of `s`, and the engines and the snapshot
differ at most in what it does. -/
inductive Paired (s : State) : State → Prop where
  | intro (x : TxEngine) (r : RxEngine) (n : Snapshot) : TxPair s.tx x → RxAlike s.rx r →
      SnapPair s.snap n → Paired s { s with tx := x, rx := r, snap := n }

/-- The update neither reads nor writes the engines and the snapshot. -/
def PlainUpdate (f : State → State) : Prop :=
  ∀ (s : State) (x : TxEngine) (r : RxEngine) (n : Snapshot),
    f { s with tx := x, rx := r, snap := n } = { f s with tx := x, rx := r, snap := n }

namespace Paired

variable {s t : State} (h : Paired s t)
include h

theorem params : t.params = s.params := by cases h; rfl

theorem phase : t.phase = s.phase := by cases h; rfl

theorem rxd : t.rxd = s.rxd := by cases h; rfl

theorem tx : TxPair s.tx t.tx := by cases h; assumption

theorem rx : RxAlike s.rx t.rx := by cases h; assumption

theorem snap : SnapPair s.snap t.snap := by cases h; assumption

theorem setTx {x y : TxEngine} (hx : TxPair x y) : Paired { s with tx := x } { t with tx := y } := by
  obtain ⟨_, r, n, _, hr, hn⟩ := h
  exact ⟨y, r, n, hx, hr, hn⟩

theorem setRx {x y : RxEngine} (hx : RxAlike x y) : Paired { s with rx := x } { t with rx := y } := by
  obtain ⟨z, _, n, hz, _, hn⟩ := h
  exact ⟨z, y, n, hz, hx, hn⟩

theorem setSnap {m n : Snapshot} (hn : SnapPair m n) :
    Paired { s with snap := m } { t with snap := n } := by
  obtain ⟨x, r, _, hx, hr, _⟩ := h
  exact ⟨x, r, n, hx, hr, hn⟩

theorem update {f : State → State} (hf : PlainUpdate f) : Paired (f s) (f t) := by
  obtain ⟨x, r, n, hx, hr, hn⟩ := h
  rw [hf s x r n, show f s = { f s with tx := s.tx, rx := s.rx, snap := s.snap } from hf s _ _ _]
  exact ⟨x, r, n, hx, hr, hn⟩

theorem respondOk {v w : Half} (hv : v = w) : Paired (respondOk v s) (respondOk w t) := by
  subst hv
  exact h.update (f := Machine.respondOk v) fun _ _ _ _ => rfl

theorem respondFail (c : ReasonCode) : Paired (respondFail c s) (respondFail c t) :=
  h.update (f := Machine.respondFail c) fun _ _ _ _ => rfl

theorem driveTxd (level : Bool) : Paired (driveTxd level s) (driveTxd level t) :=
  h.update (f := Machine.driveTxd level) fun _ _ _ _ => rfl

theorem driveCts (level : Bool) : Paired (driveCts level s) (driveCts level t) :=
  h.update (f := Machine.driveCts level) fun _ _ _ _ => rfl

theorem driveClocks (level : Bool) : Paired (driveClocks level s) (driveClocks level t) :=
  h.update (f := Machine.driveClocks level) fun _ _ _ _ => rfl

theorem lineSets (level : Bool) : Paired (lineSets level s) (lineSets level t) :=
  h.update (f := Machine.lineSets level) fun _ _ _ _ => rfl

theorem advancePhase : Paired (advancePhase s) (advancePhase t) :=
  h.update (f := Machine.advancePhase) fun _ _ _ _ => rfl

/-- The bit driven is due, so it is the same one (R181, step 3). -/
theorem txShiftOut (hc : s.tx.cnt ≠ 0#4) : Paired (txShiftOut s) (txShiftOut t) := by
  obtain ⟨x, r, n, hx, hr, hn⟩ := h
  have hbit : s.tx.sr.getLsbD 0 = x.sr.getLsbD 0 := hx.bits 0 (by bv_omega)
  have hshift := hx.shift hc
  simp only [Machine.txShiftOut, ← hbit]
  exact ⟨_, r, n, hshift, hr, hn⟩

theorem txLoad (v : Byte) (st : TxState) : Paired (txLoad v st s) (txLoad v st t) :=
  h.setTx (h.tx.load v st)

/-- The two status words show nothing that is hidden (R48, R49). -/
theorem txStat : txStat s = txStat t := by
  obtain ⟨x, r, n, hx, _, _⟩ := h
  simp only [Machine.txStat, hx.cnt, hx.stop, hx.state]

theorem rxStat : rxStat s = rxStat t := by
  obtain ⟨x, r, n, _, hr, _⟩ := h
  simp only [Machine.rxStat, hr.act, hr.fc, hr.dle, hr.sync, hr.state]

end Paired

theorem bufferPair_of_same {cap : Nat} {a b : Buffer} (h : sameBuffer a b) (ha : a.wf cap = true)
    (hb : b.wf cap = true) : BufferPair a b :=
  ⟨h, ((Buffer.wf_iff _ _).mp ha).2.2.1, ((Buffer.wf_iff _ _).mp hb).2.2.1⟩

/-- In a state that keeps the invariant the snapshot is sound. -/
theorem snap_wf {s : State} (h : s.inv = true) : s.snap.wf s.params.cap = true :=
  ((State.inv_iff s).mp h).2.2.2.1

/-- States that keep the invariant have canonical stores, so the alike ones are paired. -/
theorem paired_of_alike {s t : State} (hs : s.inv = true) (ht : t.inv = true) (h : alike s t) :
    Paired s t := by
  obtain ⟨hparams, hphase, htxd, hrxd, hclkTx, hclkRx, hcts, hrw, hmoves, hdrawn, hstate, hcnt, hstop,
    hbits, hq, hrstate, hrsr, hrcnt, hsync, hdle, hact, hfc, h0, h1, hlen, hbytes⟩ := h
  have hplain : { s with tx := t.tx, rx := t.rx, snap := t.snap } = t := by
    simp only [hparams, hphase, htxd, hrxd, hclkTx, hclkRx, hcts, hrw, hmoves, hdrawn]
  obtain ⟨hs0, hs1⟩ := (slots_wf_iff _ _).mpr (slots_wf s hs)
  obtain ⟨ht0, ht1⟩ := (slots_wf_iff _ _).mpr (slots_wf t ht)
  rw [← hparams] at ht0 ht1
  obtain ⟨hactive, hsaved⟩ := (slots_paired_iff hact).mp
    ⟨bufferPair_of_same h0 hs0 ht0, bufferPair_of_same h1 hs1 ht1⟩
  have hqueue := bufferPair_of_same hq (queue_wf s hs) (hparams ▸ queue_wf t ht)
  obtain ⟨_, hsn, _⟩ := (Snapshot.wf_iff _ _).mp (snap_wf hs)
  obtain ⟨_, htn, _⟩ := (Snapshot.wf_iff _ _).mp (snap_wf ht)
  have hpaired := Paired.intro (s := s) t.tx t.rx t.snap ⟨hstate, hcnt, hstop, hbits, hqueue⟩
    ⟨⟨hrstate, hrsr, hsync, hdle, hact, hfc, hactive, hsaved⟩, hrcnt⟩ ⟨hlen, hbytes, hsn, htn⟩
  rwa [hplain] at hpaired

theorem alike_of_paired {s t : State} (h : Paired s t) : alike s t := by
  obtain ⟨x, r, n, hx, hr, hn⟩ := h
  obtain ⟨h0, h1⟩ := (slots_paired_iff hr.act).mpr ⟨hr.active, hr.saved⟩
  exact ⟨rfl, rfl, rfl, rfl, rfl, rfl, rfl, rfl, rfl, rfl, hx.state, hx.cnt, hx.stop, hx.bits,
    hx.queue.same, hr.state, hr.sr, hr.cnt, hr.sync, hr.dle, hr.act, hr.fc, h0.same, h1.same,
    hn.len, hn.bytes⟩

/-! ### Instructions and steps -/

/-- Sending a bit takes the same of its cases in both (R181). -/
theorem Paired.sendBit {s t u : State} (h : Paired s t) (hu : sendBit s = .ok u) :
    ∃ v, sendBit t = .ok v ∧ Paired u v := by
  obtain ⟨hlen, hpos, hbytes⟩ := h.tx.queue.same
  have hstate := h.tx.state
  have hcnt := h.tx.cnt
  have hstop := h.tx.stop
  obtain ⟨ho, rfl⟩ | ⟨ho, hc, rfl⟩ | ⟨ho, hc, hl, hcap, rfl⟩ | ⟨ho, hc, hl, hs, rfl⟩ |
    ⟨ho, hc, hl, hs, rfl⟩ := sendBit_ok_cases hu
  · exact ⟨t, sendBit_of_off (hstate ▸ ho), h⟩
  · exact ⟨_, sendBit_of_bits_left (hstate ▸ ho) (hcnt ▸ hc), h.txShiftOut hc⟩
  · have hfetch := txFetch_of_pending (s := t) (by omega) (by rw [h.params]; omega)
    have hbyte : memByte t.tx.q.data t.tx.q.pos = memByte s.tx.q.data s.tx.q.pos := by
      rw [← hpos, hbytes _ hl]
    rw [hbyte] at hfetch
    exact ⟨_, (sendBit_of_none_left (hstate ▸ ho) (hcnt ▸ hc)).trans hfetch,
      ((h.setTx h.tx.moveCursor).txLoad _ _).txShiftOut (by simp)⟩
  · exact ⟨_, (sendBit_of_none_left (hstate ▸ ho) (hcnt ▸ hc)).trans
      (txFetch_of_stop (by omega) (hstop ▸ hs)), (h.txLoad _ _).driveTxd _⟩
  · exact ⟨_, (sendBit_of_none_left (hstate ▸ ho) (hcnt ▸ hc)).trans
      (txFetch_of_fill (by omega) (hstop ▸ hs)), (h.txLoad _ _).txShiftOut (by simp)⟩

/-- A read that finds the same byte answers the same. -/
theorem Paired.respondByte {s t u : State} {a b : Result Byte} (h : Paired s t) (hr : a = b)
    (hu : respondByte a s = .next u) : ∃ v, respondByte b t = .next v ∧ Paired u v := by
  subst hr
  cases a with
  | ok v => cases hu; exact ⟨_, rfl, h.respondOk rfl⟩
  | sentinel c => cases hu; exact ⟨_, rfl, h.respondFail c⟩
  | fault f => cases hu

theorem Paired.txAdd {s t u : State} (h : Paired s t) (b : Byte) (hu : execTxAdd b s = .next u) :
    ∃ v, execTxAdd b t = .next v ∧ Paired u v := by
  unfold execTxAdd at hu ⊢
  obtain ⟨es, et⟩ | ⟨q, r, es, et, hq⟩ := h.tx.queue.write s.params.cap b <;>
    rw [← h.params] at et <;> rw [es] at hu <;> rw [et] <;> cases hu
  · exact ⟨_, rfl, h.respondFail _⟩
  · exact ⟨_, rfl, (h.setTx (h.tx.setQueue hq)).respondOk
      (congrArg zextCount hq.len)⟩

theorem Paired.rxGetSaved {s t u : State} (h : Paired s t) (hu : execRxGetSaved s = .next u) :
    ∃ v, execRxGetSaved t = .next v ∧ Paired u v := by
  have hrx := h.rx
  obtain ⟨hf, e⟩ | ⟨hf, _, m, hm, e⟩ | ⟨_, _, e⟩ := execRxGetSaved_cases s <;>
    cases e.symm.trans hu
  · exact ⟨_, if_pos (hrx.fc ▸ hf), h.respondFail _⟩
  · obtain ⟨n, hn, hsnap⟩ := h.snap.take hrx.saved hm
    have ht : execRxGetSaved t = .next (Machine.respondOk (zextCount n.len)
        { t with snap := n, rx := { t.rx with fc := false } }) := by
      simp [execRxGetSaved, ← hrx.fc, hf, h.params, hn]
    exact ⟨_, ht, ((h.setSnap hsnap).setRx (hrx.setFc false)).respondOk (congrArg zextCount hsnap.len)⟩

/-- An instruction that goes on in one of two paired states goes on in the other and leaves them paired. -/
theorem Paired.exec {s t u : State} (h : Paired s t) (i : Instr) (hu : exec i s = .next u) :
    ∃ v, exec i t = .next v ∧ Paired u v := by
  have hx := h.tx
  have hr := h.rx
  cases i with
  | txAdd b => exact h.txAdd b hu
  | rxGetSaved => exact h.rxGetSaved hu
  | rxFrameByte n => exact h.respondByte (by rw [h.params]; exact hr.active.get _ n) hu
  | snapByte n => exact h.respondByte (by rw [h.params]; exact h.snap.get _ n) hu
  | ph0SendBit =>
    obtain ⟨u', hu', rfl⟩ := execPh0SendBit_next hu
    obtain ⟨v, hv, hpair⟩ := h.sendBit hu'
    exact ⟨Machine.advancePhase v, by simp [Machine.exec, execPh0SendBit, hv], hpair.advancePhase⟩
  | txClear =>
    cases hu
    have hclear := (((hx.setQueue hx.queue.clear).setCntZero).setState .off).setStop false
    exact ⟨_, rfl, ((h.setTx hclear).driveTxd _).respondOk rfl⟩
  | txStart => cases hu; exact ⟨_, rfl, (h.setTx ((hx.setState .xmit).setStop false)).respondOk rfl⟩
  | txStop => cases hu; exact ⟨_, rfl, ((h.setTx (hx.setState .off)).driveTxd _).respondOk rfl⟩
  | txStopOnIdle => cases hu; exact ⟨_, rfl, (h.setTx (hx.setStop true)).respondOk rfl⟩
  | txRemaining =>
    cases hu
    obtain ⟨hlen, hpos, _⟩ := hx.queue.same
    exact ⟨_, rfl, h.respondOk (by rw [hlen, hpos])⟩
  | txState => cases hu; exact ⟨_, rfl, h.respondOk h.txStat⟩
  | rxStart => cases hu; exact ⟨_, rfl, ((h.driveCts true).setRx hr.loseSync).respondOk rfl⟩
  | rxStop => cases hu; exact ⟨_, rfl, (h.driveCts false).respondOk rfl⟩
  | rxFrameComplete => cases hu; exact ⟨_, rfl, h.respondOk (congrArg zextFlag hr.fc)⟩
  | rxFrameLen => cases hu; exact ⟨_, rfl, h.respondOk (congrArg zextCount hr.active.len)⟩
  | rxState => cases hu; exact ⟨_, rfl, h.respondOk h.rxStat⟩
  | snapLen => cases hu; exact ⟨_, rfl, h.respondOk (congrArg zextCount h.snap.len)⟩
  | ph1ClkRise => cases hu; exact ⟨_, rfl, (h.driveClocks true).advancePhase⟩
  | ph2RxSample =>
    cases hu
    refine ⟨_, rfl, (h.setRx ?_).advancePhase⟩
    rw [h.params, h.rxd]
    exact (hr.getBit _).processBit _
  | ph3ClkFall => cases hu; exact ⟨_, rfl, (h.driveClocks false).advancePhase⟩

/-- Paired states have the same moves to come. -/
theorem Paired.takeMove {s t s₁ : State} {m : Move} (h : Paired s t) (hm : takeMove s = (m, s₁)) :
    ∃ t₁, takeMove t = (m, t₁) ∧ Paired s₁ t₁ := by
  obtain ⟨x, r, n, hx, hr, hn⟩ := h
  obtain ⟨_, rest, hs, e⟩ | ⟨hs, e⟩ := takeMove_cases s <;> cases e.symm.trans hm <;>
    exact ⟨_, by simp [Machine.takeMove, hs], ⟨x, r, n, hx, hr, hn⟩⟩

theorem Paired.step {s t s' : State} (h : Paired s t) (hs : step s = .next s') :
    ∃ t', step t = .next t' ∧ Paired s' t' := by
  obtain ⟨cw, s₁, i, hm, hd, e⟩ | ⟨cw, s₁, r, hm, hd, e⟩ | ⟨level, s₁, hm, e⟩ := step_cases s <;>
    obtain ⟨t₁, ht, h₁⟩ := h.takeMove hm <;> rw [e] at hs
  · obtain ⟨t', ht', h'⟩ := h₁.exec i hs
    exact ⟨t', by simp [Machine.step, ht, hd, ht'], h'⟩
  · cases hs
    exact ⟨answerIllegal t₁, by simp [Machine.step, ht, hd], h₁.respondFail .illegal⟩
  · rw [← h₁.phase] at hs
    obtain ⟨t', ht', h'⟩ := (h₁.lineSets level).exec _ hs
    exact ⟨t', by simp [Machine.step, ht, ht'], h'⟩

/-- Settles O54: alike states that keep the invariant are paired, and a step leaves them paired. -/
theorem hiddenStateIsUnobservable : Obligations.HiddenStateIsUnobservable := by
  intro s t s' hs ht h hstep
  obtain ⟨t', ht', hpaired⟩ := (paired_of_alike hs ht h).step hstep
  exact ⟨t', ht', alike_of_paired hpaired⟩

end Sys2Proof.Machine
end

section
/-! The receive engine over its phase 2: the eight bits of a byte (R83, R224, R251), and what one sampled bit
can do to the two slots (R93, R225, R226, R253). -/

namespace Sys2Proof.Machine

/-! ### The bits of one byte -/

/-- The engine with bits shifted in and none processed, first one first (R221). -/
def getBits (bits : List Bool) (rx : RxEngine) : RxEngine := bits.foldl (fun e b => getBit b e) rx

@[simp] theorem getBits_nil (rx : RxEngine) : getBits [] rx = rx := rfl

@[simp] theorem getBits_cons (b : Bool) (bs : List Bool) (rx : RxEngine) :
    getBits (b :: bs) rx = getBits bs (getBit b rx) := rfl

/-- A synchronised engine only shifts a bit in until it has eight (R222). -/
theorem rxSample_of_not_eighth {p : Params} {rx : RxEngine} (bit : Bool) (h : rx.state ≠ .outOfSync)
    (hc : rx.cnt + 1#8 ≠ 8#8) : rxSample p bit rx = getBit bit rx := by
  rw [rxSample, processBit_of_synced (by simpa using h)]
  exact if_neg hc

/-- The eighth bit evaluates the byte in the shift register (R222). -/
theorem rxSample_of_eighth {p : Params} {rx : RxEngine} (bit : Bool) (h : rx.state ≠ .outOfSync)
    (hc : rx.cnt + 1#8 = 8#8) :
    rxSample p bit rx = processByte p (getBit bit rx).sr { getBit bit rx with cnt := 0#8 } := by
  rw [rxSample, processBit_of_synced (by simpa using h)]
  exact if_pos hc

/-- The bits that bring the counter to eight evaluate one byte, after the last of them. -/
theorem rxSamples_to_eighth {p : Params} {rx : RxEngine} (bits : List Bool) (hne : bits ≠ [])
    (h : rx.state ≠ .outOfSync) (hc : rx.cnt.toNat + bits.length = 8) :
    rxSamples p bits rx = processByte p (getBits bits rx).sr { getBits bits rx with cnt := 0#8 } := by
  induction bits generalizing rx with
  | nil => exact absurd rfl hne
  | cons b bs ih =>
    rw [List.length_cons] at hc
    rw [rxSamples, getBits_cons]
    by_cases hbs : bs = []
    · subst hbs
      rw [List.length_nil] at hc
      exact rxSample_of_eighth b h (by bv_omega)
    · have hpos : 0 < bs.length := List.length_pos_iff.mpr hbs
      rw [rxSample_of_not_eighth b h (by bv_omega)]
      exact ih hbs h (by rw [getBit_cnt]; bv_omega)

/-- After one bit, bit 7 is that bit and every other bit is the one that was above it (R221). -/
theorem getBit_sr_bit (bit : Bool) (rx : RxEngine) (i : Nat) :
    (getBit bit rx).sr.getLsbD i = if i = 7 then bit else (decide (i < 7) && rx.sr.getLsbD (i + 1)) := by
  rw [getBit_sr, BitVec.getLsbD_cons, BitVec.getLsbD_extractLsb', Nat.add_comm 1 i]

/-- Eight bits in wire order make up the shift register whole (R83). -/
theorem getBits_wireBits (v : Byte) (rx : RxEngine) :
    getBits (wireBits v) rx = { rx with sr := v, cnt := rx.cnt + 8#8 } := by
  have hsr : (getBits (wireBits v) rx).sr = v := by
    apply BitVec.eq_of_getLsbD_eq
    intro i hi
    simp only [wireBits, getBits_cons, getBits_nil, getBit_sr_bit]
    interval_cases i <;> simp
  have hcnt : (getBits (wireBits v) rx).cnt = rx.cnt + 8#8 := by
    simp only [wireBits, getBits_cons, getBits_nil, getBit_cnt]
    bv_omega
  calc
    getBits (wireBits v) rx
      = { rx with sr := (getBits (wireBits v) rx).sr, cnt := (getBits (wireBits v) rx).cnt } := rfl
    _ = { rx with sr := v, cnt := rx.cnt + 8#8 } := by rw [hsr, hcnt]

/-- Settles O45: no bit but the eighth is processed, and the eight bits are the byte. -/
theorem eightSamplesEvaluateOneByte : Obligations.EightSamplesEvaluateOneByte := by
  intro p v rx hs hc
  rw [rxSamples_to_eighth (wireBits v) (List.cons_ne_nil _ _) hs (by simp [hc, wireBits]),
    getBits_wireBits]

/-! ### The two slots -/

/-- `t` is `rx` after at most `n` appends, as the slots see it: of the active slot's bytes only the `n` from
its length on can differ (R225). -/
structure Appended (n : Nat) (rx t : RxEngine) : Prop where
  act : t.act = rx.act
  saved : savedSlot t = savedSlot rx
  len_ge : (activeSlot rx).len ≤ (activeSlot t).len
  len_le : (activeSlot t).len ≤ (activeSlot rx).len + n
  bytes : ∀ j, (j < (activeSlot rx).len ∨ (activeSlot rx).len + n ≤ j) →
    memByte (activeSlot t).data j = memByte (activeSlot rx).data j

namespace Appended

variable {n : Nat} {rx t u : RxEngine}

theorem refl (rx : RxEngine) : Appended 0 rx rx := ⟨rfl, rfl, le_rfl, le_rfl, fun _ _ => rfl⟩

/-- The other fields of the engine play no part. -/
theorem of_same_slots (h : Appended n rx t) (hact : u.act = t.act) (h0 : u.slot0 = t.slot0)
    (h1 : u.slot1 = t.slot1) : Appended n rx u := by
  have hactive : activeSlot u = activeSlot t := by simp [activeSlot, hact, h0, h1]
  have hsaved : savedSlot u = savedSlot t := by simp [savedSlot, hact, h0, h1]
  obtain ⟨ha, hs, hge, hle, hbytes⟩ := h
  rw [← hact] at ha
  rw [← hsaved] at hs
  rw [← hactive] at hge hle hbytes
  exact ⟨ha, hs, hge, hle, hbytes⟩

theorem goto (st : RxState) (h : Appended n rx t) : Appended n rx (rxGoto st t) :=
  h.of_same_slots rfl rfl rfl

theorem setDle (f : Bool) (h : Appended n rx t) : Appended n rx (rxSetDle f t) :=
  h.of_same_slots rfl rfl rfl

theorem append (cap : Nat) (v : Byte) (h : Appended n rx t) :
    Appended (n + 1) rx (rxAppend cap v t) := by
  obtain ⟨hact, hsaved, hge, hle, hbytes⟩ := h
  obtain ⟨_, e⟩ | ⟨_, b, hb, hlen, e⟩ := rxAppend_cases cap v t
  · rw [e]
    exact ⟨hact, hsaved, hge, by omega, fun j hj => hbytes j (by omega)⟩
  · have hdata : b.data = memWrite (activeSlot t).data (activeSlot t).len v := by
      obtain ⟨_, f⟩ | ⟨_, f⟩ := bufWrite_cases cap (activeSlot t) v <;> cases f.symm.trans hb
      rfl
    rw [e]
    refine ⟨by simpa, by simpa, ?_, ?_, fun j hj => ?_⟩ <;> rw [activeSlot_setActiveSlot]
    · omega
    · omega
    · rw [hdata, memByte_memWrite_other _ _ _ _ (by omega)]
      exact hbytes j (by omega)

end Appended

/-- Everything a step can do to the two slots: at most two appends to the active one, and no frame or one
frame completed after them (R93, R226). -/
inductive SlotEffect (rx t : RxEngine) : Prop where
  | kept {n : Nat} : Appended n rx t → n ≤ 2 → SlotEffect rx t
  | completed {n : Nat} {a : RxEngine} : Appended n rx a → n ≤ 2 →
      t.act = (!a.act) → t.fc = true → activeSlot t = bufClear (savedSlot a) →
      savedSlot t = bufSetComplete (activeSlot a) → SlotEffect rx t

theorem SlotEffect.goto {rx t : RxEngine} (st : RxState) (h : SlotEffect rx t) :
    SlotEffect rx (rxGoto st t) := by
  cases h with
  | kept ha hn => exact .kept (ha.goto st) hn
  | completed ha hn hact hfc hactive hsaved => exact .completed ha hn hact hfc hactive hsaved

theorem SlotEffect.setDle {rx t : RxEngine} (f : Bool) (h : SlotEffect rx t) :
    SlotEffect rx (rxSetDle f t) := by
  cases h with
  | kept ha hn => exact .kept (ha.setDle f) hn
  | completed ha hn hact hfc hactive hsaved => exact .completed ha hn hact hfc hactive hsaved

/-- A frame completed after at most two appends. -/
theorem Appended.complete {n : Nat} {rx t : RxEngine} (h : Appended n rx t) (hn : n ≤ 2) :
    SlotEffect rx (markFrameComplete t) :=
  have ⟨hactive, hsaved⟩ := markFrameComplete_slots t
  .completed h hn (markFrameComplete_act t) rfl hactive hsaved

section
variable {rx₀ rx : RxEngine} (p : Params) (b : Byte) (h : Appended 0 rx₀ rx)
include h

theorem evalIdle_slotEffect : SlotEffect rx₀ (evalIdle p b rx) := by
  unfold evalIdle
  split_ifs
  · exact .kept ((h.append _ _).setDle _) (by decide)
  · exact .kept (h.setDle _) (by decide)
  · exact .kept (h.setDle _) (by decide)
  · exact .kept ((((h.append _ _).append _ _).goto _).setDle _) (by decide)
  · exact (((h.append _ _).append _ _).complete (by decide)).setDle _
  · exact .kept (((h.append _ _).goto _).setDle _) (by decide)
  · exact ((h.append _ _).complete (by decide)).setDle _
  · exact .kept (h.setDle _) (by decide)

theorem evalData_slotEffect : SlotEffect rx₀ (evalData p b rx) := by
  unfold evalData
  split_ifs
  · exact .kept (h.setDle _) (by decide)
  · exact .kept (h.setDle _) (by decide)
  · exact .kept ((((h.append _ _).append _ _).goto _).setDle _) (by decide)
  · exact .kept ((h.append _ _).setDle _) (by decide)
  · exact .kept (((h.append _ _).goto _).setDle _) (by decide)
  · exact .kept ((h.append _ _).setDle _) (by decide)

theorem evalTransparent_slotEffect : SlotEffect rx₀ (evalTransparent p b rx) := by
  unfold evalTransparent
  split_ifs
  · exact .kept (h.setDle _) (by decide)
  · exact .kept (h.append _ _) (by decide)
  · exact .kept ((h.append _ _).setDle _) (by decide)
  · exact ((((h.append _ _).append _ _).complete (by decide)).goto _).setDle _
  · exact .kept ((((h.append _ _).append _ _).goto _).setDle _) (by decide)
  · exact .kept ((h.append _ _).setDle _) (by decide)

theorem processByte_slotEffect : SlotEffect rx₀ (processByte p b rx) := by
  unfold processByte
  cases rx.state with
  | outOfSync => exact .kept h (by decide)
  | idle => exact evalIdle_slotEffect p b h
  | data => exact evalData_slotEffect p b h
  | transparentData => exact evalTransparent_slotEffect p b h
  | bcc1 | bcc2 => exact .kept ((h.append _ _).goto _) (by decide)
  | pad => exact ((h.append _ _).complete (by decide)).goto _

end

/-- One sampled bit appends and completes as the byte it ends does, or as the SYN of the hunt (R222). -/
theorem rxSample_slotEffect (p : Params) (bit : Bool) (rx : RxEngine) :
    SlotEffect rx (rxSample p bit rx) := by
  have hbit : Appended 0 rx (getBit bit rx) := (Appended.refl rx).of_same_slots rfl rfl rfl
  unfold rxSample
  obtain ⟨_, _, e⟩ | ⟨_, _, e⟩ | ⟨_, _, e⟩ | ⟨_, _, e⟩ := processBit_cases p (getBit bit rx) <;> rw [e]
  · exact .kept ((hbit.append p.cap Config.syn).of_same_slots rfl rfl rfl) (by decide)
  · exact .kept hbit (by decide)
  · exact processByte_slotEffect p _ (hbit.of_same_slots rfl rfl rfl)
  · exact .kept hbit (by decide)

/-- No command touches a slot, and no tick but that of phase 2 (R50). -/
theorem exec_slotEffect {i : Instr} {s t : State} (h : exec i s = .next t) : SlotEffect s.rx t.rx := by
  cases exec_effect h with
  | ph2RxSample => exact rxSample_slotEffect _ _ _
  | rxStart | rxGetSaved => exact .kept ((Appended.refl s.rx).of_same_slots rfl rfl rfl) (by decide)
  | answers | txClear | txAdd | txStart | txStop | txStopOnIdle | rxStop | ph0SendBit | ph1ClkRise
  | ph3ClkFall => exact .kept (.refl _) (by decide)

/-- Taking the next move leaves the receive engine. -/
theorem takeMove_rx {s t : State} {m : Move} (h : takeMove s = (m, t)) : t.rx = s.rx := by
  obtain ⟨_, _, _, e⟩ | ⟨_, e⟩ := takeMove_cases s <;> cases e.symm.trans h <;> rfl

theorem step_slotEffect {s t : State} (h : step s = .next t) : SlotEffect s.rx t.rx := by
  obtain ⟨_, u, _, hu, _, e⟩ | ⟨_, u, _, hu, _, e⟩ | ⟨level, u, hu, e⟩ := step_cases s <;>
    rw [← takeMove_rx hu]
  · exact exec_slotEffect (e.symm.trans h)
  · cases e.symm.trans h
    exact .kept (.refl _) (by decide)
  · exact exec_slotEffect (s := lineSets level u) (e.symm.trans h)

/-- Settles O49: appends leave the saved slot, and a completion empties it as it becomes the active one. -/
theorem savedSlotIsSafeUntilNextCompletion : Obligations.SavedSlotIsSafeUntilNextCompletion := by
  intro s t h
  cases step_slotEffect h with
  | kept ha => exact ⟨fun _ => ha.saved, fun hne => absurd ha.act hne⟩
  | completed ha _ hact hfc hactive _ =>
    rw [ha.saved] at hactive
    rw [ha.act] at hact
    refine ⟨fun heq => absurd (hact.symm.trans heq) (by simp), fun _ => ?_⟩
    rw [hactive]
    exact ⟨rfl, rfl, hfc⟩

/-- `RX.slot[i]` (R44). -/
def slotAt (rx : RxEngine) (i : Bool) : Buffer :=
  match i with
  | false => rx.slot0
  | true => rx.slot1

theorem activeSlot_eq_slotAt (rx : RxEngine) : activeSlot rx = slotAt rx rx.act := rfl

theorem savedSlot_eq_slotAt (rx : RxEngine) : savedSlot rx = slotAt rx (!rx.act) := by
  unfold savedSlot; cases rx.act <;> rfl

/-- Of the two byte stores, the one that was not active keeps every byte and the other all but two (R225). -/
theorem SlotEffect.stores {rx t : RxEngine} (h : SlotEffect rx t) :
    (slotAt t (!rx.act)).data = (slotAt rx (!rx.act)).data ∧
    ∀ j, j ≠ (activeSlot rx).len → j ≠ (activeSlot rx).len + 1 →
      memByte (slotAt t rx.act).data j = memByte (slotAt rx rx.act).data j := by
  cases h with
  | kept ha hn =>
    obtain ⟨hact, hsaved, _, _, hbytes⟩ := ha
    rw [savedSlot_eq_slotAt, savedSlot_eq_slotAt, hact] at hsaved
    rw [activeSlot_eq_slotAt t, hact] at hbytes
    exact ⟨congrArg Buffer.data hsaved, fun j h0 h1 => hbytes j (by omega)⟩
  | completed ha hn hflip _ hactive hcomplete =>
    obtain ⟨hact, hsaved, _, _, hbytes⟩ := ha
    rw [activeSlot_eq_slotAt, hflip, hact, hsaved, savedSlot_eq_slotAt] at hactive
    rw [savedSlot_eq_slotAt, hflip, hact, Bool.not_not] at hcomplete
    refine ⟨(congrArg Buffer.data hactive :), fun j h0 h1 => ?_⟩
    rw [hcomplete, bufSetComplete_data]
    exact hbytes j (by omega)

/-- Settles O50: phase 2 replaces the receive engine alone, and a sample has the slots' effect. -/
theorem phaseTwoStoresAtSlotEnd : Obligations.PhaseTwoStoresAtSlotEnd := by
  intro s t h
  obtain ⟨htx, _⟩ := exec_send_frame h rfl
  obtain ⟨hother, hbytes⟩ := (exec_slotEffect h).stores
  have hsnap : t.snap = s.snap := by cases h; rfl
  refine ⟨htx, hsnap, ?_⟩
  cases hact : s.rx.act <;> rw [hact] at hother hbytes
  · exact ⟨fun j h0 h1 => ⟨hbytes j h0 h1, congrArg (memByte · j) hother⟩, fun _ => hother, nofun⟩
  · exact ⟨fun j h0 h1 => ⟨congrArg (memByte · j) hother, hbytes j h0 h1⟩, nofun, fun _ => hother⟩

end Sys2Proof.Machine
end

section
/-! The decoder and the encoder are inverse to each other (R111, R112, R115, R119). The word checks of R112
are said once, by the operand class that the opcode map gives; each class then has one encoding. -/

open Sys2Proof.Claims

namespace Sys2Proof

/-- Operand bits of the word that the class does not use are not 0. -/
def OpShape.Stray (cw : Word) : OpShape → Prop
  | .plain _ => argField cw ≠ 0#16
  | .byte _ => argHighField cw ≠ 0#8
  | .index _ => False

/-- The instruction the class makes of the word's operand field (R114). -/
def OpShape.instrOf (cw : Word) : OpShape → Instr
  | .plain i => i
  | .byte mk => mk (byteOperand cw)
  | .index mk => mk (indexOperand cw)

/-- Each instruction the class makes is encoded with this opcode and its operand, and is well formed. -/
def OpShape.EncodedBy (op : Byte) : OpShape → Prop
  | .plain i => encode i = .command (commandWord op 0#16) ∧ i.wellFormed = true
  | .byte mk => ∀ b : Byte,
      encode (mk b) = .command (commandWord op (b.setWidth 16)) ∧ (mk b).wellFormed = true
  | .index mk => ∀ n : Nat, n < 65536 →
      encode (mk n) = .command (commandWord op (BitVec.ofNat 16 n)) ∧ (mk n).wellFormed = true

end Sys2Proof

namespace Sys2Proof.Machine

/-! ### The decoder by its checks (R112) -/

theorem decodeCommand_of_reserved {cw : Word} (h : opShape (opField cw) = none) :
    decodeCommand cw = .error .reservedOpcode := by
  simp [decodeCommand, h]

section
variable {cw : Word} {shape : OpShape} (h : opShape (opField cw) = some shape)
include h

theorem decodeCommand_of_rsv (hr : rsvField cw ≠ 0#8) : decodeCommand cw = .error .reservedField := by
  simp [decodeCommand, h, hr]

theorem decodeCommand_of_stray (hr : rsvField cw = 0#8) (hs : shape.Stray cw) :
    decodeCommand cw = .error .strayOperand := by
  cases shape with
  | plain i => simp [decodeCommand, h, hr, show argField cw ≠ 0#16 from hs]
  | byte mk => simp [decodeCommand, h, hr, show argHighField cw ≠ 0#8 from hs]
  | index mk => exact hs.elim

theorem decodeCommand_of_clean (hr : rsvField cw = 0#8) (hs : ¬ shape.Stray cw) :
    decodeCommand cw = .ok (shape.instrOf cw) := by
  cases shape with
  | plain i => simp [decodeCommand, h, hr, OpShape.instrOf, show argField cw = 0#16 from not_not.mp hs]
  | byte mk => simp [decodeCommand, h, hr, OpShape.instrOf, show argHighField cw = 0#8 from not_not.mp hs]
  | index mk => simp [decodeCommand, h, hr, OpShape.instrOf]

end

/-- A word that decodes passed the three checks. -/
theorem checks_of_decodeCommand {cw : Word} {i : Instr} (h : decodeCommand cw = .ok i) :
    ∃ shape, opShape (opField cw) = some shape ∧ rsvField cw = 0#8 ∧ ¬ shape.Stray cw ∧
      i = shape.instrOf cw := by
  cases hop : opShape (opField cw) with
  | none => cases (decodeCommand_of_reserved hop).symm.trans h
  | some shape =>
    by_cases hr : rsvField cw = 0#8
    · by_cases hs : shape.Stray cw
      · cases (decodeCommand_of_stray hop hr hs).symm.trans h
      · cases (decodeCommand_of_clean hop hr hs).symm.trans h
        exact ⟨shape, rfl, hr, hs, rfl⟩
    · cases (decodeCommand_of_rsv hop hr).symm.trans h

/-! ### The encoding of each class (R111, R115) -/

theorem opShape_encodedBy {op : Byte} {shape : OpShape} (h : opShape op = some shape) :
    shape.EncodedBy op := by
  unfold opShape at h
  split at h <;> cases h
  all_goals
    rename_i hop
    have hvalue : op = BitVec.ofNat 8 op.toNat := by simp
    rw [hop] at hvalue
    subst hvalue
    simp [OpShape.EncodedBy, encode, Instr.wellFormed]

/-- A word whose high operand bits are 0 holds its byte operand, zero-extended. -/
theorem argField_of_argHighField {cw : Word} (h : argHighField cw = 0#8) :
    argField cw = (byteOperand cw).setWidth 16 := by
  apply BitVec.eq_of_toNat_eq
  have hhigh := congrArg BitVec.toNat h
  rw [argHighField_toNat] at hhigh
  rw [argField_toNat, BitVec.toNat_setWidth, byteOperand_toNat]
  simp at hhigh
  omega

/-- A word that passes the checks is the encoding of the instruction it makes. -/
theorem encode_instrOf {cw : Word} {shape : OpShape} (h : opShape (opField cw) = some shape)
    (hr : rsvField cw = 0#8) (hs : ¬ shape.Stray cw) :
    encode (shape.instrOf cw) = .command cw ∧ (shape.instrOf cw).wellFormed = true := by
  have henc := opShape_encodedBy h
  have hcw := commandWord_of_fields cw hr
  cases shape with
  | plain i =>
    rw [show argField cw = 0#16 from not_not.mp hs] at hcw
    simpa [OpShape.instrOf, OpShape.EncodedBy, hcw] using henc
  | byte mk =>
    have hbyte := henc (byteOperand cw)
    rwa [← argField_of_argHighField (not_not.mp hs), hcw] at hbyte
  | index mk =>
    have hindex := henc (indexOperand cw) (argField cw).isLt
    rwa [show BitVec.ofNat 16 (indexOperand cw) = argField cw by simp [indexOperand], hcw] at hindex

/-! ### Round trips -/

theorem decodeCommand_commandWord_byte {op : Byte} {mk : Byte → Instr}
    (h : opShape op = some (.byte mk)) (b : Byte) :
    decodeCommand (commandWord op (b.setWidth 16)) = .ok (mk b) := by
  have hb := b.isLt
  have hhigh : argHighField (commandWord op (b.setWidth 16)) = 0#8 := by
    apply BitVec.eq_of_toNat_eq
    rw [argHighField_toNat, commandWord_toNat, BitVec.toNat_setWidth]
    simp
    omega
  have hlow : byteOperand (commandWord op (b.setWidth 16)) = b := by
    apply BitVec.eq_of_toNat_eq
    rw [byteOperand_toNat, commandWord_toNat, BitVec.toNat_setWidth]
    omega
  rw [decodeCommand_of_clean (shape := .byte mk) (by simpa using h) (by simp) (not_not.mpr hhigh)]
  simp [OpShape.instrOf, hlow]

theorem decodeCommand_commandWord_index {op : Byte} {mk : Nat → Instr}
    (h : opShape op = some (.index mk)) {n : Nat} (hn : n < 65536) :
    decodeCommand (commandWord op (BitVec.ofNat 16 n)) = .ok (mk n) := by
  rw [decodeCommand_of_clean (shape := .index mk) (by simpa using h) (by simp) id]
  simp [OpShape.instrOf, indexOperand, Nat.mod_eq_of_lt hn]

/-- Settles O1, a case per instruction: with an operand, its class gives the operand back; without one, the
word or phase is fixed. -/
theorem decodeOfEncodeIsIdentity : Obligations.DecodeOfEncodeIsIdentity := by
  intro i hi
  cases i with
  | txAdd b => exact decodeCommand_commandWord_byte rfl b
  | rxFrameByte n | snapByte n => exact decodeCommand_commandWord_index rfl (of_decide_eq_true hi)
  | txClear | txStart | txStop | txStopOnIdle | txRemaining | txState | rxStart | rxStop | rxGetSaved
  | rxFrameComplete | rxFrameLen | rxState | snapLen | ph0SendBit | ph1ClkRise | ph2RxSample
  | ph3ClkFall => rfl

/-- Settles O2: a command word that decodes passed the checks, and each value of PHASE is encoded. -/
theorem decodedCodeIsTheEncoding : Obligations.DecodedCodeIsTheEncoding := by
  intro c i h
  cases c with
  | command cw =>
    obtain ⟨shape, hop, hr, hs, rfl⟩ := checks_of_decodeCommand h
    exact encode_instrOf hop hr hs
  | phase p =>
    cases h
    obtain ⟨hp, e⟩ | ⟨hp, e⟩ | ⟨hp, e⟩ | ⟨hp, e⟩ := decodePhase_cases p <;> rw [e, hp] <;>
      exact ⟨rfl, rfl⟩

/-! ### The checks over the fields as numbers -/

/-- The opcode map has no entry exactly for the values R126 lists. -/
theorem opShape_eq_none_iff (op : Byte) : opShape op = none ↔ reservedOp op.toNat := by
  unfold opShape reservedOp
  split
  all_goals simp_all
  omega

theorem rsvField_eq_zero_iff (cw : Word) : rsvField cw = 0#8 ↔ cw.toNat / 65536 % 256 = 0 := by
  rw [← BitVec.toNat_inj, rsvField_toNat]; rfl

/-- The bits R112 calls unused are those the class of the opcode does not use. -/
theorem strayBits_iff {cw : Word} {shape : OpShape} (h : opShape (opField cw) = some shape) :
    strayBits (opField cw).toNat (cw.toNat % 65536) ↔ shape.Stray cw := by
  have harg : argField cw = 0#16 ↔ cw.toNat % 65536 = 0 := by
    rw [← BitVec.toNat_inj, argField_toNat]; rfl
  have hhigh : argHighField cw = 0#8 ↔ cw.toNat % 65536 / 256 = 0 := by
    rw [← BitVec.toNat_inj, argHighField_toNat]
    simp
    omega
  unfold opShape at h
  split at h <;> cases h <;> simp_all [strayBits, OpShape.Stray]

/-- Settles O3, a clause per check of R112. -/
theorem decoderChecksInOrder : Obligations.DecoderChecksInOrder := by
  intro cw op rsv arg
  have hop : op = (opField cw).toNat := (opField_toNat cw).symm
  rw [hop, ← opShape_eq_none_iff]
  refine ⟨decodeCommand_of_reserved, ?_⟩
  cases hshape : opShape (opField cw) with
  | none => simp
  | some shape =>
    rw [strayBits_iff hshape]
    refine ⟨fun _ hr => decodeCommand_of_rsv hshape (hr ∘ (rsvField_eq_zero_iff cw).mp),
      fun _ hr hs => decodeCommand_of_stray hshape ((rsvField_eq_zero_iff cw).mpr hr) hs,
      fun _ hr hs => ?_⟩
    have hr := (rsvField_eq_zero_iff cw).mpr hr
    obtain ⟨henc, hwf⟩ := encode_instrOf hshape hr hs
    exact ⟨_, decodeCommand_of_clean hshape hr hs, hwf, henc⟩

/-- Settles O4: the decoder evaluated on each of the six words. -/
theorem sampleWordsDecode : Obligations.SampleWordsDecode := by
  and_intros <;> rfl

/-- Settles O5: the list as the model has it, and no two of its values are equal. -/
theorem wireCodesAreDistinct : Obligations.WireCodesAreDistinct :=
  ⟨rfl, by decide⟩

end Sys2Proof.Machine
end

section
/-! The response of every command (R113, R116, R117, R301). -/

namespace Sys2Proof

/-- The failure that a command can answer (R300, R301). -/
def Instr.failure : Instr → Option Machine.ReasonCode
  | .txAdd _ => some .full
  | .rxFrameByte _ | .snapByte _ => some .outOfRange
  | .rxGetSaved => some .noFrame
  | _ => none

end Sys2Proof

namespace Sys2Proof.Machine

/-- Settles O7: the answer to the ill-formed word leaves the listed moves, so the next word is decoded. -/
theorem illegalWordIsAnswered : Obligations.IllegalWordIsAnswered := by
  intro s cw r h
  exact ⟨step_offerMove_illegal s h, fun next i hi =>
    ⟨_, step_offerMove_illegal _ h, step_offerMove_command (answerIllegal s) hi⟩⟩

theorem okWord_lt (v : Half) : (okWord v).toNat < 65536 := by
  rw [okWord_toNat]; exact v.isLt

/-- The response of a byte read: a success, or the sentinel. -/
theorem respondByte_response {r : Result Byte} {s t : State} (h : respondByte r s = .next t) :
    (∃ v, t.rw = okWord v) ∨ ∃ c, r = .sentinel c ∧ t.rw = failWord c := by
  obtain ⟨v, _, e⟩ | ⟨c, hc, e⟩ | ⟨f, _, e⟩ := respondByte_cases r s <;> cases e.symm.trans h
  · exact .inl ⟨_, rfl⟩
  · exact .inr ⟨c, hc, rfl⟩

theorem bufGet_sentinel {cap i : Nat} {b : Buffer} {c : ReasonCode} (h : bufGet cap b i = .sentinel c) :
    c = .outOfRange := by
  obtain ⟨_, e⟩ | ⟨_, _, e⟩ | ⟨_, _, e⟩ := bufGet_cases cap b i <;> cases e.symm.trans h
  rfl

theorem snapGet_sentinel {cap i : Nat} {sn : Snapshot} {c : ReasonCode}
    (h : snapGet cap sn i = .sentinel c) : c = .outOfRange := by
  obtain ⟨_, e⟩ | ⟨_, _, e⟩ | ⟨_, _, e⟩ := snapGet_cases cap sn i <;> cases e.symm.trans h
  rfl

/-- A command is answered with a success, or with the one failure it has. -/
theorem exec_response {i : Instr} {s t : State} (hi : i.isCommand = true) (h : exec i s = .next t) :
    (∃ v, t.rw = okWord v) ∨ ∃ c, i.failure = some c ∧ t.rw = failWord c := by
  cases i with
  | txAdd b =>
    obtain ⟨_, e⟩ | ⟨_, _, _, e⟩ := execTxAdd_cases b s <;> cases e.symm.trans h
    · exact .inr ⟨_, rfl, rfl⟩
    · exact .inl ⟨_, rfl⟩
  | rxGetSaved =>
    obtain ⟨_, e⟩ | ⟨_, _, _, _, e⟩ | ⟨_, _, e⟩ := execRxGetSaved_cases s <;> cases e.symm.trans h
    · exact .inr ⟨_, rfl, rfl⟩
    · exact .inl ⟨_, rfl⟩
  | rxFrameByte n =>
    obtain hok | ⟨c, hc, hrw⟩ := respondByte_response h
    · exact .inl hok
    · exact .inr ⟨c, congrArg some (bufGet_sentinel hc).symm, hrw⟩
  | snapByte n =>
    obtain hok | ⟨c, hc, hrw⟩ := respondByte_response h
    · exact .inl hok
    · exact .inr ⟨c, congrArg some (snapGet_sentinel hc).symm, hrw⟩
  | ph0SendBit | ph1ClkRise | ph2RxSample | ph3ClkFall => cases hi
  | txClear | txStart | txStop | txStopOnIdle | txRemaining | txState | rxStart | rxStop
  | rxFrameComplete | rxFrameLen | rxState | snapLen => cases h; exact .inl ⟨_, rfl⟩

/-- Settles O16: a success is below 2^16, and each command has at most one failure. -/
theorem responseForms : Obligations.ResponseForms := by
  intro i s t hi h
  obtain ⟨v, hv⟩ | ⟨c, hc, hw⟩ := exec_response hi h
  · exact .inl (hv ▸ okWord_lt v)
  · cases i with
    | txAdd b => cases hc; exact .inr (.inl ⟨hw, b, rfl⟩)
    | rxGetSaved => cases hc; exact .inr (.inr (.inr ⟨hw, rfl⟩))
    | rxFrameByte n => cases hc; exact .inr (.inr (.inl ⟨hw, .inl ⟨n, rfl⟩⟩))
    | snapByte n => cases hc; exact .inr (.inr (.inl ⟨hw, .inr ⟨n, rfl⟩⟩))
    | _ => cases hc

end Sys2Proof.Machine
end

section
/-! SEND_FRAME (R129, R334): the frame is loaded while the engine is OFF, where no tick touches the send
side; then the engine runs with no stop pending, where no tick turns it OFF. -/

namespace Sys2Proof.Machine

/-! ### Commands the host issues (R118, R128) -/

theorem encode_of_isCommand {i : Instr} (h : i.isCommand = true) : ∃ cw, encode i = .command cw := by
  cases i with
  | ph0SendBit | ph1ClkRise | ph2RxSample | ph3ClkFall => cases h
  | _ => exact ⟨_, rfl⟩

/-- A command that is issued is the one performed. -/
theorem runMoves_hostMoves_cons {i : Instr} (is : List Instr) {s t : State} (hc : i.isCommand = true)
    (hw : i.wellFormed = true) (h : exec i s = .next t) :
    runMoves (hostMoves (i :: is)) s = runMoves (hostMoves is) t := by
  obtain ⟨cw, henc⟩ := encode_of_isCommand hc
  have hdec : decode (.command cw) = .ok i := henc ▸ decodeOfEncodeIsIdentity i hw
  simp [hostMoves, henc, runMoves, step_offerMove_command s hdec, h]

theorem issueAfter_next {gap : List Move} {i : Instr} {s t u : State} (hc : i.isCommand = true)
    (hw : i.wellFormed = true) (hgap : runMoves gap s = .next t) (h : exec i t = .next u) :
    issueAfter gap i s = .next u := by
  rw [runMoves_issueAfter gap i s t hgap]
  exact runMoves_hostMoves_cons [] hc hw h

/-! ### Runs of ticks -/

theorem runMoves_goes (ms : List Move) {s : State} (h : s.inv = true) : Goes (runMoves ms s) := by
  induction ms generalizing s with
  | nil => exact ⟨s, rfl⟩
  | cons m ms ih =>
    obtain ⟨t, ht⟩ := step_goes (s := offerMove m s) h
    simpa [runMoves, ht] using ih (step_keeps_inv (s := offerMove m s) h ht)

/-- What every tick keeps, a run of ticks keeps. -/
theorem runMoves_tickMoves_keeps {P : State → Prop}
    (hP : ∀ (s t : State) (level : Bool), P s → step (offerMove (.tick level) s) = .next t → P t)
    (levels : List Bool) {s t : State} (hs : P s) (h : runMoves (tickMoves levels) s = .next t) : P t := by
  induction levels generalizing s with
  | nil => cases h; exact hs
  | cons level levels ih =>
    simp only [tickMoves, List.map_cons, runMoves] at h
    cases hst : step (offerMove (.tick level) s) with
    | next u => rw [hst] at h; exact ih (hP s u level hs hst) h
    | fault f => rw [hst] at h; cases h
    | refused r => rw [hst] at h; cases h

theorem tick_keeps_inv {s t : State} {level : Bool} (hs : s.inv = true)
    (h : step (offerMove (.tick level) s) = .next t) : t.inv = true :=
  step_keeps_inv (s := offerMove (.tick level) s) hs h

theorem tick_keeps_params {s t : State} {level : Bool}
    (h : step (offerMove (.tick level) s) = .next t) : t.params = s.params :=
  step_keeps_params (s := offerMove (.tick level) s) h

/-- A run of ticks goes on, with the invariant and what every tick keeps. -/
theorem runMoves_tickMoves {P : State → Prop}
    (hP : ∀ (s t : State) (level : Bool), P s → step (offerMove (.tick level) s) = .next t → P t)
    (levels : List Bool) {s : State} (hinv : s.inv = true) (hs : P s) :
    ∃ t, runMoves (tickMoves levels) s = .next t ∧ t.inv = true ∧ P t := by
  obtain ⟨t, ht⟩ := runMoves_goes (tickMoves levels) hinv
  exact ⟨t, ht, runMoves_tickMoves_keeps (fun _ _ _ => tick_keeps_inv) levels hinv ht,
    runMoves_tickMoves_keeps hP levels hs ht⟩

theorem decodePhase_not_command (p : BitVec 2) : (decodePhase p).isCommand = false := by
  obtain ⟨_, e⟩ | ⟨_, e⟩ | ⟨_, e⟩ | ⟨_, e⟩ := decodePhase_cases p <;> rw [e] <;> rfl

/-- A phase leaves the send engine, or sends a bit (R281). -/
theorem exec_phase_tx {i : Instr} {s t : State} (hi : i.isCommand = false) (h : exec i s = .next t) :
    t.tx = s.tx ∨ ∃ u, sendBit s = .ok u ∧ t.tx = u.tx := by
  cases exec_effect h with
  | ph0SendBit tx txd hb => exact .inr ⟨_, hb, rfl⟩
  | ph1ClkRise | ph2RxSample | ph3ClkFall => exact .inl rfl
  | answers _ _ hc => simp [hc] at hi
  | txClear | txAdd | txStart | txStop | txStopOnIdle | rxStart | rxStop | rxGetSaved => cases hi

theorem tick_tx {s t : State} {level : Bool} (h : step (offerMove (.tick level) s) = .next t) :
    t.tx = s.tx ∨ ∃ u, sendBit (lineSets level s) = .ok u ∧ t.tx = u.tx := by
  rw [step_offerMove_tick] at h
  exact exec_phase_tx (decodePhase_not_command _) h

theorem tick_tx_of_off {s t : State} {level : Bool} (hoff : s.tx.state = .off)
    (h : step (offerMove (.tick level) s) = .next t) : t.tx = s.tx := by
  obtain e | ⟨u, hu, e⟩ := tick_tx h
  · exact e
  · cases (sendBit_of_off (s := lineSets level s) hoff).symm.trans hu
    exact e

/-! ### A frame being loaded -/

/-- The engine is OFF with these bytes queued, none of them fetched, and no stop pending. -/
structure Loaded (p : Params) (bytes : List Byte) (s : State) : Prop where
  inv : s.inv = true
  params : s.params = p
  off : s.tx.state = .off
  stop : s.tx.stopOnIdle = false
  cnt : s.tx.cnt = 0#4
  pos : s.tx.q.pos = 0
  queued : bufContents s.tx.q = bytes

namespace Loaded
variable {p : Params} {bytes : List Byte} {s t : State}

theorem of_same_tx (h : Loaded p bytes s) (hinv : t.inv = true) (hp : t.params = s.params)
    (htx : t.tx = s.tx) : Loaded p bytes t := by
  obtain ⟨_, hparams, hoff, hstop, hcnt, hpos, hq⟩ := h
  constructor <;> simp only [*]

theorem tick {level : Bool} (h : Loaded p bytes s) (ht : step (offerMove (.tick level) s) = .next t) :
    Loaded p bytes t :=
  h.of_same_tx (tick_keeps_inv h.inv ht) (tick_keeps_params ht) (tick_tx_of_off h.off ht)

theorem ticks (levels : List Bool) (h : Loaded p bytes s) :
    ∃ t, runMoves (tickMoves levels) s = .next t ∧ Loaded p bytes t := by
  obtain ⟨t, ht, _, hload⟩ := runMoves_tickMoves (fun _ _ _ hs hst => tick hs hst) levels h.inv h
  exact ⟨t, ht, hload⟩

theorem length_eq (h : Loaded p bytes s) : bytes.length = s.tx.q.len := by
  rw [← h.queued, bufContents_length]

theorem length_le (h : Loaded p bytes s) : bytes.length ≤ p.cap - 1 := by
  obtain ⟨_, hlen, _⟩ := (Buffer.wf_iff _ _).mp (queue_wf s h.inv)
  rwa [h.length_eq, ← h.params]

/-- TX_CLEAR loads no byte (R187). -/
theorem clear (h : s.inv = true) :
    ∃ t, exec .txClear s = .next t ∧ t.rw = okWord 0 ∧ Loaded s.params [] t :=
  ⟨_, rfl, rfl, exec_keeps_inv (i := .txClear) (.inl rfl) h rfl, rfl, rfl, rfl, rfl, rfl, rfl⟩

/-- TX_ADD with room loads one more byte (R188). -/
theorem add (h : Loaded p bytes s) (hroom : bytes.length < p.cap - 1) (b : Byte) :
    ∃ t v, exec (.txAdd b) s = .next t ∧ t.rw = okWord v ∧ Loaded p (bytes ++ [b]) t := by
  obtain ⟨hfull, _⟩ | ⟨_, q, hq, e⟩ := execTxAdd_cases b s
  · rw [h.params, ← h.length_eq] at hfull; omega
  · obtain ⟨_, _, hwf, _⟩ := (Buffer.wf_iff _ _).mp (queue_wf s h.inv)
    refine ⟨_, _, e, rfl, exec_keeps_inv (i := .txAdd b) (.inl rfl) h.inv e, h.params, h.off, h.stop,
      h.cnt, (bufWrite_pos hq).trans h.pos, ?_⟩
    rw [← h.queued]
    exact bufWrite_contents _ _ _ b hwf hq

/-- TX_ADD without room answers FULL, and what is loaded stays (R188). -/
theorem full (h : Loaded p bytes s) (hroom : bytes.length = p.cap - 1) (b : Byte) :
    exec (.txAdd b) s = .next (respondFail .full s) ∧ Loaded p bytes (respondFail .full s) := by
  refine ⟨?_, h.of_same_tx h.inv rfl rfl⟩
  obtain ⟨_, e⟩ | ⟨hlt, _⟩ := execTxAdd_cases b s
  · exact e
  · rw [h.params, ← h.length_eq] at hlt; omega

end Loaded

/-! ### SEND_FRAME's commands back to back -/

/-- One TX_ADD per byte loads them all where they fit. -/
theorem runMoves_adds {p : Params} {loaded : List Byte} (bytes : List Byte) {s : State}
    (h : Loaded p loaded s) (hfit : loaded.length + bytes.length ≤ p.cap - 1) :
    ∃ t, runMoves (hostMoves (bytes.map .txAdd)) s = .next t ∧ Loaded p (loaded ++ bytes) t := by
  induction bytes generalizing s loaded with
  | nil => exact ⟨s, rfl, by simpa using h⟩
  | cons b bytes ih =>
    simp only [List.length_cons] at hfit
    obtain ⟨t, _, ht, _, hload⟩ := h.add (by omega) b
    rw [List.map_cons, runMoves_hostMoves_cons _ rfl rfl ht, List.append_cons]
    exact ih hload (by simp; omega)

/-- What a program of send commands leaves (R50). -/
structure BeyondSendKept (s t : State) : Prop where
  rx : t.rx = s.rx
  snap : t.snap = s.snap
  phase : t.phase = s.phase
  cts : t.cts = s.cts

theorem exec_beyondSendKept {i : Instr} {s t : State} (hc : i.isCommand = true)
    (hi : i.writesSendSide = true) (h : exec i s = .next t) : BeyondSendKept s t := by
  cases exec_effect h with
  | answers | txClear | txAdd | txStart | txStop | txStopOnIdle => exact ⟨rfl, rfl, rfl, rfl⟩
  | ph0SendBit => cases hc
  | rxStart | rxStop | rxGetSaved | ph1ClkRise | ph2RxSample | ph3ClkFall => cases hi

theorem wellFormed_of_writesSendSide {i : Instr} (h : i.writesSendSide = true) :
    i.wellFormed = true := by
  cases i with
  | rxFrameByte n | snapByte n => cases h
  | _ => rfl

theorem runMoves_beyondSendKept {is : List Instr} {s t : State} (hs : s.inv = true)
    (hi : ∀ i ∈ is, i.isCommand = true ∧ i.writesSendSide = true)
    (h : runMoves (hostMoves is) s = .next t) : BeyondSendKept s t := by
  induction is generalizing s with
  | nil => cases h; exact ⟨rfl, rfl, rfl, rfl⟩
  | cons i is ih =>
    obtain ⟨⟨hc, hsend⟩, hrest⟩ := List.forall_mem_cons.mp hi
    obtain ⟨u, hu⟩ := exec_goes i hs
    rw [runMoves_hostMoves_cons is hc (wellFormed_of_writesSendSide hsend) hu] at h
    obtain ⟨hrx, hsnap, hphase, hcts⟩ := exec_beyondSendKept hc hsend hu
    obtain ⟨hrx', hsnap', hphase', hcts'⟩ := ih (exec_keeps_inv (.inl hc) hs hu) hrest h
    exact ⟨hrx'.trans hrx, hsnap'.trans hsnap, hphase'.trans hphase, hcts'.trans hcts⟩

/-- TX_START and TX_STOP_ON_IDLE start the engine with the stop pending (R189, R191). -/
theorem runMoves_start (s : State) :
    ∃ t, runMoves (hostMoves [.txStart, .txStopOnIdle]) s = .next t ∧
      t.tx = { s.tx with state := .xmit, stopOnIdle := true } ∧ t.txd = s.txd :=
  ⟨_, rfl, rfl, rfl⟩

theorem sendFrame_commands {bytes : List Byte} :
    ∀ i ∈ sendFrame bytes, i.isCommand = true ∧ i.writesSendSide = true := by
  intro i hi
  simp only [sendFrame, List.cons_append, List.mem_cons, List.mem_append, List.mem_map,
    List.not_mem_nil, or_false] at hi
  obtain rfl | ⟨b, _, rfl⟩ | rfl | rfl := hi <;> exact ⟨rfl, rfl⟩

/-- Settles O57: TX_CLEAR loads nothing, each TX_ADD one byte, and the start leaves the queue; no send
command writes the rest. -/
theorem sendFrameQueuesTheFrame : Obligations.SendFrameQueuesTheFrame := by
  intro s bytes hs hfit
  obtain ⟨t₀, hclear, _, hload₀⟩ := Loaded.clear hs
  obtain ⟨t₁, hadds, hload⟩ := runMoves_adds bytes hload₀ (by simpa using hfit)
  obtain ⟨t, hstart, htx, htxd⟩ := runMoves_start t₁
  have hrun : runMoves (hostMoves (sendFrame bytes)) s = .next t := by
    rw [sendFrame, List.cons_append, runMoves_hostMoves_cons _ rfl rfl hclear, hostMoves_append,
      runMoves_append _ _ _ _ hadds, hstart]
  obtain ⟨hrx, hsnap, hphase, hcts⟩ := runMoves_beyondSendKept hs sendFrame_commands hrun
  obtain ⟨hmark, _⟩ := (txInv_iff _ _ _).mp ((State.inv_iff t₁).mp hload.inv).2.1
  refine ⟨t, hrun, ?_, ?_, ?_, ?_, ?_, htxd.trans (hmark hload.off), hrx, hsnap, hphase, hcts⟩ <;> rw [htx]
  · exact hload.queued
  · exact hload.pos
  · exact hload.cnt

/-! ### SEND_FRAME with its responses read, whatever ticks fall between -/

/-- The TX_ADDs load the bytes that fit, and end with FULL where one does not (R188). -/
theorem issue_adds {p : Params} (ticks : Nat → List Bool) (bytes : List Byte) {loaded : List Byte}
    {s : State} (k : Nat) (h : Loaded p loaded s) :
    ∃ u values, Loaded p ((loaded ++ bytes).take (p.cap - 1)) u ∧
      issue ticks k (bytes.map .txAdd) s = .next
        { values := values
          failure := if loaded.length + bytes.length ≤ p.cap - 1 then none else some (failWord .full)
          state := u } := by
  have hle := h.length_le
  induction bytes generalizing s loaded k with
  | nil => exact ⟨s, [], by simpa [List.take_of_length_le hle] using h, by simp [issue, hle]⟩
  | cons b bytes ih =>
    obtain ⟨t, hticks, hload⟩ := h.ticks (ticks k)
    obtain hroom | hroom := hle.lt_or_eq
    · obtain ⟨u, v, hadd, hrw, hload'⟩ := hload.add hroom b
      obtain ⟨w, values, hw, e⟩ := ih (k + 1) hload' hload'.length_le
      have hlength : (loaded ++ [b]).length + bytes.length = loaded.length + (b :: bytes).length := by
        simp only [List.length_append, List.length_cons, List.length_nil]; omega
      rw [hlength] at e
      refine ⟨w, v :: values, by simpa using hw, ?_⟩
      rw [List.map_cons, issue_cons_ok ticks k _ _ s u v (issueAfter_next rfl rfl hticks hadd) hrw, e]
      rfl
    · obtain ⟨hadd, hfull⟩ := hload.full hroom b
      refine ⟨_, [], by rwa [List.take_left' hroom], ?_⟩
      rw [List.map_cons,
        issue_cons_fail ticks k _ _ s _ .full (issueAfter_next rfl rfl hticks hadd) rfl]
      simp [hroom]

/-- TX_CLEAR and the TX_ADDs, after ticks in any state. -/
theorem issue_load (ticks : Nat → List Bool) (bytes : List Byte) {s : State} (hs : s.inv = true) :
    ∃ u values, Loaded s.params (bytes.take (s.params.cap - 1)) u ∧
      issue ticks 0 (.txClear :: bytes.map .txAdd) s = .next
        { values := values
          failure := if bytes.length ≤ s.params.cap - 1 then none else some (failWord .full)
          state := u } := by
  obtain ⟨t, hticks, hinv, hparams⟩ := runMoves_tickMoves (P := fun u => u.params = s.params)
    (fun _ _ _ hu hv => (tick_keeps_params hv).trans hu) (ticks 0) hs rfl
  obtain ⟨u, hclear, hrw, hload⟩ := Loaded.clear hinv
  rw [hparams] at hload
  obtain ⟨w, values, hw, e⟩ := issue_adds ticks bytes 1 hload
  refine ⟨w, 0 :: values, by simpa using hw, ?_⟩
  rw [issue_cons_ok ticks 0 _ _ s u 0 (issueAfter_next rfl rfl hticks hclear) hrw, e]
  simp [outcomeThen]

/-- The engine runs with these bytes in its queue, fetched or not, and no stop pending. -/
structure Started (bytes : List Byte) (s : State) : Prop where
  inv : s.inv = true
  running : s.tx.state ≠ .off
  stop : s.tx.stopOnIdle = false
  queued : bufContents s.tx.q = bytes

namespace Started
variable {bytes : List Byte} {s t : State}

/-- With no stop pending, a bit that is sent leaves the engine running (R183, R184). -/
theorem sendBit_keeps_running {u : State} (hu : sendBit s = .ok u) (hr : s.tx.state ≠ .off)
    (hstop : s.tx.stopOnIdle = false) : u.tx.state ≠ .off := by
  obtain ⟨ho, _⟩ | ⟨_, _, rfl⟩ | ⟨_, _, _, _, rfl⟩ | ⟨_, _, _, hs, _⟩ | ⟨_, _, _, _, rfl⟩ :=
    sendBit_ok_cases hu
  · exact absurd ho hr
  · exact hr
  · exact nofun
  · simp [hstop] at hs
  · exact nofun

theorem tick {level : Bool} (h : Started bytes s) (ht : step (offerMove (.tick level) s) = .next t) :
    Started bytes t := by
  have hinv := tick_keeps_inv h.inv ht
  obtain e | ⟨u, hu, e⟩ := tick_tx ht
  · constructor
    case inv => exact hinv
    all_goals rw [e]
    exacts [h.running, h.stop, h.queued]
  · obtain ⟨hstop, hlen, hdata, _⟩ := sendBit_keeps_stop_and_queue hu
    constructor
    case inv => exact hinv
    all_goals rw [e]
    · exact sendBit_keeps_running hu h.running h.stop
    · exact hstop.trans h.stop
    · simpa [bufContents, hlen, hdata] using h.queued

/-- TX_START on a loaded frame (R189). -/
theorem of_loaded {p : Params} (h : Loaded p bytes s) :
    ∃ t, exec .txStart s = .next t ∧ t.rw = okWord 0 ∧ Started bytes t :=
  ⟨_, rfl, rfl, exec_keeps_inv (i := .txStart) (.inl rfl) h.inv rfl, nofun, rfl, h.queued⟩

/-- TX_STOP_ON_IDLE on a running engine (R191). -/
theorem pendStop (h : Started bytes s) :
    ∃ t, exec .txStopOnIdle s = .next t ∧ t.rw = okWord 0 ∧ t.inv = true ∧
      bufContents t.tx.q = bytes ∧ t.tx.state ≠ .off ∧ t.tx.stopOnIdle = true :=
  ⟨_, rfl, rfl, exec_keeps_inv (i := .txStopOnIdle) (.inl rfl) h.inv rfl, h.queued, h.running, rfl⟩

end Started

/-- TX_START and TX_STOP_ON_IDLE with ticks before each: the engine runs the loaded frame, with the stop
pending (R189, R191). -/
theorem issue_start {p : Params} {bytes : List Byte} (ticks : Nat → List Bool) (k : Nat) {s : State}
    (h : Loaded p bytes s) :
    ∃ u values, issue ticks k [.txStart, .txStopOnIdle] s = .next
        { values := values, failure := none, state := u } ∧
      u.inv = true ∧ bufContents u.tx.q = bytes ∧ u.tx.state ≠ .off ∧ u.tx.stopOnIdle = true := by
  obtain ⟨t, hticks, hload⟩ := h.ticks (ticks k)
  obtain ⟨t', hstart, hrw, hstarted⟩ := Started.of_loaded hload
  obtain ⟨u, hticks', _, hrunning⟩ := runMoves_tickMoves (fun _ _ _ hs ht => Started.tick hs ht)
    (ticks (k + 1)) hstarted.inv hstarted
  obtain ⟨u', hpend, hrw', hresult⟩ := hrunning.pendStop
  refine ⟨u', [0, 0], ?_, hresult⟩
  rw [issue_cons_ok ticks k _ _ s t' 0 (issueAfter_next rfl rfl hticks hstart) hrw,
    issue_cons_ok ticks (k + 1) _ _ t' u' 0 (issueAfter_next rfl rfl hticks' hpend) hrw']
  rfl

theorem failWord_full : failWord .full = 0x81000000 := rfl

/-- Settles O59: the bytes that fit are loaded; then the engine is started, or the host gives up there. -/
theorem sendFrameRunsToTheWait : Obligations.SendFrameRunsToTheWait := by
  intro afterFull ticks polls bytes s hs room
  obtain ⟨u, _, hload, hissue⟩ := issue_load ticks bytes hs
  rw [failWord_full] at hissue
  refine ⟨fun hgoes => ?_, fun hlong hgive => ⟨u, ?_, hload.queued, hload.pos, hload.off, hload.stop⟩⟩
  · obtain ⟨w, _, hstart, hinv, hq, hrun, hstop⟩ := issue_start ticks (bytes.length + 1) hload
    refine ⟨w, ?_, hinv, hq, hrun, hstop⟩
    simp only [runSendFrame, hissue, outcomeThen]
    rw [if_neg, hstart]
    obtain hfit | rfl := hgoes
    · simp [room, hfit]
    · simp
  · have hfull : ¬ bytes.length ≤ s.params.cap - 1 := Nat.not_le.mpr hlong
    simp [runSendFrame, hissue, outcomeThen, hfull, hgive]

end Sys2Proof.Machine
end

section
/-! READ_FRAME (R129, R335): RX_GET_SAVED copies the saved frame into the snapshot, which no tick and no
SNAP_BYTE writes, so its bytes can be read whatever completes meanwhile. -/

namespace Sys2Proof.Machine

/-! ### The frame in the snapshot -/

/-- The snapshot reads as this buffer's contents. -/
structure SnapHolds (b : Buffer) (sn : Snapshot) : Prop where
  len : sn.len = b.len
  byte : ∀ j, j < sn.len → memByte sn.data j = memByte b.data j

/-- Reading the snapshot at every index below its length reads the contents in order. -/
theorem SnapHolds.map_range {α : Type} {b : Buffer} {sn : Snapshot} (h : SnapHolds b sn) (f : Byte → α) :
    (List.range b.len).map (fun i => f (memByte sn.data i)) = (bufContents b).map f := by
  obtain ⟨hlen, hbyte⟩ := h
  rw [bufContents, List.map_map, ← hlen]
  exact List.map_congr_left fun j hj => congrArg f (hbyte j (List.mem_range.mp hj))

theorem snapTake_holds {cap : Nat} {b : Buffer} {old sn : Snapshot} (ho : old.data.wf = true)
    (h : snapTake cap b old = .ok sn) : SnapHolds b sn := by
  obtain ⟨_, e⟩ | ⟨_, e⟩ := snapTake_cases cap b old <;> cases e.symm.trans h
  exact ⟨rfl, fun j hj => memByte_memCopy_lt _ _ _ _ hj ho⟩

/-- RX_GET_SAVED with a frame complete answers its length and leaves it in the snapshot (R242). -/
theorem exec_rxGetSaved_holds {s t : State} (hs : s.inv = true) (hfc : s.rx.fc = true)
    (h : exec .rxGetSaved s = .next t) :
    t.rw = okWord (zextCount (savedSlot s.rx).len) ∧ SnapHolds (savedSlot s.rx) t.snap := by
  obtain ⟨hn, _⟩ | ⟨_, _, sn, hsn, e⟩ | ⟨_, _, e⟩ := execRxGetSaved_cases s
  · simp [hfc] at hn
  · obtain ⟨_, hwf, _⟩ := (Snapshot.wf_iff _ _).mp (snap_wf hs)
    have hholds := snapTake_holds hwf hsn
    cases e.symm.trans h
    exact ⟨congrArg (fun n => okWord (zextCount n)) hholds.len, hholds⟩
  · cases e.symm.trans h

/-- A length of a slot is its own widening (R33). -/
theorem zextCount_savedSlot_toNat {s : State} (hs : s.inv = true) :
    (zextCount (savedSlot s.rx).len).toNat = (savedSlot s.rx).len := by
  obtain ⟨hlow, hhigh⟩ := cap_bounds s hs
  have hlt := len_lt_cap hlow (slots_wf s hs).2
  simp only [zextCount, BitVec.toNat_ofNat]
  omega

/-- SNAP_BYTE below the length answers the byte there (R161). -/
theorem exec_snapByte_of_lt {s : State} (hs : s.inv = true) {i : Nat} (hi : i < s.snap.len) :
    exec (.snapByte i) s = .next (respondOk (zextByte (memByte s.snap.data i)) s) := by
  obtain ⟨hlen, _⟩ := (Snapshot.wf_iff _ _).mp (snap_wf hs)
  have hget : snapGet s.params.cap s.snap i = .ok (memByte s.snap.data i) := by
    obtain ⟨_, _⟩ | ⟨_, _, e⟩ | ⟨_, _, _⟩ := snapGet_cases s.params.cap s.snap i
    · omega
    · exact e
    · omega
  simp [exec, execSnapByte, hget, respondByte]

theorem okWord_zextByte (v : Byte) : okWord (zextByte v) = v.setWidth 32 := by
  apply BitVec.eq_of_toNat_eq
  have hv := v.isLt
  rw [okWord_toNat, zextByte, BitVec.toNat_setWidth, BitVec.toNat_setWidth]
  omega

/-- Settles O58: each SNAP_BYTE reads the snapshot, which holds the frame. -/
theorem readFrameAnswersTheFrame : Obligations.ReadFrameAnswersTheFrame := by
  intro s t hs hfc h
  obtain ⟨hrw, hlen, hbyte⟩ := exec_rxGetSaved_holds hs hfc h
  refine ⟨by rw [hrw, okWord_toNat, zextCount_savedSlot_toNat hs, bufContents_length], fun i v hv => ?_⟩
  obtain ⟨hi, hget⟩ := List.getElem?_eq_some_iff.mp hv
  rw [bufContents_length, ← hlen] at hi
  have hmem : memByte t.snap.data i = v := by
    rw [hbyte i hi]
    simpa [bufContents] using hget
  rw [exec_snapByte_of_lt (exec_keeps_inv (.inl rfl) hs h) hi, hmem, respondOk, okWord_zextByte]

/-! ### The reads with ticks between -/

theorem exec_keeps_snap {i : Instr} {s t : State} (hi : i ≠ .rxGetSaved) (h : exec i s = .next t) :
    t.snap = s.snap := by
  cases exec_effect h with
  | rxGetSaved => exact absurd rfl hi
  | answers | txClear | txAdd | txStart | txStop | txStopOnIdle | rxStart | rxStop | ph0SendBit
  | ph1ClkRise | ph2RxSample | ph3ClkFall => rfl

theorem tick_keeps_snap {s t : State} {level : Bool} (h : step (offerMove (.tick level) s) = .next t) :
    t.snap = s.snap := by
  rw [step_offerMove_tick] at h
  have hphase : decodePhase s.phase ≠ .rxGetSaved := fun e => by
    simpa [e, Instr.isCommand] using decodePhase_not_command s.phase
  exact exec_keeps_snap (s := lineSets level s) hphase h

/-- SNAP_BYTE at indices below the length answers the bytes there, in order (R161). -/
theorem issue_snapBytes (ticks : Nat → List Bool) (indices : List Nat) (k : Nat) {s : State}
    (hs : s.inv = true) (hi : ∀ i ∈ indices, i < s.snap.len) :
    ∃ u, issue ticks k (indices.map .snapByte) s = .next
        { values := indices.map fun i => zextByte (memByte s.snap.data i), failure := none, state := u } ∧
      u.snap = s.snap := by
  induction indices generalizing s k with
  | nil => exact ⟨s, rfl, rfl⟩
  | cons i indices ih =>
    obtain ⟨hlt, hrest⟩ := List.forall_mem_cons.mp hi
    obtain ⟨t, hticks, hinv, hsnap⟩ := runMoves_tickMoves (P := fun u => u.snap = s.snap)
      (fun _ _ _ hu hv => (tick_keeps_snap hv).trans hu) (ticks k) hs rfl
    obtain ⟨hlen, _⟩ := (Snapshot.wf_iff _ _).mp (snap_wf hs)
    have hcap := cap_bounds s hs
    have hwf : (Instr.snapByte i).wellFormed = true := decide_eq_true (by omega)
    have hread := exec_snapByte_of_lt hinv (hsnap ▸ hlt)
    obtain ⟨u, e, hu⟩ := ih (k + 1) (s := respondOk (zextByte (memByte t.snap.data i)) t) hinv
      (by simpa [hsnap] using hrest)
    refine ⟨u, ?_, by simpa [hsnap] using hu⟩
    rw [List.map_cons, issue_cons_ok ticks k _ _ s _ _
      (issueAfter_next rfl hwf hticks hread) rfl, e]
    simp [outcomeThen, hsnap]

/-- Settles O60: RX_GET_SAVED fails, or leaves the frame in the snapshot for as many SNAP_BYTEs. -/
theorem readFrameRuns : Obligations.ReadFrameRuns := by
  intro ticks s t hs hticks
  have ht : t.inv = true := runMoves_tickMoves_keeps (fun _ _ _ => tick_keeps_inv) _ hs hticks
  refine ⟨fun hfc => ?_, fun hfc => ?_⟩
  · have hfail : exec .rxGetSaved t = .next (respondFail .noFrame t) := by
      simp [exec, execRxGetSaved, hfc]
    have htaken := issue_cons_fail ticks 0 .rxGetSaved [] s _ .noFrame
      (issueAfter_next rfl rfl hticks hfail) rfl
    simp only [runReadFrame, htaken, outcomeThen]
    rfl
  · obtain ⟨u, hu⟩ := exec_goes .rxGetSaved ht
    obtain ⟨hrw, hholds⟩ := exec_rxGetSaved_holds ht hfc hu
    have htaken : issue ticks 0 [.rxGetSaved] s = .next
        { values := [zextCount (savedSlot t.rx).len], failure := none, state := u } :=
      issue_cons_ok ticks 0 .rxGetSaved [] s u _ (issueAfter_next rfl rfl hticks hu) hrw
    obtain ⟨w, hreads, hsnap⟩ := issue_snapBytes ticks (List.range (savedSlot t.rx).len) 1
      (exec_keeps_inv (.inl rfl) ht hu) (by simp [hholds.len])
    rw [hholds.map_range zextByte] at hreads
    refine ⟨w, ?_, by rw [hsnap, hholds.len], by rw [hsnap]; exact hholds.byte⟩
    simp only [runReadFrame, htaken, outcomeThen, zextCount_savedSlot_toNat ht, snapReads, hreads]
    rfl

end Sys2Proof.Machine
end

section
/-! The buffer primitives by their conditions (R151 to R157), runs of writes and of reads over one buffer
(R152, R153), and the two snapshot commands (R160, R161). -/

open Sys2Proof.Claims

namespace Sys2Proof.Machine

/-! ### One call (R151 to R157) -/

theorem bufWrite_of_full {cap : Nat} {b : Buffer} (v : Byte) (h : cap - 1 ≤ b.len) :
    bufWrite cap b v = .sentinel .full := if_pos h

theorem bufWrite_of_room {cap : Nat} {b : Buffer} (v : Byte) (h : b.len < cap - 1) :
    bufWrite cap b v = .ok { b with data := memWrite b.data b.len v, len := b.len + 1 } :=
  if_neg (by omega)

theorem bufRead_of_exhausted {cap : Nat} {b : Buffer} (h : b.len ≤ b.pos) :
    bufRead cap b = .sentinel .empty := if_pos h

/-- An index below the length of a sound buffer exists in its store (R33). -/
theorem lt_cap_of_lt_len {cap i : Nat} {b : Buffer} (h : b.wf cap = true) (hi : i < b.len) : i < cap := by
  obtain ⟨_, hlen, _⟩ := (Buffer.wf_iff cap b).mp h
  omega

theorem bufRead_of_pending {cap : Nat} {b : Buffer} (h : b.wf cap = true) (hp : b.pos < b.len) :
    bufRead cap b = .ok (memByte b.data b.pos, { b with pos := b.pos + 1 }) := by
  simp [bufRead, Nat.not_le.mpr hp, memRead_of_lt _ _ _ (lt_cap_of_lt_len h hp)]

theorem bufGet_of_lt {cap i : Nat} {b : Buffer} (h : b.wf cap = true) (hi : i < b.len) :
    bufGet cap b i = .ok (memByte b.data i) :=
  (if_neg (Nat.not_le.mpr hi)).trans (memRead_of_lt _ _ _ (lt_cap_of_lt_len h hi))

theorem bufReadLast_of_not_empty {cap : Nat} {b : Buffer} (h : b.wf cap = true) (hl : 0 < b.len) :
    bufReadLast cap b = .ok (memByte b.data (b.len - 1)) :=
  (if_neg hl.ne').trans (memRead_of_lt _ _ _ (lt_cap_of_lt_len h (by omega)))

/-- Settles O18: a write with room left is one write to the store, at the old length. -/
theorem bufWriteAppends : Obligations.BufWriteAppends := by
  intro cap b v hwf
  exact ⟨bufWrite_of_full v, fun hroom => ⟨_, bufWrite_of_room v hroom, rfl, rfl, rfl,
    memWrite_keeps_wf _ _ _ hwf, memByte_memWrite_same _ _ _ 0 hwf,
    fun j hj => memByte_memWrite_other _ _ _ _ hj⟩⟩

/-- Settles O17: each primitive at a length or index on either side of its test. -/
theorem bufferPrimitiveResults : Obligations.BufferPrimitiveResults := by
  intro cap b hwf
  refine ⟨rfl, fun i hi => if_pos hi, fun i hi => bufGet_of_lt hwf hi, fun hempty => ?_, fun hlen => ?_⟩
  · exact ⟨if_pos hempty, if_neg (by omega)⟩
  · exact ⟨bufReadLast_of_not_empty hwf hlen, if_pos hlen⟩

/-! ### Runs of writes and of reads -/

/-- Writes that all fit return the lengths counted up and append the bytes in order. -/
theorem writes_of_room {cap : Nat} (vs : List Byte) {b : Buffer} (hwf : b.data.wf = true)
    (hroom : b.len + vs.length ≤ cap - 1) :
    (writes cap vs b).1 = List.range' (b.len + 1) vs.length ∧
      bufContents (writes cap vs b).2 = bufContents b ++ vs := by
  induction vs generalizing b with
  | nil => exact ⟨rfl, (List.append_nil _).symm⟩
  | cons v vs ih =>
    rw [List.length_cons] at hroom
    have hwrite := bufWrite_of_room (cap := cap) (b := b) v (by omega)
    have hcontents := bufWrite_contents cap b _ v hwf hwrite
    obtain ⟨hlens, hbytes⟩ := ih (memWrite_keeps_wf b.data b.len v hwf)
      (b := { b with data := memWrite b.data b.len v, len := b.len + 1 }) (by simp only; omega)
    simp only [writes, hwrite]
    exact ⟨congrArg (List.cons (b.len + 1)) hlens, by rw [hbytes, hcontents, List.append_assoc]; rfl⟩

/-- Settles O19: the writes to a cleared buffer all fit, and fill it to the length that is refused. -/
theorem writesFillToCapacityMinusOne : Obligations.WritesFillToCapacityMinusOne := by
  intro cap b vs v hwf hvs
  obtain ⟨_, _, hdata, _⟩ := (Buffer.wf_iff cap b).mp hwf
  obtain ⟨hlens, hbytes⟩ := writes_of_room (cap := cap) (b := bufClear b) vs hdata
    (by simp [bufClear, hvs])
  rw [bufContents_bufClear, List.nil_append] at hbytes
  have hfull : (writes cap vs (bufClear b)).2.len = cap - 1 := by
    rw [← bufContents_length, hbytes, hvs]
  refine ⟨?_, hbytes, bufWrite_of_full v hfull.ge⟩
  rw [hlens, hvs, List.range'_eq_map_range]
  exact List.map_congr_left fun i _ => Nat.add_comm 1 i

/-- As many reads as bytes are pending return those bytes and leave the cursor at the length. -/
theorem reads_pending {cap : Nat} (n : Nat) {b : Buffer} (hwf : b.wf cap = true) (hn : b.pos + n = b.len) :
    reads cap n b = (bufPending b, { b with pos := b.len }) := by
  induction n generalizing b with
  | zero =>
    have hnone : bufPending b = [] := List.drop_eq_nil_of_le (by rw [bufContents_length]; exact hn.ge)
    have hcursor : { b with pos := b.len } = b := congrArg (fun p => { b with pos := p }) hn.symm
    rw [hnone, hcursor]
    rfl
  | succ n ih =>
    have hlt : b.pos < b.len := by omega
    have hread := bufRead_of_pending hwf hlt
    have hrest := ih (bufRead_keeps_wf _ _ _ _ hwf hread) (by simp only; omega)
    simp only [reads, hread, hrest, bufPending_eq_cons b hlt]

/-- Settles O20: the reads take the pending bytes, and a cursor at the length has none. -/
theorem readsReturnPendingBytesInOrder : Obligations.ReadsReturnPendingBytesInOrder := by
  intro cap b hwf
  obtain ⟨hpos, _⟩ := (Buffer.wf_iff cap b).mp hwf
  exact ⟨reads_pending _ hwf (Nat.add_sub_of_le hpos), bufRead_of_exhausted le_rfl⟩

/-! ### The snapshot commands (R160, R161) -/

/-- The word of SNAP_BYTE i is its opcode with the index in the operand field. -/
theorem commandWord_snapByte {i : Nat} (hi : i < 65536) :
    commandWord 0x21#8 (BitVec.ofNat 16 i) = BitVec.ofNat 32 (0x21000000 + i) := by
  apply BitVec.eq_of_toNat_eq
  rw [commandWord_toNat, BitVec.toNat_ofNat, BitVec.toNat_ofNat, BitVec.toNat_ofNat]
  omega

theorem okWord_zextCount {n : Nat} (h : n < 65536) : okWord (zextCount n) = BitVec.ofNat 32 n := by
  apply BitVec.eq_of_toNat_eq
  rw [okWord_toNat, zextCount, BitVec.toNat_ofNat, BitVec.toNat_ofNat]
  omega

/-- Without a complete frame RX_GET_SAVED answers NO_FRAME (R242). -/
theorem exec_rxGetSaved_of_no_frame {s : State} (h : s.rx.fc = false) :
    exec .rxGetSaved s = .next (respondFail .noFrame s) := if_pos h

/-- SNAP_BYTE at or past the length answers OUT_OF_RANGE (R161). -/
theorem exec_snapByte_of_ge {s : State} {i : Nat} (hi : s.snap.len ≤ i) :
    exec (.snapByte i) s = .next (respondFail .outOfRange s) := by
  simp [exec, execSnapByte, snapGet, hi, respondByte]

/-- Only a successful RX_GET_SAVED writes the snapshot. -/
theorem exec_keeps_snap_unless_taken {i : Instr} {s t : State} (h : exec i s = .next t)
    (hi : i ≠ .rxGetSaved ∨ s.rx.fc = false) : t.snap = s.snap := by
  by_cases hget : i = .rxGetSaved
  · subst hget
    cases (exec_rxGetSaved_of_no_frame (hi.resolve_left (not_not.mpr rfl))).symm.trans h
    rfl
  · exact exec_keeps_snap hget h

/-- Settles O22: the two words decode, only a taken frame writes the snapshot, and each read answers by the
index's side of the length. -/
theorem snapReadsAnswer : Obligations.SnapReadsAnswer := by
  refine ⟨rfl, fun i hi => ?_, fun i s t => exec_keeps_snap_unless_taken, fun s hs => ?_⟩
  · rw [← commandWord_snapByte hi]
    exact decodeCommand_commandWord_index rfl hi
  · obtain ⟨_, hcap⟩ := cap_bounds s hs
    obtain ⟨hlen, _⟩ := (Snapshot.wf_iff _ _).mp (snap_wf hs)
    refine ⟨?_, fun i hi => exec_snapByte_of_ge hi, fun i hi => ?_⟩
    · rw [← okWord_zextCount (n := s.snap.len) (by omega)]
      rfl
    · rw [exec_snapByte_of_lt hs hi, respondOk, okWord_zextByte]

end Sys2Proof.Machine
end

section
/-! The seven send commands, each with the rule's own word (R187 to R193), and the host's wait on TX_STATE
(R196). -/

open Sys2Proof.Claims

namespace Sys2Proof.Machine

/-- Settles O23: TX_CLEAR's meaning, with the mark level 1 (R187). -/
theorem txClearResult : Obligations.TxClearResult := ⟨rfl, fun _ => rfl⟩

/-- Settles O25: TX_START's meaning (R189). -/
theorem txStartResult : Obligations.TxStartResult := ⟨rfl, fun _ => rfl⟩

/-- Settles O26: the meanings of TX_STOP and TX_STOP_ON_IDLE (R190, R191). -/
theorem txStopResults : Obligations.TxStopResults := ⟨rfl, rfl, fun _ => ⟨rfl, rfl⟩⟩

/-! ### TX_ADD (R188) -/

/-- The word of TX_ADD b is its opcode with the byte in the operand field. -/
theorem commandWord_txAdd (b : Byte) :
    commandWord 0x02#8 (b.setWidth 16) = BitVec.ofNat 32 (0x02000000 + b.toNat) := by
  apply BitVec.eq_of_toNat_eq
  rw [commandWord_toNat, BitVec.toNat_ofNat, BitVec.toNat_ofNat, BitVec.toNat_setWidth]
  omega

theorem exec_txAdd_of_full {s : State} (b : Byte) (h : s.params.cap - 1 ≤ s.tx.q.len) :
    exec (.txAdd b) s = .next (respondFail .full s) := by
  simp [exec, execTxAdd, bufWrite_of_full b h]

theorem exec_txAdd_of_room {s : State} (b : Byte) (h : s.tx.q.len < s.params.cap - 1) :
    exec (.txAdd b) s = .next (respondOk (zextCount (s.tx.q.len + 1)) { s with
      tx := { s.tx with
        q := { s.tx.q with data := memWrite s.tx.q.data s.tx.q.len b, len := s.tx.q.len + 1 } } }) := by
  simp [exec, execTxAdd, bufWrite_of_room b h]

/-- Settles O24: the queue is full, or the byte is written at its end. -/
theorem txAddResult : Obligations.TxAddResult := by
  refine ⟨fun b => ?_, fun s b hs => ⟨fun hfull => ?_, fun hroom => ?_⟩⟩
  · rw [← commandWord_txAdd]
    exact decodeCommand_commandWord_byte rfl b
  · exact exec_txAdd_of_full b hfull.ge
  · obtain ⟨_, hcap⟩ := cap_bounds s hs
    obtain ⟨_, _, hdata, _⟩ := (Buffer.wf_iff _ _).mp (queue_wf s hs)
    refine ⟨_, ?_, memByte_memWrite_same _ _ b 0 hdata, fun j hj => memByte_memWrite_other _ _ j b hj⟩
    rw [exec_txAdd_of_room b hroom, ← okWord_zextCount (n := s.tx.q.len + 1) (by omega)]
    rfl

/-! ### TX_REMAINING (R192) -/

@[simp] theorem bufPending_length (b : Buffer) : (bufPending b).length = b.len - b.pos := by
  simp [bufPending]

/-- Settles O27: the number of pending bytes fits the response. -/
theorem txRemainingAnswersPending : Obligations.TxRemainingAnswersPending := by
  refine ⟨rfl, fun s hs => ⟨?_, (bufPending_length _).symm⟩⟩
  obtain ⟨_, hcap⟩ := cap_bounds s hs
  obtain ⟨_, hlen, _⟩ := (Buffer.wf_iff _ _).mp (queue_wf s hs)
  rw [← okWord_zextCount (n := s.tx.q.len - s.tx.q.pos) (by omega)]
  rfl

/-! ### TX_STATE (R193, R48) -/

/-- Two fields side by side as a number. -/
theorem toNat_append_eq_add {m n : Nat} (x : BitVec m) (y : BitVec n) :
    (x ++ y).toNat = x.toNat * 2 ^ n + y.toNat := by
  rw [BitVec.toNat_append, ← Nat.shiftLeft_add_eq_or_of_lt y.isLt, Nat.shiftLeft_eq]

/-- The send status word as the sum of its fields (R48). -/
theorem txStat_toNat (s : State) :
    (txStat s).toNat = (txCode s.tx.state).toNat + (if s.tx.stopOnIdle then 4 else 0)
      + (if s.txd then 8 else 0) + 16 * s.tx.cnt.toNat := by
  have hfields : (txStat s).toNat = (0#8 ++ s.tx.cnt ++ BitVec.ofBool s.txd
      ++ BitVec.ofBool s.tx.stopOnIdle ++ txCode s.tx.state).toNat := rfl
  rw [hfields]
  simp only [toNat_append_eq_add, BitVec.toNat_ofBool]
  cases s.tx.stopOnIdle <;> cases s.txd <;> simp <;> omega

theorem exec_txState_of_toNat {s : State} {n : Nat} (h : (txStat s).toNat = n) :
    exec .txState s = .next { s with rw := BitVec.ofNat 32 n } := by
  have hword : okWord (txStat s) = BitVec.ofNat 32 n := by
    have hlt := (txStat s).isLt
    apply BitVec.eq_of_toNat_eq
    rw [okWord_toNat, BitVec.toNat_ofNat]
    omega
  rw [← hword]
  rfl

/-- Settles O28: the answered word is the sum of the status word's fields. -/
theorem txStateAnswersStatus : Obligations.TxStateAnswersStatus := by
  refine ⟨rfl, fun s => exec_txState_of_toNat ?_⟩
  rw [txStat_toNat]
  cases s.tx.state <;> rfl

/-! ### WAIT_SEND_IDLE (R196) -/

/-- The test of WAIT_SEND_IDLE on the answer of TX_STATE: the engine is not in XMIT. -/
theorem sendIdleSeen_txStat (s : State) :
    sendIdleSeen (okWord (txStat s)) = decide (s.tx.state ≠ .xmit) := by
  have hfield : (okWord (txStat s)).extractLsb' 0 2 = txCode s.tx.state := by
    have hcode : (txCode s.tx.state).toNat < 4 := (txCode s.tx.state).isLt
    apply BitVec.eq_of_toNat_eq
    rw [BitVec.extractLsb'_toNat, okWord_toNat, txStat_toNat]
    split_ifs <;> simp <;> omega
  unfold sendIdleSeen
  rw [hfield]
  cases s.tx.state <;> rfl

/-- Settles O55: the poll's TX_STATE answers the status after the moves, which the test reads. -/
theorem waitSendIdlePolls : Obligations.WaitSendIdlePolls := by
  intro gap gaps s t hgap
  have hpoll : issueAfter gap .txState s = .next (respondOk (txStat t) t) :=
    issueAfter_next rfl rfl hgap rfl
  refine ⟨_, rfl, rfl, fun hidle => ?_, fun hxmit => ?_⟩
  · simp [waitSendIdle, hpoll, sendIdleSeen_txStat, hidle]
  · simp [waitSendIdle, hpoll, sendIdleSeen_txStat, hxmit]

end Sys2Proof.Machine
end

section
/-! The send engine over successive phase 0s (R181 to R184, R194 to R198). A fetch is a load followed by the
first of eight shifts, so whatever the engine sends is a run of shifts of what it last loaded; and the bits
left in the register and the queue count the phase 0s until XMIT ends. -/

namespace Sys2Proof.Machine

/-! ### Runs of phase 0 -/

theorem sendBits_succ {n : Nat} {s t u : State} (h : sendBits n s = .ok t) (hu : sendBit t = .ok u) :
    sendBits (n + 1) s = .ok u := by
  rw [sendBits_add n 1 s t h]
  simp [sendBits, hu]

theorem txdTrace_succ {n : Nat} {s t u : State} (h : sendBits n s = .ok t) (hu : sendBit t = .ok u) :
    txdTrace (n + 1) s = txdTrace n s ++ [u.txd] := by
  rw [txdTrace_add n 1 s t h]
  simp [txdTrace, hu]

/-- A first phase 0 that does the same in two states leaves the two runs the same. -/
theorem sendBits_congr {s s' : State} (h : sendBit s = sendBit s') (n : Nat) :
    sendBits (n + 1) s = sendBits (n + 1) s' ∧ txdTrace (n + 1) s = txdTrace (n + 1) s' := by
  simp only [sendBits, txdTrace, h, and_self]

/-! ### Shifting a loaded byte out (R181, steps 3 and 4; R82) -/

theorem iterate_txShiftOut_tx (s : State) (j : Nat) :
    (txShiftOut^[j] s).tx =
      { s.tx with sr := s.tx.sr >>> j, cnt := s.tx.cnt - BitVec.ofNat 4 j } := by
  induction j with
  | zero => simp
  | succ j ih =>
    rw [Function.iterate_succ_apply', txShiftOut_tx, ih]
    simp [BitVec.shiftRight_add, BitVec.ofNat_add, BitVec.sub_sub]

theorem iterate_txShiftOut_params (s : State) (j : Nat) : (txShiftOut^[j] s).params = s.params := by
  induction j with
  | zero => rfl
  | succ j ih => rw [Function.iterate_succ_apply', txShiftOut_params, ih]

theorem iterate_txShiftOut_txd (s : State) (j : Nat) :
    (txShiftOut^[j + 1] s).txd = s.tx.sr.getLsbD j := by
  rw [Function.iterate_succ_apply', txShiftOut_txd, iterate_txShiftOut_tx]
  simp

theorem iterate_txShiftOut_cnt {s : State} {j : Nat} (h : j ≤ s.tx.cnt.toNat) :
    (txShiftOut^[j] s).tx.cnt.toNat = s.tx.cnt.toNat - j := by
  have hlt := s.tx.cnt.isLt
  rw [iterate_txShiftOut_tx]
  simp only [BitVec.toNat_sub, BitVec.toNat_ofNat]
  omega

/-- In a running engine with more than `j` bits left, the phase 0 after `j` shifts is one more shift. -/
theorem sendBit_iterate_txShiftOut {s : State} (hrun : s.tx.state ≠ .off) {j : Nat}
    (h : j < s.tx.cnt.toNat) : sendBit (txShiftOut^[j] s) = .ok (txShiftOut^[j + 1] s) := by
  have hrun' : (txShiftOut^[j] s).tx.state ≠ .off := by rwa [iterate_txShiftOut_tx]
  have hleft : (txShiftOut^[j] s).tx.cnt ≠ 0#4 := by
    intro hzero
    have hcnt := iterate_txShiftOut_cnt h.le
    rw [hzero, BitVec.toNat_ofNat] at hcnt
    omega
  rw [Function.iterate_succ_apply']
  exact sendBit_of_bits_left hrun' hleft

/-- In a running engine, phase 0s up to the count shift that many bits out. -/
theorem sendBits_of_bits_left {s : State} (hrun : s.tx.state ≠ .off) {j : Nat}
    (h : j ≤ s.tx.cnt.toNat) : sendBits j s = .ok (txShiftOut^[j] s) := by
  induction j with
  | zero => rfl
  | succ j ih => exact sendBits_succ (ih (by omega)) (sendBit_iterate_txShiftOut hrun h)

/-- TXD shows the bits shifted out, bit 0 first. -/
theorem txdTrace_of_bits_left {s : State} (hrun : s.tx.state ≠ .off) {j : Nat}
    (h : j ≤ s.tx.cnt.toNat) : txdTrace j s = (List.range j).map s.tx.sr.getLsbD := by
  induction j with
  | zero => rfl
  | succ j ih =>
    rw [txdTrace_succ (sendBits_of_bits_left hrun (by omega)) (sendBit_iterate_txShiftOut hrun h),
      ih (by omega), iterate_txShiftOut_txd, List.range_succ, List.map_append]
    rfl

theorem wireBits_eq_map (v : Byte) : wireBits v = (List.range 8).map v.getLsbD := rfl

/-- The bits in progress, as many of them as the count says, are the first on the wire. -/
theorem txdTrace_cnt {s : State} (hrun : s.tx.state ≠ .off) (hcnt : s.tx.cnt.toNat ≤ 8) :
    txdTrace s.tx.cnt.toNat s = (wireBits s.tx.sr).take s.tx.cnt.toNat := by
  rw [txdTrace_of_bits_left hrun le_rfl, wireBits_eq_map, ← List.map_take, List.take_range,
    Nat.min_eq_left hcnt]

/-! ### Fetches, by what they load (R181, step 2) -/

/-- The engine with the queue's next byte loaded, none of its bits driven yet. -/
def fetched (s : State) : State :=
  txLoad (memByte s.tx.q.data s.tx.q.pos) .xmit
    { s with tx := { s.tx with q := { s.tx.q with pos := s.tx.q.pos + 1 } } }

theorem sendBit_txLoad (v : Byte) {st : TxState} (hst : st ≠ .off) (s : State) :
    sendBit (txLoad v st s) = .ok (txShiftOut (txLoad v st s)) :=
  sendBit_of_bits_left hst (by simp)

theorem fetched_queue (s : State) :
    (fetched s).tx.q = { s.tx.q with pos := s.tx.q.pos + 1 } := rfl

theorem fetched_running (s : State) : (fetched s).tx.state ≠ .off := nofun

theorem sendBit_fetched (s : State) : sendBit (fetched s) = .ok (txShiftOut (fetched s)) :=
  sendBit_txLoad _ (by decide) _

section
variable {s : State} (hrun : s.tx.state ≠ .off) (hcnt : s.tx.cnt = 0#4)
include hrun hcnt

/-- A fetch sends as if its byte had been loaded before. -/
theorem sendBit_of_pending (hq : s.tx.q.wf s.params.cap = true) (hp : s.tx.q.pos < s.tx.q.len) :
    sendBit s = sendBit (fetched s) :=
  ((sendBit_of_none_left hrun hcnt).trans (txFetch_of_pending hp (lt_cap_of_lt_len hq hp))).trans
    (sendBit_fetched s).symm

/-- The idle fill sends as if SYN had been loaded before (R183). -/
theorem sendBit_of_fill (hq : s.tx.q.len ≤ s.tx.q.pos) (hstop : s.tx.stopOnIdle = false) :
    sendBit s = sendBit (txLoad Config.syn .idle s) :=
  ((sendBit_of_none_left hrun hcnt).trans (txFetch_of_fill hq hstop)).trans
    (sendBit_txLoad _ (by decide) s).symm

/-- The deferred stop is made (R184). -/
theorem sendBit_of_stop (hq : s.tx.q.len ≤ s.tx.q.pos) (hstop : s.tx.stopOnIdle = true) :
    sendBit s = .ok (driveTxd Config.markLevel (txLoad Config.syn .off s)) :=
  (sendBit_of_none_left hrun hcnt).trans (txFetch_of_stop hq hstop)

end

theorem fetched_keeps_queue_wf {s : State} (hq : s.tx.q.wf s.params.cap = true)
    (hp : s.tx.q.pos < s.tx.q.len) : (fetched s).tx.q.wf s.params.cap = true :=
  bufRead_keeps_wf _ _ _ _ hq (bufRead_of_pending hq hp)

/-! ### One tick of phase 0 (R181, R281) -/

theorem exec_ph0SendBit_of_ok {s u : State} (h : sendBit s = .ok u) :
    exec .ph0SendBit s = .next (advancePhase u) := by
  simp [exec, execPh0SendBit, h]

theorem shiftRight_one_eq_ofNat (v : Byte) : v >>> 1 = BitVec.ofNat 8 (v.toNat / 2) := by
  apply BitVec.eq_of_toNat_eq
  have := v.isLt
  simp [Nat.shiftRight_eq_div_pow]
  omega

/-- A byte loaded and its bit 0 driven. -/
theorem txShiftOut_txLoad (v : Byte) (st : TxState) (s : State) :
    txShiftOut (txLoad v st s) = { s with
      txd := v.getLsbD 0
      tx := { s.tx with sr := BitVec.ofNat 8 (v.toNat / 2), cnt := 7, state := st } } := by
  rw [← shiftRight_one_eq_ofNat, show (7 : BitVec 4) = 8#4 - 1#4 by decide]
  rfl

/-- Settles O29: OFF, a bit left, a byte pending, the idle fill, the deferred stop. -/
theorem phaseZeroSendsOneBit : Obligations.PhaseZeroSendsOneBit := by
  refine ⟨rfl, fun s hs => ⟨fun hoff => ?_, fun hrun hcnt => ?_, fun hrun hcnt hp => ?_,
    fun hrun hcnt hq hstop => ?_, fun hrun hcnt hq hstop => ?_⟩⟩
  · exact exec_ph0SendBit_of_ok (sendBit_of_off hoff)
  · rw [← shiftRight_one_eq_ofNat]
    exact exec_ph0SendBit_of_ok (sendBit_of_bits_left hrun hcnt)
  · rw [exec_ph0SendBit_of_ok
      ((sendBit_of_pending hrun hcnt (queue_wf s hs) hp).trans (sendBit_fetched s)), fetched,
      txShiftOut_txLoad]
    rfl
  · rw [exec_ph0SendBit_of_ok
      ((sendBit_of_fill hrun hcnt hq.ge hstop).trans (sendBit_txLoad _ (by decide) s)),
      txShiftOut_txLoad]
    rfl
  · exact exec_ph0SendBit_of_ok (sendBit_of_stop hrun hcnt hq.ge hstop)

/-! ### Whole bytes on the wire (R82, R182, R194) -/

/-- Settles O30: the first `k + 1` of the fetched byte's eight shifts. -/
theorem fetchedByteHoldsEightCycles : Obligations.FetchedByteHoldsEightCycles := by
  intro s k hs hrun hcnt hp hk
  have hfetch := sendBit_of_pending hrun hcnt (queue_wf s hs) hp
  have hbits : k + 1 ≤ (fetched s).tx.cnt.toNat := hk
  obtain ⟨hsame, _⟩ := sendBits_congr hfetch k
  refine ⟨_, hsame.trans (sendBits_of_bits_left (fetched_running s) hbits),
    iterate_txShiftOut_txd _ k, ?_, ?_, ?_⟩
  · rw [iterate_txShiftOut_cnt hbits]
    simp only [fetched, txLoad_tx, BitVec.toNat_ofNat]
    omega
  · rw [iterate_txShiftOut_tx]; rfl
  · rw [iterate_txShiftOut_tx]; rfl

/-- A running engine between two bytes: no bit remains, and the next phase 0 fetches. -/
structure ByteEnd (s : State) : Prop where
  running : s.tx.state ≠ .off
  exhausted : s.tx.cnt = 0#4
  queue : s.tx.q.wf s.params.cap = true

namespace ByteEnd
variable {s : State}

/-- What is loaded at the end of a byte is driven whole, and the next byte ends there. -/
theorem send {v : Byte} {st : TxState} {s' : State} (hst : st ≠ .off)
    (hq : s'.tx.q.wf s'.params.cap = true) (hload : sendBit s = sendBit (txLoad v st s')) :
    ∃ t, sendBits 8 s = .ok t ∧ txdTrace 8 s = wireBits v ∧ ByteEnd t ∧ t.tx.q = s'.tx.q ∧
      t.tx.stopOnIdle = s'.tx.stopOnIdle := by
  obtain ⟨hbits, htrace⟩ := sendBits_congr hload 7
  refine ⟨_, hbits.trans (sendBits_of_bits_left hst le_rfl),
    htrace.trans (txdTrace_cnt (s := txLoad v st s') hst le_rfl), ⟨?_, ?_, ?_⟩, ?_, ?_⟩ <;>
    simp only [iterate_txShiftOut_tx, iterate_txShiftOut_params]
  · exact hst
  · simp
  · exact hq
  · rfl
  · rfl

/-- The pending bytes are driven in queue order (R194). -/
theorem sendPending {r : Nat} (h : ByteEnd s) (hr : s.tx.q.len - s.tx.q.pos = r) :
    ∃ t, sendBits (8 * r) s = .ok t ∧
      txdTrace (8 * r) s = (bufPending s.tx.q).flatMap wireBits ∧ ByteEnd t ∧
      t.tx.q.len ≤ t.tx.q.pos ∧ t.tx.stopOnIdle = s.tx.stopOnIdle := by
  induction r generalizing s with
  | zero =>
    have hnone : bufPending s.tx.q = [] := List.eq_nil_of_length_eq_zero (by rw [bufPending_length, hr])
    exact ⟨s, rfl, by rw [hnone]; rfl, h, by omega, rfl⟩
  | succ r ih =>
    have hp : s.tx.q.pos < s.tx.q.len := by omega
    obtain ⟨t, hbyte, htrace, hend, htq, hstop⟩ :=
      send (by decide) (fetched_keeps_queue_wf h.queue hp)
        (sendBit_of_pending h.running h.exhausted h.queue hp)
    obtain ⟨u, hbits, htrace', hend', hu, hstop'⟩ := ih hend (by rw [htq, fetched_queue]; simp only; omega)
    rw [Nat.mul_succ, Nat.add_comm, sendBits_add 8 _ s t hbyte, txdTrace_add 8 _ s t hbyte, htrace,
      htrace', htq, bufPending_eq_cons _ hp]
    exact ⟨u, hbits, rfl, hend', hu, hstop'.trans hstop⟩

/-- With the queue empty and no stop pending, whole SYNs are driven (R183). -/
theorem fill (n : Nat) (h : ByteEnd s) (hq : s.tx.q.len ≤ s.tx.q.pos)
    (hstop : s.tx.stopOnIdle = false) :
    txdTrace (8 * n) s = (List.replicate n 0x32).flatMap wireBits := by
  induction n generalizing s with
  | zero => rfl
  | succ n ih =>
    obtain ⟨t, hbyte, htrace, hend, htq, hstop'⟩ :=
      send (by decide) h.queue (sendBit_of_fill h.running h.exhausted hq hstop)
    rw [Nat.mul_succ, Nat.add_comm, txdTrace_add 8 _ s t hbyte, htrace,
      ih hend (by rwa [htq]) (hstop'.trans hstop)]
    rfl

end ByteEnd

/-- Settles O31: the pending bytes are sent whole, and then SYN fills. -/
theorem wireOrderOfQueuedBytes : Obligations.WireOrderOfQueuedBytes := by
  intro s n hs hrun hcnt
  have hend : ByteEnd s := ⟨hrun, hcnt, queue_wf s hs⟩
  obtain ⟨t, hbits, htrace, hend', hq, hstop⟩ := hend.sendPending rfl
  refine ⟨htrace, fun hnone => ?_⟩
  rw [txdTrace_add _ _ s t hbits, htrace, hend'.fill n hq (hstop.trans hnone)]

/-! ### When XMIT ends (R195) -/

/-- The bits still to be driven from the register and the queue. -/
def bitsLeft (tx : TxEngine) : Nat := tx.cnt.toNat + 8 * (tx.q.len - tx.q.pos)

/-- The engine is in XMIT, with a sound queue and `n` bits still to be driven. -/
structure Sending (n : Nat) (s : State) : Prop where
  xmit : s.tx.state = .xmit
  queue : s.tx.q.wf s.params.cap = true
  left : bitsLeft s.tx = n

namespace Sending
variable {n : Nat} {s : State}

theorem running (h : Sending n s) : s.tx.state ≠ .off := by simp [h.xmit]

/-- A shift drives one of the bits left. -/
theorem shift (h : Sending (n + 1) s) (hcnt : s.tx.cnt ≠ 0#4) : Sending n (txShiftOut s) := by
  obtain ⟨hxmit, hq, hleft⟩ := h
  refine ⟨hxmit, hq, ?_⟩
  simp only [bitsLeft, txShiftOut_tx] at hleft ⊢
  bv_omega

/-- A fetch turns a queued byte into eight bits of the register. -/
theorem fetch (h : Sending n s) (hcnt : s.tx.cnt = 0#4) (hp : s.tx.q.pos < s.tx.q.len) :
    Sending n (fetched s) := by
  obtain ⟨_, hq, hleft⟩ := h
  refine ⟨rfl, fetched_keeps_queue_wf hq hp, ?_⟩
  simp only [bitsLeft, fetched, txLoad_tx, hcnt, BitVec.toNat_ofNat] at hleft ⊢
  omega

/-- A phase 0 with bits left drives one of them and stays in XMIT. -/
theorem sendBit (h : Sending (n + 1) s) : ∃ t, Machine.sendBit s = .ok t ∧ Sending n t := by
  by_cases hcnt : s.tx.cnt = 0#4
  · have hp : s.tx.q.pos < s.tx.q.len := by
      have hleft := h.left
      simp only [bitsLeft, hcnt, BitVec.toNat_ofNat] at hleft
      omega
    exact ⟨_, (sendBit_of_pending h.running hcnt h.queue hp).trans (sendBit_fetched s),
      (h.fetch hcnt hp).shift (by simp [fetched])⟩
  · exact ⟨_, sendBit_of_bits_left h.running hcnt, h.shift hcnt⟩

/-- As many phase 0s as bits left stay in XMIT. -/
theorem sendBits (k : Nat) (h : Sending (k + n) s) : ∃ t, Machine.sendBits k s = .ok t ∧ Sending n t := by
  induction k generalizing n with
  | zero => exact ⟨s, rfl, by simpa using h⟩
  | succ k ih =>
    obtain ⟨t, hbits, ht⟩ := ih (n := n + 1) (by rwa [Nat.add_right_comm, Nat.add_assoc] at h)
    obtain ⟨u, hbit, hu⟩ := ht.sendBit
    exact ⟨u, sendBits_succ hbits hbit, hu⟩

/-- The phase 0 with no bit left fills or stops. -/
theorem leaves (h : Sending 0 s) :
    ∃ t, Machine.sendBit s = .ok t ∧ (t.tx.state = .idle ∨ t.tx.state = .off) := by
  have hleft := h.left
  simp only [bitsLeft] at hleft
  have hcnt : s.tx.cnt = 0#4 := BitVec.eq_of_toNat_eq (by simp; omega)
  have hq : s.tx.q.len ≤ s.tx.q.pos := by omega
  cases hstop : s.tx.stopOnIdle
  · exact ⟨_, (sendBit_of_fill h.running hcnt hq hstop).trans (sendBit_txLoad _ (by decide) s), .inl rfl⟩
  · exact ⟨_, sendBit_of_stop h.running hcnt hq hstop, .inr rfl⟩

end Sending

/-- Settles O32: each phase 0 takes one of the bits left, and the one after the last leaves XMIT. -/
theorem xmitBound : Obligations.XmitBound := by
  intro s hs hxmit n
  have hall : Sending n s := ⟨hxmit, queue_wf s hs, rfl⟩
  refine ⟨fun k hk => ?_, ?_⟩
  · obtain ⟨t, hbits, ht⟩ := Sending.sendBits (n := n - k) k (by rwa [Nat.add_sub_cancel' hk])
    exact ⟨t, hbits, ht.xmit⟩
  · obtain ⟨t, hbits, ht⟩ := hall.sendBits (n := 0) n
    obtain ⟨u, hbit, hu⟩ := ht.leaves
    exact ⟨u, sendBits_succ hbits hbit, hu⟩

/-! ### Stopping (R184, R197, R198) -/

/-- In a state that keeps the invariant at most eight bits remain (R53). -/
theorem cnt_le_eight {s : State} (hs : s.inv = true) : s.tx.cnt.toNat ≤ 8 := by
  obtain ⟨_, htx, _⟩ := (State.inv_iff s).mp hs
  exact ((txInv_iff _ _ _).mp htx).2.1

/-- Settles O33: the bits left are shifted out, and the fetch then finds the stop. -/
theorem deferredStopAfterLastBit : Obligations.DeferredStopAfterLastBit := by
  intro s hs hrun hstop hq
  have hbits := sendBits_of_bits_left hrun le_rfl
  have hnone : (txShiftOut^[s.tx.cnt.toNat] s).tx.cnt = 0#4 :=
    BitVec.eq_of_toNat_eq (by rw [iterate_txShiftOut_cnt le_rfl]; simp)
  have htx := iterate_txShiftOut_tx s s.tx.cnt.toNat
  have hlast : sendBit (txShiftOut^[s.tx.cnt.toNat] s) = _ :=
    sendBit_of_stop (by rwa [htx]) hnone (by rw [htx]; exact hq.ge) (by rwa [htx])
  refine ⟨txdTrace_cnt hrun (cnt_le_eight hs), ⟨_, hbits, by rw [htx]⟩,
    _, sendBits_succ hbits hlast, rfl, rfl, rfl, rfl, ?_⟩
  simpa [htx] using hstop

/-- Settles O34: neither command touches the register, so its bits left are shifted out. -/
theorem stoppedByteIsFinishedLater : Obligations.StoppedByteIsFinishedLater := by
  intro s t u hs ht hu
  have htx : u.tx = { s.tx with state := .xmit, stopOnIdle := false } := by cases ht; cases hu; rfl
  obtain ⟨ht_mark, hu_mark⟩ : t.txd = true ∧ u.txd = true := by cases ht; cases hu; exact ⟨rfl, rfl⟩
  have htrace := txdTrace_cnt (s := u) (by simp [htx]) (by simpa [htx] using cnt_le_eight hs)
  rw [htx] at htrace
  exact ⟨ht_mark, hu_mark, htx, htrace⟩

end Sys2Proof.Machine
end

section
/-! The queue is not circular (R199): each TX_ADD that succeeds makes the queue one byte longer, and nothing
but TX_CLEAR makes it shorter. -/

open Sys2Proof.Claims

namespace Sys2Proof.Machine

theorem acceptedAdds_cons {m : Move} {s t : State} (ms : List Move)
    (h : step (offerMove m s) = .next t) :
    acceptedAdds (m :: ms) s = acceptedAdds [m] s + acceptedAdds ms t := by
  simp [acceptedAdds, h]

/-- One move counts nothing, or it is a TX_ADD answered without FAIL. -/
theorem acceptedAdds_singleton_cases {m : Move} {s t : State} (h : step (offerMove m s) = .next t) :
    acceptedAdds [m] s = 0 ∨
    (acceptedAdds [m] s = 1 ∧ t.rw.getLsbD 31 = false ∧ ∃ b, performs m s = some (.txAdd b)) := by
  simp only [acceptedAdds, h, Nat.add_zero]
  split
  · next b hp => cases hf : t.rw.getLsbD 31 <;> simp [hp]
  · exact .inl rfl

/-- An instruction other than TX_CLEAR does not make the queue shorter (R50). -/
theorem exec_queue_len_le {i : Instr} {s t : State} (hi : i ≠ .txClear) (h : exec i s = .next t) :
    s.tx.q.len ≤ t.tx.q.len := by
  cases exec_effect h with
  | txClear => exact absurd rfl hi
  | txAdd b q hq =>
    obtain ⟨_, e⟩ | ⟨_, e⟩ := bufWrite_cases s.params.cap s.tx.q b <;> cases e.symm.trans hq
    exact Nat.le_succ _
  | ph0SendBit tx txd hb =>
    obtain ⟨_, hlen, _⟩ := sendBit_keeps_stop_and_queue hb
    exact hlen.ge
  | answers | txStart | txStop | txStopOnIdle | rxStart | rxStop | rxGetSaved | ph1ClkRise
  | ph2RxSample | ph3ClkFall => exact le_rfl

/-- A TX_ADD answered without FAIL makes the queue one byte longer (R188). -/
theorem exec_txAdd_accepted {b : Byte} {s t : State} (h : exec (.txAdd b) s = .next t)
    (hok : t.rw.getLsbD 31 = false) : t.tx.q.len = s.tx.q.len + 1 := by
  obtain hfull | hroom := le_or_gt (s.params.cap - 1) s.tx.q.len
  · cases (exec_txAdd_of_full b hfull).symm.trans h
    exact absurd hok (by simpa [failField] using failField_failWord .full)
  · cases (exec_txAdd_of_room b hroom).symm.trans h
    rfl

theorem performs_command {cw : Word} {i : Instr} (s : State) (h : decode (.command cw) = .ok i) :
    performs (.command cw) s = some i := by
  simp [performs, h]

/-- A move is a step of the instruction it performs, the send engine as it is, or an illegal word. -/
theorem step_performs (m : Move) (s : State) :
    (∃ i s', performs m s = some i ∧ s'.tx = s.tx ∧ step (offerMove m s) = exec i s') ∨
    (performs m s = none ∧ step (offerMove m s) = .next (answerIllegal s)) := by
  cases m with
  | tick level => exact .inl ⟨_, lineSets level s, rfl, rfl, step_offerMove_tick level s⟩
  | command cw =>
    cases hd : decode (.command cw) with
    | ok i => exact .inl ⟨i, s, performs_command s hd, rfl, step_offerMove_command s hd⟩
    | error r => exact .inr ⟨by simp [performs, hd], step_offerMove_illegal s hd⟩

/-- Only a command word that decodes to TX_CLEAR performs it. -/
theorem performs_ne_txClear {m : Move} (s : State)
    (h : ∀ cw, m = .command cw → decode (.command cw) ≠ .ok .txClear) :
    performs m s ≠ some .txClear := by
  cases m with
  | tick level =>
    have hphase := decodePhase_not_command s.phase
    intro hp
    rw [Option.some.inj hp] at hphase
    cases hphase
  | command cw =>
    cases hd : decode (.command cw) with
    | ok i =>
      rw [performs_command s hd]
      exact fun hi => h cw rfl (Option.some.inj hi ▸ hd)
    | error r => simp [performs, hd]

/-- The queue is at least as much longer after a move as the move counts. -/
theorem step_queue_len {m : Move} {s t : State} (hm : performs m s ≠ some .txClear)
    (h : step (offerMove m s) = .next t) : s.tx.q.len + acceptedAdds [m] s ≤ t.tx.q.len := by
  obtain hnone | ⟨hone, hok, b, hadd⟩ := acceptedAdds_singleton_cases h <;>
    obtain ⟨i, s', hp, htx, e⟩ | ⟨hp, e⟩ := step_performs m s
  · rw [hnone, ← htx]
    exact exec_queue_len_le (fun hi => hm (hi ▸ hp)) (e.symm.trans h)
  · rw [hnone]
    cases e.symm.trans h
    exact le_rfl
  · cases hp.symm.trans hadd
    rw [hone, ← htx, exec_txAdd_accepted (e.symm.trans h) hok]
  · cases hp.symm.trans hadd

/-- Settles O35, by induction on the moves: what the queue holds and what is still added stay within the
capacity, since the invariant bounds the queue at the end. -/
theorem queueIsNotCircular : Obligations.QueueIsNotCircular := by
  intro ms
  induction ms with
  | nil =>
    intro s hs _
    obtain ⟨_, hlen, _⟩ := (Buffer.wf_iff _ _).mp (queue_wf s hs)
    simpa [acceptedAdds] using hlen
  | cons m ms ih =>
    intro s hs hms
    obtain ⟨t, ht⟩ := step_goes (s := offerMove m s) hs
    have hstep := step_queue_len
      (performs_ne_txClear s fun cw e => hms cw (e ▸ List.mem_cons_self)) ht
    have hrest := ih t (step_keeps_inv (s := offerMove m s) hs ht)
      fun cw hcw => hms cw (List.mem_cons_of_mem m hcw)
    rw [step_keeps_params ht, offerMove_params] at hrest
    rw [acceptedAdds_cons ms ht]
    omega

end Sys2Proof.Machine
end

section
/-! The receive commands, each with the rule's own word (R240 to R246), and the host's wait on
RX_FRAME_COMPLETE (R262). -/

namespace Sys2Proof.Machine

/-- Settles O36: the meanings of RX_START and RX_STOP (R240, R241). -/
theorem rxStartAndStopResults : Obligations.RxStartAndStopResults := ⟨rfl, rfl, fun _ => ⟨rfl, rfl⟩⟩

/-! ### RX_GET_SAVED (R242) -/

/-- Bytes of the snapshot from the taken length on keep what they held (R159). -/
theorem snapTake_keeps_above {cap : Nat} {b : Buffer} {old sn : Snapshot}
    (h : snapTake cap b old = .ok sn) {j : Nat} (hj : sn.len ≤ j) :
    memByte sn.data j = memByte old.data j := by
  obtain ⟨_, e⟩ | ⟨_, e⟩ := snapTake_cases cap b old <;> cases e.symm.trans h
  exact memByte_memCopy_ge _ _ _ _ hj

/-- In a state that keeps the invariant a length of a slot fits a response (R33). -/
theorem slot_len_lt {s : State} (hs : s.inv = true) :
    (activeSlot s.rx).len < 65536 ∧ (savedSlot s.rx).len < 65536 := by
  obtain ⟨_, hcap⟩ := cap_bounds s hs
  obtain ⟨ha, hv⟩ := slots_wf s hs
  obtain ⟨_, hactive, _⟩ := (Buffer.wf_iff _ _).mp ha
  obtain ⟨_, hsaved, _⟩ := (Buffer.wf_iff _ _).mp hv
  exact ⟨by omega, by omega⟩

/-- Settles O21: a taken frame is the saved slot copied over the snapshot, and with the frame flag cleared
the next call finds none. -/
theorem getSavedTakesTheFrameOnce : Obligations.GetSavedTakesTheFrameOnce := by
  refine ⟨rfl, fun s hs => ⟨exec_rxGetSaved_of_no_frame, fun hfc => ?_⟩⟩
  obtain ⟨hn, _⟩ | ⟨_, _, sn, hsn, e⟩ | ⟨_, hlong, _⟩ := execRxGetSaved_cases s
  · simp [hfc] at hn
  · obtain ⟨_, hwf, _⟩ := (Snapshot.wf_iff _ _).mp (snap_wf hs)
    obtain ⟨hlen, hbyte⟩ := snapTake_holds hwf hsn
    have hexec : exec .rxGetSaved s = .next { s with
        snap := sn, rx := { s.rx with fc := false }, rw := BitVec.ofNat 32 (savedSlot s.rx).len } := by
      rw [← okWord_zextCount (slot_len_lt hs).2, ← hlen]
      exact e
    refine ⟨sn, hexec, hlen, hbyte, fun j hj => snapTake_keeps_above hsn hj, fun t ht => ?_⟩
    cases hexec.symm.trans ht
    exact exec_rxGetSaved_of_no_frame rfl
  · obtain ⟨_, hlen, _⟩ := (Buffer.wf_iff _ _).mp (slots_wf s hs).2
    omega

/-! ### Reads of the active slot (R243 to R245) -/

theorem activeSlot_eq_ite (rx : RxEngine) : activeSlot rx = if rx.act then rx.slot1 else rx.slot0 := by
  unfold activeSlot; cases rx.act <;> rfl

theorem okWord_zextFlag (f : Bool) : okWord (zextFlag f) = if f then 1 else 0 := by
  cases f <;> rfl

/-- Settles O37: the frame flag and the active slot's length fit the response. -/
theorem rxFrameReadsAnswer : Obligations.RxFrameReadsAnswer := by
  refine ⟨rfl, rfl, fun s hs => ⟨?_, ?_⟩⟩
  · rw [← okWord_zextFlag]
    rfl
  · have hlen : (if s.rx.act then s.rx.slot1.len else s.rx.slot0.len) = (activeSlot s.rx).len := by
      rw [activeSlot_eq_ite, apply_ite Buffer.len]
    rw [hlen, ← okWord_zextCount (slot_len_lt hs).1]
    rfl

/-- A command word with its operand field as a number. -/
theorem commandWord_ofNat (op : Byte) {arg : Nat} (h : arg < 65536) :
    commandWord op (BitVec.ofNat 16 arg) = BitVec.ofNat 32 (op.toNat * 16777216 + arg) := by
  have hop := op.isLt
  apply BitVec.eq_of_toNat_eq
  rw [commandWord_toNat, BitVec.toNat_ofNat, BitVec.toNat_ofNat]
  omega

/-- Settles O38: the word decodes, and the index is on one side of the active slot's length. -/
theorem rxFrameByteAnswersByte : Obligations.RxFrameByteAnswersByte := by
  refine ⟨fun i hi => ?_, fun s i hs => ?_⟩
  · have hword : commandWord 0x15#8 (BitVec.ofNat 16 i) = BitVec.ofNat 32 (0x15000000 + i) :=
      commandWord_ofNat 0x15#8 hi
    rw [← hword]
    exact decodeCommand_commandWord_index rfl hi
  · rw [← activeSlot_eq_ite]
    refine ⟨fun hi => ?_, fun hi => ?_⟩
    · have hget : bufGet s.params.cap (activeSlot s.rx) i = .sentinel .outOfRange := if_pos hi
      simp only [exec, execRxFrameByte, hget]
      rfl
    · simp only [exec, execRxFrameByte, bufGet_of_lt (slots_wf s hs).1 hi, respondByte, respondOk,
        okWord_zextByte]

/-! ### RX_STATE (R246, R49) -/

/-- The receive status word as the sum of its fields (R49). -/
theorem rxStat_toNat (s : State) :
    (rxStat s).toNat = (rxCode s.rx.state).toNat + (if s.rx.sync then 8 else 0)
      + (if s.rx.dle then 16 else 0) + (if s.rx.fc then 32 else 0) + (if s.cts then 64 else 0)
      + (if s.rx.act then 128 else 0) := by
  have hfields : (rxStat s).toNat = (0#8 ++ BitVec.ofBool s.rx.act ++ BitVec.ofBool s.cts
      ++ BitVec.ofBool s.rx.fc ++ BitVec.ofBool s.rx.dle ++ BitVec.ofBool s.rx.sync
      ++ rxCode s.rx.state).toNat := rfl
  have hflag (f : Bool) (n : Nat) : (if f then n else 0) = f.toNat * n := by cases f <;> simp
  rw [hfields]
  simp only [toNat_append_eq_add, BitVec.toNat_ofBool, hflag, BitVec.toNat_ofNat]
  omega

/-- Settles O39: the answered word is the sum of the status word's fields. -/
theorem rxStateAnswersStatus : Obligations.RxStateAnswersStatus := by
  refine ⟨rfl, fun s => ?_⟩
  have hword : okWord (rxStat s) = BitVec.ofNat 32 (rxStat s).toNat := by
    have hlt := (rxStat s).isLt
    apply BitVec.eq_of_toNat_eq
    rw [okWord_toNat, BitVec.toNat_ofNat]
    omega
  have hexec : exec .rxState s = .next { s with rw := BitVec.ofNat 32 (rxStat s).toNat } := by
    rw [← hword]
    rfl
  rw [hexec, rxStat_toNat]
  cases s.rx.state <;> rfl

/-! ### WAIT_FRAME (R262) -/

/-- The test of WAIT_FRAME on the answer of RX_FRAME_COMPLETE: a frame is complete. -/
theorem frameSeen_zextFlag (f : Bool) : frameSeen (okWord (zextFlag f)) = f := by
  rw [frameSeen, valueField_okWord]
  cases f <;> rfl

/-- Settles O56: the poll's RX_FRAME_COMPLETE answers the frame flag after the moves, which the test reads
before the clock. -/
theorem waitFramePolls : Obligations.WaitFramePolls := by
  intro limit elapsed gap polls s t hgap
  have hpoll : issueAfter gap .rxFrameComplete s = .next (respondOk (zextFlag t.rx.fc) t) :=
    issueAfter_next rfl rfl hgap rfl
  refine ⟨_, rfl, rfl, fun hfc => ?_, fun hfc hlimit => ?_, fun hfc hlimit => ?_⟩
  · simp [waitFrame, hpoll, frameSeen_zextFlag, hfc]
  · simp [waitFrame, hpoll, frameSeen_zextFlag, hfc, hlimit]
  · simp [waitFrame, hpoll, frameSeen_zextFlag, hfc, Nat.not_le.mpr hlimit]

end Sys2Proof.Machine
end

section
/-! The receive engine over single bits and bytes: the active slot's appends and its completion (R225, R226),
one sample of phase 2 (R221, R222, R283), and the sync hunt (R223, R250). -/

open Sys2Proof.Claims

namespace Sys2Proof.Machine

/-! ### Appends and completions (R225, R226) -/

theorem setActiveSlot_eq_ite (rx : RxEngine) (b : Buffer) :
    setActiveSlot rx b = if rx.act then { rx with slot1 := b } else { rx with slot0 := b } := by
  unfold setActiveSlot; cases rx.act <;> rfl

theorem rxAppend_of_full {cap : Nat} {rx : RxEngine} (v : Byte) (h : cap - 1 ≤ (activeSlot rx).len) :
    rxAppend cap v rx = rx := by
  simp [rxAppend, bufWrite_of_full v h]

theorem rxAppend_of_room {cap : Nat} {rx : RxEngine} (v : Byte) (h : (activeSlot rx).len < cap - 1) :
    rxAppend cap v rx = setActiveSlot rx { activeSlot rx with
      data := memWrite (activeSlot rx).data (activeSlot rx).len v, len := (activeSlot rx).len + 1 } := by
  simp [rxAppend, bufWrite_of_room v h]

/-- Settles O41: with room left the append is one write at the old length of the active slot. -/
theorem rxAppendGoesToActiveSlot : Obligations.RxAppendGoesToActiveSlot := by
  intro p v rx hwf
  obtain ⟨_, _, hdata, _⟩ := (Buffer.wf_iff _ _).mp hwf
  refine ⟨fun hfull => rxAppend_of_full v hfull.ge, fun hroom => ⟨_, ?_,
    bufWrite_contents p.cap _ _ v hdata (bufWrite_of_room v hroom), rfl, rfl,
    fun j hj => memByte_memWrite_other _ _ j v hj⟩⟩
  rw [rxAppend_of_room v hroom, setActiveSlot_eq_ite]

/-- Settles O42, a case per value of `RX.act`. -/
theorem markFrameCompleteSwapsSlots : Obligations.MarkFrameCompleteSwapsSlots := by
  rintro ⟨st, sr, cnt, sync, dle, s0, s1, act, fc⟩
  constructor <;> (rintro ⟨⟩; rfl)

/-! ### One tick of phase 2 (R221, R222, R283) -/

/-- Bit 7 is the sample, and the others have moved one place toward bit 0 (R221). -/
theorem cons_eq_shiftedIn (bit : Bool) (sr : Byte) :
    BitVec.cons bit (sr.extractLsb' 1 7) = shiftedIn bit sr := by
  have hsr := sr.isLt
  apply BitVec.eq_of_toNat_eq
  rw [BitVec.cons, shiftedIn, BitVec.toNat_cast, toNat_append_eq_add, BitVec.toNat_ofBool,
    BitVec.extractLsb'_toNat, BitVec.toNat_ofNat, Nat.shiftRight_eq_div_pow]
  cases bit <;> simp <;> omega

/-- Settles O40: out of sync the hunt reads the register, and in sync the counter tells the eighth bit. -/
theorem phaseTwoSamplesOneBit : Obligations.PhaseTwoSamplesOneBit := by
  refine ⟨rfl, fun s => ?_⟩
  have htaken : getBit s.rxd s.rx =
      { s.rx with sr := shiftedIn s.rxd s.rx.sr, cnt := s.rx.cnt + 1#8 } := by
    rw [← cons_eq_shiftedIn]; rfl
  have hexec (rx : RxEngine) (h : rxSample s.params s.rxd s.rx = rx) :
      exec .ph2RxSample s = .next { s with rx := rx, phase := s.phase + 1#2 } := by
    rw [← h]; rfl
  dsimp only
  rw [← htaken]
  refine ⟨fun hout hsyn => hexec _ ?_, fun hout hsyn => hexec _ ?_, fun hin hcnt => hexec _ ?_,
    fun hin hcnt => hexec _ ?_⟩
  · rw [rxSample, processBit_of_outOfSync (by simpa using hout)]
    exact if_pos (by rw [htaken]; exact hsyn)
  · rw [rxSample, processBit_of_outOfSync (by simpa using hout)]
    exact if_neg (by rw [htaken]; exact hsyn)
  · exact rxSample_of_not_eighth _ hin (by bv_omega)
  · rw [rxSample_of_eighth _ hin (by bv_omega), htaken]

/-! ### The sync hunt (R223, R250) -/

/-- The evaluation of a byte leaves the shift register (R224). -/
theorem processByte_sr (p : Params) (v : Byte) (rx : RxEngine) : (processByte p v rx).sr = rx.sr := by
  unfold processByte
  cases rx.state with
  | outOfSync => rfl
  | idle => unfold evalIdle; split_ifs <;> simp
  | data => unfold evalData; split_ifs <;> simp
  | transparentData => unfold evalTransparent; split_ifs <;> simp
  | bcc1 | bcc2 => simp [evalBcc1, evalBcc2]
  | pad => simp [evalPad]

/-- A sample moves the shift register by its bit and nothing else does (R40). -/
theorem rxSample_sr (p : Params) (bit : Bool) (rx : RxEngine) :
    (rxSample p bit rx).sr = (getBit bit rx).sr := by
  unfold rxSample
  obtain ⟨_, _, e⟩ | ⟨_, _, e⟩ | ⟨_, _, e⟩ | ⟨_, _, e⟩ := processBit_cases p (getBit bit rx) <;> rw [e]
  · exact rxAppend_sr _ _ _
  · exact processByte_sr p _ _

/-- In wire order a shifted register drops its oldest bit and ends with the new one. -/
theorem wireBits_rxSample (p : Params) (bit : Bool) (rx : RxEngine) :
    wireBits (rxSample p bit rx).sr = (wireBits rx.sr).drop 1 ++ [bit] := by
  simp only [wireBits, rxSample_sr, getBit_sr_bit]
  rfl

/-- After any samples the register holds the newest eight of the bits held before and sampled since. -/
theorem wireBits_rxSamples (p : Params) (bits : List Bool) (rx : RxEngine) :
    wireBits (rxSamples p bits rx).sr = (wireBits rx.sr ++ bits).drop bits.length := by
  induction bits generalizing rx with
  | nil => simp [rxSamples]
  | cons b bs ih => rw [rxSamples, ih, wireBits_rxSample]; simp [wireBits]

theorem wireBits_injective {v w : Byte} (h : wireBits v = wireBits w) : v = w := by
  rw [wireBits_eq_map, wireBits_eq_map, List.map_inj_left] at h
  exact BitVec.eq_of_getLsbD_eq fun i hi => h i (List.mem_range.mpr hi)

/-- Out of sync one sample gives sync exactly when the register then holds SYN (R222, R223). -/
theorem rxSample_syncs_iff (p : Params) (bit : Bool) {rx : RxEngine} (h : rx.state = .outOfSync) :
    ((rxSample p bit rx).state = .idle ∧ (rxSample p bit rx).sync = true) ↔
      wireBits (rxSample p bit rx).sr = wireBits 0x32 := by
  rw [rxSample_sr, rxSample, processBit_of_outOfSync (by simpa using h), huntSync]
  split_ifs with hsyn
  · exact ⟨fun _ => congrArg wireBits hsyn, fun _ => ⟨rfl, rfl⟩⟩
  · refine ⟨fun hidle => ?_, fun hbits => absurd (wireBits_injective hbits) hsyn⟩
    simp [h] at hidle

/-- A sample out of sync that leaves another byte than SYN in the register leaves the hunt on. -/
theorem rxSample_hunts_on (p : Params) (bit : Bool) {rx : RxEngine} (h : rx.state = .outOfSync)
    (hsyn : (getBit bit rx).sr ≠ Config.syn) : (rxSample p bit rx).state = .outOfSync := by
  rw [rxSample, processBit_of_outOfSync (by simpa using h), huntSync, if_neg hsyn, getBit_state, h]

/-- While ones held from before have not all been shifted out, bit 0 is 1 and the register is not SYN. -/
theorem rxSamples_hunts_on (p : Params) (bits : List Bool) {rx : RxEngine} (h : rx.state = .outOfSync)
    (hlen : bits.length < 8) (hones : ∀ i, 1 ≤ i → i ≤ bits.length → rx.sr.getLsbD i = true) :
    (rxSamples p bits rx).state = .outOfSync := by
  induction bits generalizing rx with
  | nil => exact h
  | cons b bs ih =>
    rw [List.length_cons] at hlen hones
    have hsyn : (getBit b rx).sr ≠ Config.syn := by
      intro hsyn
      have hbit : (getBit b rx).sr.getLsbD 0 = true := by
        rw [getBit_sr_bit]; simpa using hones 1 le_rfl (by omega)
      rw [hsyn] at hbit
      exact absurd hbit (by decide)
    refine ih (rxSample_hunts_on p b h hsyn) (by omega) fun i hi hile => ?_
    rw [rxSample_sr, getBit_sr_bit, if_neg (by omega), hones (i + 1) (by omega) (by omega)]
    simpa using (by omega : i < 7)

/-- Settles O46: one sample decides by the register, which holds the newest eight bits. -/
theorem syncOnSynAfterAnyGarbage : Obligations.SyncOnSynAfterAnyGarbage := by
  refine ⟨fun p bits rx _ hlen hhunt => ?_, fun p bits hlen => ?_, fun p bit rx h => ?_⟩
  · obtain rfl | ⟨before, bit, rfl⟩ := List.eq_nil_or_concat' bits
    · simp at hlen
    · have hout : (rxSamples p before rx).state = .outOfSync := by
        simpa using hhunt before.length (by simp)
      have hnewest : (wireBits rx.sr ++ (before ++ [bit])).drop (before ++ [bit]).length =
          (before ++ [bit]).drop ((before ++ [bit]).length - 8) := by
        rw [List.drop_append, List.drop_eq_nil_of_le (as := wireBits rx.sr) hlen]
        rfl
      rw [← hnewest, ← wireBits_rxSamples p, rxSamples_append]
      exact rxSample_syncs_iff p bit hout
  · refine rxSamples_hunts_on p bits rfl hlen fun i _ hi => ?_
    have hreset : (State.resetWith p).rx.sr = BitVec.allOnes 8 := rfl
    rw [hreset, BitVec.getLsbD_allOnes]
    exact decide_eq_true (by omega)
  · rw [rxSample_syncs_iff p bit h, wireBits_rxSample]

end Sys2Proof.Machine
end

section
/-! The byte evaluation as the table of R234, and the ways a byte completes a frame (R258). -/

open Sys2Proof.Claims

namespace Sys2Proof.Machine

/-! ### The table of R234 -/

theorem rxGoto_of_state {st : RxState} {rx : RxEngine} (h : rx.state = st) : rxGoto st rx = rx := by
  rw [← h]; rfl

theorem rxSetDle_of_dle {f : Bool} {rx : RxEngine} (h : rx.dle = f) : rxSetDle f rx = rx := by
  rw [← h]; rfl

/-- What a row does, in terms of the engine's operations. -/
theorem evalRow_apply_eq (r : EvalRow) (p : Params) (rx : RxEngine) :
    r.apply p rx = rxSetDle r.nextDle (rxGoto r.next
      (if r.done then markFrameComplete (r.appended.foldl (fun e v => rxAppend p.cap v e) rx)
        else r.appended.foldl (fun e v => rxAppend p.cap v e) rx)) := rfl

/-- What the first of the rows that covers a byte does, if one does. -/
def byRows (rows : List EvalRow) (p : Params) (b : Byte) (rx : RxEngine) : Option RxEngine :=
  (rows.find? fun r => r.covers rx.state rx.dle b).map (·.apply p rx)

/-- Rows are tested one after another, as the conditions of an evaluation are. -/
theorem byRows_cons (r : EvalRow) (rows : List EvalRow) (p : Params) (b : Byte) (rx : RxEngine) :
    byRows (r :: rows) p b rx =
      if r.covers rx.state rx.dle b then some (r.apply p rx) else byRows rows p b rx := by
  unfold byRows
  rw [List.find?_cons]
  cases r.covers rx.state rx.dle b <;> rfl

/-- The table read row by row is the evaluation: the rows of the engine's own state are the conditions of
that state's rule in the same order, and what a row does is the rule's branch. Where a row's appends or its
flag column depend on more than the byte (the slot's length in IDLE, the flag in TRANSPARENT_DATA), the two
values are taken apart first. -/
theorem byRows_evalTable (p : Params) (b : Byte) {rx : RxEngine} (hs : rx.state ≠ .outOfSync)
    (hdle : rx.state = .bcc1 ∨ rx.state = .bcc2 ∨ rx.state = .pad → rx.dle = false) :
    byRows (evalTable p (activeSlot rx).len b) p b rx = some (processByte p b rx) := by
  unfold processByte evalTable
  cases hst : rx.state with
  | outOfSync => exact absurd hst hs
  | idle =>
    by_cases hlen : (activeSlot rx).len = 0 <;>
      simp [byRows_cons, EvalRow.covers, evalRow_apply_eq, hst, hlen, rxGoto_of_state, ← apply_ite some,
        evalIdle, bufLen, Config.syn, Config.dle, Config.stx, Config.ack0, Config.ack1, Config.soh,
        Config.eot, Config.nak] <;> congr
  | data =>
    simp [byRows_cons, EvalRow.covers, evalRow_apply_eq, hst, rxGoto_of_state, ← apply_ite some,
      evalData, Config.syn, Config.dle, Config.stx, Config.soh, Config.etx, Config.etb]
    congr
  | transparentData =>
    cases hd : rx.dle <;>
      simp [byRows_cons, EvalRow.covers, evalRow_apply_eq, hst, hd, rxGoto_of_state, rxSetDle_of_dle,
        ← apply_ite some, evalTransparent, ttdState, Config.dle, Config.enq, Config.itb, Config.etx,
        Config.etb] <;> rfl
  | bcc1 | bcc2 | pad =>
    have hd := hdle (by simp [hst])
    simp [byRows_cons, EvalRow.covers, evalRow_apply_eq, hst, hd, rxSetDle_of_dle, evalBcc1, evalBcc2,
      evalPad]

/-- Settles O43: the rows find what the evaluation gives. -/
theorem byteEvaluationIsTheTable : Obligations.ByteEvaluationIsTheTable := by
  intro p b rx hs hdle
  obtain ⟨r, hr, happly⟩ := Option.map_eq_some_iff.mp (byRows_evalTable p b hs hdle)
  exact ⟨r, hr, happly.symm⟩

/-! ### The bytes that complete a frame (R258) -/

theorem evalIdle_completes_iff (p : Params) (b : Byte) (rx : RxEngine) :
    (evalIdle p b rx).act ≠ rx.act ↔
      (b = 0x37 ∨ b = 0x3D) ∨ rx.dle = true ∧ (b = 0x70 ∨ b = 0x61) := by
  unfold evalIdle
  split_ifs <;> grind [rxSetDle_act, rxGoto_act, markFrameComplete_act, rxAppend_act, Config.syn,
    Config.dle, Config.stx, Config.ack0, Config.ack1, Config.soh, Config.eot, Config.nak]

theorem evalData_keeps_act (p : Params) (b : Byte) (rx : RxEngine) :
    (evalData p b rx).act = rx.act := by
  unfold evalData
  split_ifs <;> simp

theorem evalTransparent_completes_iff (p : Params) (b : Byte) (rx : RxEngine) :
    (evalTransparent p b rx).act ≠ rx.act ↔ rx.dle = true ∧ b = 0x2D := by
  unfold evalTransparent
  split_ifs <;> grind [rxSetDle_act, rxGoto_act, markFrameComplete_act, rxAppend_act,
    Config.dle, Config.enq]

/-- Settles O44, a case per state. -/
theorem frameCompletionWays : Obligations.FrameCompletionWays := by
  intro p b rx
  unfold processByte
  cases hst : rx.state with
  | outOfSync => simp
  | idle => simpa using evalIdle_completes_iff p b rx
  | data => simp [evalData_keeps_act]
  | transparentData => simpa using evalTransparent_completes_iff p b rx
  | bcc1 | bcc2 => simp [evalBcc1, evalBcc2]
  | pad => simp [evalPad]

end Sys2Proof.Machine
end

section
/-! Whole frames received byte by byte (R225 to R232, R259): the active slot collects the bytes that are
appended, cut to `N - 1`, and a completed frame is what it then holds. -/

open Sys2Proof.Claims

namespace Sys2Proof.Machine

/-! ### A frame being received -/

/-- The engine is in this state with this DLE flag, and its active slot, the one with index `act`, holds
these bytes as far as they fit (R225, R259). -/
structure Receiving (p : Params) (act : Bool) (bytes : List Byte) (st : RxState) (dle : Bool)
    (rx : RxEngine) : Prop where
  state : rx.state = st
  dle : rx.dle = dle
  act : rx.act = act
  wf : (activeSlot rx).wf p.cap = true
  contents : bufContents (activeSlot rx) = bytes.take (p.cap - 1)

/-- A frame of these bytes, as far as they fit, was completed out of the slot with index `act`, and the
engine is idle over an empty active slot (R226, R227). -/
structure FrameSaved (p : Params) (act : Bool) (bytes : List Byte) (rx : RxEngine) : Prop where
  state : rx.state = .idle
  fc : rx.fc = true
  dle : rx.dle = false
  act : rx.act = !act
  contents : bufContents (savedSlot rx) = bytes.take (p.cap - 1)
  cflag : (savedSlot rx).cflag = true
  empty : bufContents (activeSlot rx) = []

/-- A frame can begin in an idle engine with what its active slot holds already. -/
theorem receiving_of_idle {p : Params} {rx : RxEngine} (hst : rx.state = .idle) (hd : rx.dle = false)
    (h0 : rx.slot0.wf p.cap = true) (h1 : rx.slot1.wf p.cap = true) :
    Receiving p rx.act (bufContents (activeSlot rx)) .idle false rx := by
  obtain ⟨hwf, _⟩ := (slots_wf_iff p.cap rx).mp ⟨h0, h1⟩
  obtain ⟨_, hlen, _⟩ := (Buffer.wf_iff _ _).mp hwf
  exact ⟨hst, hd, rfl, hwf, (List.take_of_length_le (by rwa [bufContents_length])).symm⟩

namespace Receiving

variable {p : Params} {act : Bool} {bytes : List Byte} {st : RxState} {dle : Bool} {rx : RxEngine}

theorem goto (st' : RxState) (h : Receiving p act bytes st dle rx) :
    Receiving p act bytes st' dle (rxGoto st' rx) := ⟨rfl, h.dle, h.act, h.wf, h.contents⟩

theorem setDle (f : Bool) (h : Receiving p act bytes st dle rx) :
    Receiving p act bytes st f (rxSetDle f rx) := ⟨h.state, rfl, h.act, h.wf, h.contents⟩

/-- An appended byte is kept where there is room, and is past the cut where there is none (R225). -/
theorem append (v : Byte) (h : Receiving p act bytes st dle rx) :
    Receiving p act (bytes ++ [v]) st dle (rxAppend p.cap v rx) := by
  have hlen : (activeSlot rx).len = min (p.cap - 1) bytes.length := by
    rw [← bufContents_length, h.contents, List.length_take]
  have hcontents : bufContents (activeSlot (rxAppend p.cap v rx)) = (bytes ++ [v]).take (p.cap - 1) := by
    by_cases hroom : bytes.length < p.cap - 1
    · rw [rxAppend_contents _ _ _ h.wf (by omega), h.contents, List.take_of_length_le (by omega),
        List.take_of_length_le (by simpa using hroom)]
    · rw [rxAppend_of_full v (by omega), h.contents, List.take_append_of_le_length (by omega)]
  exact ⟨by simpa using h.state, by simpa using h.dle, by simpa using h.act,
    rxAppend_keeps_wf _ _ _ h.wf, hcontents⟩

/-! ### The bytes of a text frame (R230, R231) -/

/-- STX or SOH without a pending DLE starts the text. -/
theorem startText (h : Receiving p act bytes .idle false rx) {b : Byte} (hb : b = 0x02 ∨ b = 0x01) :
    Receiving p act (bytes ++ [b]) .data false (processByte p b rx) := by
  have heval : processByte p b rx = rxSetDle false (rxGoto .data (rxAppend p.cap b rx)) := by
    obtain rfl | rfl := hb <;>
      simp [processByte, h.state, evalIdle, h.dle, Config.syn, Config.dle, Config.stx, Config.soh]
  rw [heval]
  exact ((h.append b).goto .data).setDle false

/-- Text without SYN, DLE, ETX or ETB is appended as it is. -/
theorem text {ds : List Byte} (hds : ∀ d, d ∈ ds → d ≠ 0x32 ∧ d ≠ 0x10 ∧ d ≠ 0x03 ∧ d ≠ 0x26)
    (h : Receiving p act bytes .data false rx) :
    Receiving p act (bytes ++ ds) .data false (rxBytes p ds rx) := by
  induction ds generalizing bytes rx with
  | nil => simpa [rxBytes] using h
  | cons d ds ih =>
    obtain ⟨(hsyn : d ≠ Config.syn), (hdle : d ≠ Config.dle), (hetx : d ≠ Config.etx),
      (hetb : d ≠ Config.etb)⟩ := hds d List.mem_cons_self
    have heval : processByte p d rx = rxSetDle false (rxAppend p.cap d rx) := by
      simp [processByte, h.state, evalData, h.dle, hsyn, hdle, hetx, hetb]
    rw [rxBytes, heval, List.append_cons]
    exact ih (fun e he => hds e (List.mem_cons_of_mem d he)) ((h.append d).setDle false)

/-- ETX or ETB ends the text. -/
theorem endText (h : Receiving p act bytes .data false rx) {b : Byte} (hb : b = 0x03 ∨ b = 0x26) :
    Receiving p act (bytes ++ [b]) .bcc1 false (processByte p b rx) := by
  have heval : processByte p b rx = rxSetDle false (rxGoto .bcc1 (rxAppend p.cap b rx)) := by
    obtain rfl | rfl := hb <;>
      simp [processByte, h.state, evalData, h.dle, Config.syn, Config.dle, Config.stx, Config.soh,
        Config.etx, Config.etb]
  rw [heval]
  exact ((h.append b).goto .bcc1).setDle false

/-! ### The bytes of a transparent frame (R230, R232) -/

/-- DLE STX starts transparent text. -/
theorem startTransparent (h : Receiving p act bytes .idle false rx) :
    Receiving p act (bytes ++ [0x10, 0x02]) .transparentData false (rxBytes p [0x10, 0x02] rx) := by
  have heval : rxBytes p [0x10, 0x02] rx = rxSetDle false (rxGoto .transparentData
      (rxAppend p.cap 0x02 (rxAppend p.cap 0x10 (rxSetDle true rx)))) := by
    simp [rxBytes, processByte, h.state, evalIdle, Config.syn, Config.dle, Config.stx]
  rw [heval, List.append_cons]
  exact ((((h.setDle true).append _).append _).goto _).setDle false

/-- A byte of the text, stuffed, is appended once. -/
theorem stuffedByte (h : Receiving p act bytes .transparentData false rx) (d : Byte) :
    Receiving p act (bytes ++ [d]) .transparentData false (rxBytes p (stuff [d]) rx) := by
  by_cases hd : d = 0x10#8
  · subst hd
    have heval : rxBytes p (stuff [0x10#8]) rx =
        rxSetDle false (rxAppend p.cap 0x10 (rxSetDle true rx)) := by
      simp [stuff, rxBytes, processByte, h.state, evalTransparent, h.dle, Config.dle]
    rw [heval]
    exact ((h.setDle true).append _).setDle false
  · have heval : rxBytes p (stuff [d]) rx = rxAppend p.cap d rx := by
      simp [stuff, hd, rxBytes, processByte, h.state, evalTransparent, h.dle, Config.dle]
    rw [heval]
    exact h.append d

/-- Stuffed text is appended with each DLE once. -/
theorem stuffed (ds : List Byte) (h : Receiving p act bytes .transparentData false rx) :
    Receiving p act (bytes ++ ds) .transparentData false (rxBytes p (stuff ds) rx) := by
  induction ds generalizing bytes rx with
  | nil => simpa [stuff, rxBytes] using h
  | cons d ds ih =>
    have hsplit : stuff (d :: ds) = stuff [d] ++ stuff ds := by simp [stuff]
    rw [hsplit, rxBytes_append, List.append_cons]
    exact ih (h.stuffedByte d)

/-- DLE with ETX, ETB or ITB ends transparent text. -/
theorem endTransparent (h : Receiving p act bytes .transparentData false rx) {b : Byte}
    (hb : b = 0x03 ∨ b = 0x26 ∨ b = 0x1F) :
    Receiving p act (bytes ++ [0x10, b]) .bcc1 false (rxBytes p [0x10, b] rx) := by
  have heval : rxBytes p [0x10, b] rx = rxSetDle false (rxGoto .bcc1
      (rxAppend p.cap b (rxAppend p.cap 0x10 (rxSetDle true rx)))) := by
    obtain rfl | rfl | rfl := hb <;>
      simp [rxBytes, processByte, h.state, evalTransparent, h.dle, Config.dle, Config.enq, Config.itb,
        Config.etx, Config.etb]
  rw [heval, List.append_cons]
  exact ((((h.setDle true).append _).append _).goto _).setDle false

/-! ### The check bytes and the pad (R227 to R229) -/

/-- A frame completed after an append is saved. -/
theorem appendComplete (hc : 2 ≤ p.cap) (v : Byte) (h : Receiving p act bytes st false rx) :
    FrameSaved p act (bytes ++ [v]) (rxGoto .idle (markFrameComplete (rxAppend p.cap v rx))) := by
  have ⟨_, hdle, hact, _, hcontents⟩ := h.append v
  obtain ⟨hactive, hsaved⟩ := markFrameComplete_slots (rxAppend p.cap v rx)
  refine ⟨rfl, rfl, by simpa using hdle, by simpa using hact, ?_, ?_, ?_⟩
  · rw [savedSlot_rxGoto, hsaved, bufContents_bufSetComplete, hcontents]
  · rw [savedSlot_rxGoto, hsaved, bufSetComplete_cflag _ (rxAppend_not_empty _ _ _ hc)]
  · rw [activeSlot_rxGoto, hactive, bufContents_bufClear]

/-- The two check bytes and the pad, whatever they are, complete the frame. -/
theorem finish (hc : 2 ≤ p.cap) (c1 c2 pad : Byte) (h : Receiving p act bytes .bcc1 false rx) :
    FrameSaved p act (bytes ++ [c1, c2, pad]) (rxBytes p [c1, c2, pad] rx) := by
  have heval : rxBytes p [c1, c2, pad] rx = rxGoto .idle (markFrameComplete (rxAppend p.cap pad
      (rxGoto .pad (rxAppend p.cap c2 (rxGoto .bcc2 (rxAppend p.cap c1 rx)))))) := by
    simp [rxBytes, processByte, h.state, evalBcc1, evalBcc2, evalPad]
  rw [heval, List.append_cons, List.append_cons]
  exact ((((h.append c1).goto .bcc2).append c2).goto .pad).appendComplete hc pad

end Receiving

/-- Settles O47: start, text, end, check bytes and pad, each after the other. -/
theorem textFrameIsSaved : Obligations.TextFrameIsSaved := by
  intro p rx start term c1 c2 pad text hp hst hd h0 h1 hstart hterm htext
  obtain ⟨hc, _⟩ := (Params.wf_iff p).mp hp
  have hsplit : start :: text ++ [term, c1, c2, pad] =
      [start] ++ (text ++ ([term] ++ [c1, c2, pad])) := by simp
  have hbegin := (receiving_of_idle hst hd h0 h1).startText hstart
  have ⟨hstate, hfc, hdle, hact, hcontents, hcflag, hempty⟩ :=
    ((hbegin.text htext).endText hterm).finish hc c1 c2 pad
  simp only [hsplit, rxBytes_append, ← List.append_assoc]
  exact ⟨hstate, hfc, hdle, hact, hcontents, hcflag, hempty⟩

/-- Settles O48: as O47, with the text between its DLE pairs destuffed. -/
theorem transparentFrameIsDestuffed : Obligations.TransparentFrameIsDestuffed := by
  intro p rx term c1 c2 pad text hp hst hd h0 h1 hterm
  obtain ⟨hc, _⟩ := (Params.wf_iff p).mp hp
  have htail : [0x10, term, c1, c2, pad] = [0x10, term] ++ [c1, c2, pad] := rfl
  have hbegin := (receiving_of_idle hst hd h0 h1).startTransparent
  have ⟨hstate, hfc, hdle, hact, hcontents, _, hempty⟩ :=
    ((hbegin.stuffed text).endTransparent hterm).finish hc c1 c2 pad
  simp only [htail, rxBytes_append, ← List.append_assoc]
  exact ⟨hstate, hfc, hdle, hact, hcontents, hempty⟩

end Sys2Proof.Machine
end

section
/-! The clock sequencer (R280 to R286): a tick cannot fail and moves PHASE on, no command reads or writes it,
and four ticks from PHASE 0 are one cycle of the wire. -/

namespace Sys2Proof.Machine

/-- Settles O51: the meanings of phases 1 and 3 (R282, R284), and the wrap of a 2-bit PHASE. -/
theorem clockPhasesDriveBothClocks : Obligations.ClockPhasesDriveBothClocks :=
  ⟨rfl, rfl, fun _ => ⟨rfl, rfl, fun h => by rw [h]; rfl⟩⟩

/-- From PHASE 3 the clocks fall and PHASE wraps (R284). -/
theorem exec_ph3ClkFall_of_phase {s : State} (hp : s.phase = 3#2) :
    exec .ph3ClkFall s = .next { s with clkTx := false, clkRx := false, phase := 0#2 } := by
  obtain ⟨_, _, hclocks⟩ := clockPhasesDriveBothClocks
  obtain ⟨_, hfall, hwrap⟩ := hclocks s
  rw [hfall, hwrap hp]

/-! ### A tick and PHASE (R280) -/

/-- Each of the four micro-operations ends with the advance of PHASE. -/
theorem exec_phase_advances {i : Instr} {s t : State} (hi : i.isCommand = false)
    (h : exec i s = .next t) : t.phase = s.phase + 1#2 := by
  cases exec_effect h with
  | ph0SendBit | ph1ClkRise | ph2RxSample | ph3ClkFall => rfl
  | answers _ _ hc => simp [hc] at hi
  | txClear | txAdd | txStart | txStop | txStopOnIdle | rxStart | rxStop | rxGetSaved => cases hi

/-! ### No command reads or writes PHASE (R280) -/

theorem respondByte_at_phase {r : Result Byte} {s t : State} (p : BitVec 2)
    (h : respondByte r s = .next t) :
    respondByte r { s with phase := p } = .next { t with phase := p } := by
  cases r with
  | ok v => cases h; rfl
  | sentinel c => cases h; rfl
  | fault f => cases h

/-- Whether TX_ADD has room does not depend on PHASE. -/
theorem exec_txAdd_at_phase {b : Byte} {s t : State} (p : BitVec 2) (h : exec (.txAdd b) s = .next t) :
    exec (.txAdd b) { s with phase := p } = .next { t with phase := p } := by
  obtain hfull | hroom := le_or_gt (s.params.cap - 1) s.tx.q.len
  · rw [exec_txAdd_of_full b hfull] at h
    cases h
    exact exec_txAdd_of_full b hfull
  · rw [exec_txAdd_of_room b hroom] at h
    cases h
    exact exec_txAdd_of_room b hroom

/-- Whether RX_GET_SAVED finds a frame, and which one, does not depend on PHASE. -/
theorem exec_rxGetSaved_at_phase {s t : State} (p : BitVec 2) (h : exec .rxGetSaved s = .next t) :
    exec .rxGetSaved { s with phase := p } = .next { t with phase := p } := by
  obtain ⟨hfc, e⟩ | ⟨hfc, _, sn, hsn, e⟩ | ⟨_, _, e⟩ := execRxGetSaved_cases s <;>
    cases e.symm.trans h
  · exact exec_rxGetSaved_of_no_frame hfc
  · simp [exec, execRxGetSaved, hfc, hsn, respondOk]

/-- A command does the same at every PHASE and leaves it. -/
theorem exec_command_at_phase {i : Instr} {s t : State} (p : BitVec 2) (hi : i.isCommand = true)
    (h : exec i s = .next t) : exec i { s with phase := p } = .next { t with phase := p } := by
  cases i with
  | txAdd b => exact exec_txAdd_at_phase p h
  | rxGetSaved => exact exec_rxGetSaved_at_phase p h
  | rxFrameByte n => exact respondByte_at_phase p h
  | snapByte n => exact respondByte_at_phase p h
  | ph0SendBit | ph1ClkRise | ph2RxSample | ph3ClkFall => cases hi
  | txClear | txStart | txStop | txStopOnIdle | txRemaining | txState | rxStart | rxStop
  | rxFrameComplete | rxFrameLen | rxState | snapLen => cases h; rfl

/-- Settles O8: under the invariant the tick goes on, as the micro-operation of PHASE; a command commutes
with any change of PHASE. -/
theorem tickPerformsPhaseAndAdvances : Obligations.TickPerformsPhaseAndAdvances := by
  refine ⟨fun s level hs => ?_, fun i s t p hi h =>
    ⟨(exec_command_frame hi h).1, exec_command_at_phase p hi h⟩⟩
  obtain ⟨t, ht⟩ := step_goes (s := offerMove (.tick level) s) hs
  have hexec : exec (decodePhase s.phase) (lineSets level s) = .next t :=
    (step_offerMove_tick level s).symm.trans ht
  have hphase : t.phase = s.phase + 1#2 :=
    exec_phase_advances (s := lineSets level s) (decodePhase_not_command _) hexec
  refine ⟨t, ht, hphase ▸ BitVec.toNat_add s.phase 1#2, ?_, ?_, ?_, ?_⟩ <;>
    (intro hp; rw [hp] at hexec; exact hexec)

/-! ### One cycle (R285, R286) -/

/-- The level on RXD plays no part in sending a bit (R181). -/
theorem sendBit_lineSets {s u : State} (level : Bool) (h : sendBit s = .ok u) :
    sendBit (lineSets level s) = .ok (lineSets level u) := by
  obtain ⟨ho, rfl⟩ | ⟨ho, hc, rfl⟩ | ⟨ho, hc, hl, hcap, rfl⟩ | ⟨ho, hc, hl, hs, rfl⟩ |
    ⟨ho, hc, hl, hs, rfl⟩ := sendBit_ok_cases h
  · exact sendBit_of_off (s := lineSets level _) ho
  · exact sendBit_of_bits_left (s := lineSets level s) ho hc
  · exact (sendBit_of_none_left (s := lineSets level s) ho hc).trans (txFetch_of_pending hl hcap)
  · exact (sendBit_of_none_left (s := lineSets level s) ho hc).trans (txFetch_of_stop hl hs)
  · exact (sendBit_of_none_left (s := lineSets level s) ho hc).trans (txFetch_of_fill hl hs)

/-- One more tick after a run performs the micro-operation of the PHASE the run left. -/
theorem runMoves_tick {ms : List Move} {s t u : State} (level : Bool) (h : runMoves ms s = .next t)
    (hu : exec (decodePhase t.phase) (lineSets level t) = .next u) :
    runMoves (ms ++ [.tick level]) s = .next u := by
  rw [runMoves_append ms _ s t h, runMoves, step_offerMove_tick, hu]
  rfl

/-- Settles O52: each tick adds its micro-operation to the state the one before left. -/
theorem cycleDrivesAndSamplesOneBit : Obligations.CycleDrivesAndSamplesOneBit := by
  intro s l0 l1 l2 l3 hs hp
  obtain ⟨u, hu⟩ := sendBit_answers hs
  obtain ⟨hphase, hparams, hrx⟩ : u.phase = s.phase ∧ u.params = s.params ∧ u.rx = s.rx := by
    rw [sendBit_frame hu]
    exact ⟨rfl, rfl, rfl⟩
  have hsent : exec (decodePhase s.phase) (lineSets l0 s) = .next { u with phase := 1, rxd := l0 } := by
    have hexec := exec_ph0SendBit_of_ok (sendBit_lineSets l0 hu)
    rw [advancePhase, lineSets_phase, hphase, hp] at hexec
    rw [hp]
    exact hexec
  have h0 : runMoves [.tick l0] s = .next { u with phase := 1, rxd := l0 } :=
    runMoves_tick (ms := []) l0 rfl hsent
  have h1 : runMoves [.tick l0, .tick l1] s =
      .next { u with phase := 2, rxd := l1, clkTx := true, clkRx := true } :=
    runMoves_tick l1 h0 rfl
  have h2 : runMoves [.tick l0, .tick l1, .tick l2] s = .next { u with
      phase := 3, rxd := l2, clkTx := true, clkRx := true, rx := rxSample s.params l2 s.rx } := by
    rw [← hparams, ← hrx]
    exact runMoves_tick l2 h1 rfl
  exact ⟨u, hu, h0, h1, h2, runMoves_tick l3 h2 (exec_ph3ClkFall_of_phase rfl)⟩

end Sys2Proof.Machine
end

section
/-! Nothing stops the block, and a failure is a response and nothing else (R11, R300, R309). -/

namespace Sys2Proof.Machine

/-- Of the effects a command can have, those that write the state answer OK: a command answered FAIL has
written nothing but the response (R300, R309). -/
theorem exec_failed_frame {i : Instr} {s t : State} (hi : i.isCommand = true) (h : exec i s = .next t)
    (hfail : t.rw.getLsbD 31 = true) : t = { s with rw := t.rw } := by
  cases exec_effect h with
  | answers => rfl
  | txClear | txAdd | txStart | txStop | txStopOnIdle | rxStart | rxStop | rxGetSaved =>
    cases (okWord_fail_bit _).symm.trans hfail
  | ph0SendBit | ph1ClkRise | ph2RxSample | ph3ClkFall => cases hi

/-- A response with FAIL set is that of a reason code (R116, R301). -/
theorem exec_failed_code {i : Instr} {s t : State} (hi : i.isCommand = true) (h : exec i s = .next t)
    (hfail : t.rw.getLsbD 31 = true) : ∃ c, t.rw = failWord c := by
  obtain ⟨v, hv⟩ | ⟨c, _, hc⟩ := exec_response hi h
  · rw [hv, okWord_fail_bit] at hfail
    cases hfail
  · exact ⟨c, hc⟩

/-- Settles O13: the invariant keeps every read below the end of its store, so each instruction and each
step goes on; a failure answers its code and leaves the rest. -/
theorem nothingStopsTheBlock : Obligations.NothingStopsTheBlock :=
  ⟨fun _ => step_goes, fun i _ => exec_goes i, fun _ _ _ hi h hfail =>
    ⟨exec_failed_frame hi h hfail, exec_failed_code hi h hfail⟩⟩

end Sys2Proof.Machine
end

section
/-! The reset values as host-visible words (R330): the two status words of the reset state, and the reads of
empty stores, whose answers need no bound on `N`. -/

namespace Sys2Proof.Machine

/-- TX_REMAINING of a queue with every byte fetched answers 0 (R192). -/
theorem exec_txRemaining_of_drained {s : State} (h : s.tx.q.len = s.tx.q.pos) :
    exec .txRemaining s = .next { s with rw := 0 } := by
  have hcount : exec .txRemaining s = .next (respondOk (zextCount (s.tx.q.len - s.tx.q.pos)) s) := rfl
  rw [hcount, Nat.sub_eq_zero_of_le h.le]
  rfl

/-- RX_FRAME_LEN of an empty active slot answers 0 (R244). -/
theorem exec_rxFrameLen_of_empty {s : State} (h : (activeSlot s.rx).len = 0) :
    exec .rxFrameLen s = .next { s with rw := 0 } := by
  have hcount : exec .rxFrameLen s = .next (respondOk (zextCount (activeSlot s.rx).len) s) := rfl
  rw [hcount, h]
  rfl

/-- RX_FRAME_COMPLETE without a complete frame answers 0 (R243). -/
theorem exec_rxFrameComplete_of_no_frame {s : State} (h : s.rx.fc = false) :
    exec .rxFrameComplete s = .next { s with rw := 0 } := by
  have hflag : exec .rxFrameComplete s = .next (respondOk (zextFlag s.rx.fc) s) := rfl
  rw [hflag, h]
  rfl

/-- SNAP_LEN of an empty snapshot answers 0 (R160). -/
theorem exec_snapLen_of_empty {s : State} (h : s.snap.len = 0) :
    exec .snapLen s = .next { s with rw := 0 } := by
  have hcount : exec .snapLen s = .next (respondOk (zextCount s.snap.len) s) := rfl
  rw [hcount, h]
  rfl

/-- Settles O10: the status words are the sums of R48 and R49 over the reset fields, with TXD at mark the only
summand; the other reads find empty stores and no frame (R54). -/
theorem resetResponses : Obligations.ResetResponses := by
  intro p
  obtain ⟨_, htxState⟩ := txStateAnswersStatus
  obtain ⟨_, hrxState⟩ := rxStateAnswersStatus
  exact ⟨htxState _, hrxState _, exec_txRemaining_of_drained rfl, exec_rxFrameLen_of_empty rfl,
    exec_rxFrameComplete_of_no_frame rfl, exec_snapLen_of_empty rfl, exec_rxGetSaved_of_no_frame rfl⟩

end Sys2Proof.Machine
end
